-- ==== Sys2Proof/Word.lean ====
section
/-! DEFINITION. The word types of the MBLibrary core block (spec/00_scope.md R7: `u8`, `u16`; spec/30_encoding.md R71:
the 64-bit local command word). -/

namespace Sys2Proof

/-- A `u8`: one byte of a PDU or of a frame (R7, R57). -/
abbrev Byte := BitVec 8

/-- A `u16`: the value of a word register, or a 16-bit field (R7, R16). -/
abbrev Word := BitVec 16

/-- A register address, a 16-bit unsigned integer (R5 ADDR_WIDTH, R15). -/
abbrev Addr := BitVec 16

/-- The command word of port L (R71). -/
abbrev CommandWord := BitVec 64

end Sys2Proof
end

