-- ==== Sys2Proof/Config.lean ====
section
/-! DEFINITION. The fixed parameters of spec/00_scope.md R5, and the block's open values: the free draws of the pattern
Random and the number of requesters (R6), and the service order among outstanding transactions (R34). An open value is a
constant with no body: nothing can be proved of its value. -/

namespace Sys2Proof.Config

/-- CAP(Coil), `MAX_COILS` (R5). -/
def capCoils : Nat := 2000
/-- CAP(DiscreteInput), `MAX_DISCRETE_INPUTS` (R5). -/
def capDiscreteInputs : Nat := 2000
/-- CAP(HoldingRegister), `MAX_HOLDING_REGISTERS` (R5; spec/90_conflicts.md C1 chooses 125). -/
def capHoldingRegisters : Nat := 125
/-- CAP(InputRegister), `MAX_INPUT_REGISTERS` (R5). -/
def capInputRegisters : Nat := 125

/-- RANGE_MAX of Coil and DiscreteInput (R5). -/
def rangeMaxBits : Nat := 2000
/-- RANGE_MAX of HoldingRegister and InputRegister (R5). -/
def rangeMaxWords : Nat := 125

/-- QMAX_READ_BITS, the quantity maximum of 0x01 and 0x02 (R5). -/
def qmaxReadBits : Nat := 2000
/-- QMAX_READ_REGS, the quantity maximum of 0x03 and 0x04 (R5). -/
def qmaxReadRegs : Nat := 125
/-- QMAX_WRITE_COILS, the quantity maximum of 0x0F (R5; C3). -/
def qmaxWriteCoils : Nat := 1968
/-- QMAX_WRITE_REGS, the quantity maximum of 0x10 (R5; C1). -/
def qmaxWriteRegs : Nat := 123

/-- PDU_MAX, the longest PDU in bytes (R5). -/
def pduMax : Nat := 253
/-- MBAP_LEN, the length of the MBAP header in bytes (R5, R134). -/
def mbapLen : Nat := 7
/-- The highest register address (R15, R46). -/
def maxAddress : Nat := 0xFFFF

/-- RandomDraw for a boolean kind (R6, R85, D13): the value of draw number `n`. Free value, log 3. Safe. -/
opaque randomBit : Nat → Bool

/-- RandomDraw for a word kind (R6, R85, D13): the value of draw number `n`. Free value, log 3. Safe. -/
opaque randomWord : Nat → Word

/-- Which of the outstanding transactions the block performs at turn `n` (R34, R51): the position in the list of pending
transactions, taken modulo its length. Free value, log 2. Safe. -/
opaque arbiter : Nat → Nat

/-- One less than N_REQ (R6). Free value, log 4. Safe. -/
opaque otherRequesters : Nat

/-- N_REQ, "any positive number" of requesters (R6, R34). -/
def nReq : Nat := otherRequesters + 1

end Sys2Proof.Config
end

