-- ==== Sys2Proof/Syntax.lean ====
section
/-! DEFINITION. The operand types, the two transaction shapes of ports P and L (spec/10_state.md R32, R33), and `Instr`: one
constructor per row of spec/opcode_table.json. -/

namespace Sys2Proof

/-- The boolean kinds (R5 "BOOL kinds"). -/
inductive BitKind where
  | coil | discreteInput
  deriving DecidableEq, Repr

/-- The word kinds (R5 "WORD kinds"). -/
inductive WordKind where
  | holdingRegister | inputRegister
  deriving DecidableEq, Repr

/-- The four register kinds (R13, R15), grouped by the type of value they hold (R16). -/
inductive Kind where
  | bit (k : BitKind)
  | word (k : WordKind)
  deriving DecidableEq, Repr

/-- The value of a register: a boolean or a 16-bit word (R16). -/
inductive Value where
  | bit (b : Bool)
  | word (w : Word)
  deriving DecidableEq, Repr

/-- A kind together with a value of its type (R16, R73): the operands of insert and write_one. A boolean for a word kind cannot
be written down. -/
inductive KindValue where
  | bit (k : BitKind) (b : Bool)
  | word (k : WordKind) (w : Word)
  deriving DecidableEq, Repr

/-- The kind a `KindValue` is of. -/
def KindValue.kind : KindValue → Kind
  | .bit k _ => .bit k
  | .word k _ => .word k

/-- The value a `KindValue` holds. -/
def KindValue.value : KindValue → Value
  | .bit _ b => .bit b
  | .word _ w => .word w

/-- The generation patterns (R74, R84). -/
inductive Pattern where
  | zeros | ones | random | incremental | decremental | max
  deriving DecidableEq, Repr

/-- The MBAP header record (R134). -/
structure MbapHeader where
  tid : Word
  pid : Word
  len : Word
  uid : Byte
  deriving DecidableEq, Repr

/-- The bytes after the function code of a request whose fixed header is 5 bytes (RQ-RANGE, R58; RQ-SINGLE, R59). -/
inductive FixedBody where
  /-- Fewer bytes than the fixed header requires (R116). -/
  | short (bytes : List Byte)
  /-- The two `u16` fields (start and qty, or address and value) and the bytes beyond them (R69). -/
  | fields (first second : Word) (trailing : List Byte)
  deriving DecidableEq, Repr

/-- The bytes after the function code of a request whose fixed header is 6 bytes (RQ-MULTI, R60). -/
inductive MultiBody where
  /-- Fewer bytes than the fixed header requires (R116). -/
  | short (bytes : List Byte)
  /-- The fields of the header, and every byte that follows it. -/
  | fields (start qty : Word) (byteCount : Byte) (data : List Byte)
  deriving DecidableEq, Repr

/-- The data operand that stands beside a local command word (R33, R71, R72 column "data operand"). -/
inductive Operand where
  | absent
  | bits (b : List Bool)
  | bytes (d : List Byte)
  | header (m : MbapHeader)
  | headerAndPdu (m : MbapHeader) (pdu : List Byte)
  deriving DecidableEq, Repr

/-- One transaction: a request PDU on port P (R32) or a local command on port L (R33). -/
inductive Transaction where
  | request (req : List Byte)
  | command (word : CommandWord) (operand : Operand)
  deriving DecidableEq, Repr

/-- Why the decoder finds no instruction in a transaction. -/
inductive DecodeError where
  /-- A request PDU of length 0 (R110, D7). -/
  | emptyPdu
  /-- A request PDU of more than 253 bytes (R110, D7). -/
  | oversizePdu
  /-- A kind field of 2, 5, 6 or 7 on an operation that reads kind (R73, R76). -/
  | reservedKind
  /-- A pattern field of 6 or 7 on GENERATE (R74, R76). -/
  | reservedPattern
  /-- A value field other than 0x0000 and 0x0001 for a boolean kind (R73, R76). -/
  | reservedBooleanValue
  /-- A data operand that has not the shape of R72 (R76). -/
  | operandShape
  deriving DecidableEq, Repr

/-- The instruction set: one constructor per row of spec/opcode_table.json. -/
inductive Instr where
  /-- READ_COILS, function code 0x01 (R121). -/
  | readCoils (body : FixedBody)
  /-- READ_DISCRETE_INPUTS, function code 0x02 (R122). -/
  | readDiscreteInputs (body : FixedBody)
  /-- READ_HOLDING_REGISTERS, function code 0x03 (R123). -/
  | readHoldingRegisters (body : FixedBody)
  /-- READ_INPUT_REGISTERS, function code 0x04 (R124). -/
  | readInputRegisters (body : FixedBody)
  /-- WRITE_SINGLE_COIL, function code 0x05 (R127). -/
  | writeSingleCoil (body : FixedBody)
  /-- WRITE_SINGLE_REGISTER, function code 0x06 (R128). -/
  | writeSingleRegister (body : FixedBody)
  /-- WRITE_MULTIPLE_COILS, function code 0x0F (R129). -/
  | writeMultipleCoils (body : MultiBody)
  /-- WRITE_MULTIPLE_REGISTERS, function code 0x10 (R130). -/
  | writeMultipleRegisters (body : MultiBody)
  /-- ILLEGAL: every function code not above, with the bytes that follow it (R67, R115). -/
  | illegal (fc : Byte) (params : List Byte)
  /-- L.INSERT, op 0x0 (R81). -/
  | lInsert (addr : Addr) (reg : KindValue)
  /-- L.GENERATE, op 0x1 (R84). -/
  | lGenerate (kind : Kind) (pattern : Pattern) (start : Addr) (count : Word)
  /-- L.GET_RANGE, op 0x2 (R89). -/
  | lGetRange (kind : Kind) (start : Addr) (length : Word)
  /-- L.GET_ONE, op 0x3 (R92). -/
  | lGetOne (kind : Kind) (addr : Addr)
  /-- L.WRITE_ONE, op 0x4 (R93). -/
  | lWriteOne (addr : Addr) (reg : KindValue)
  /-- L.PACK_BITS, op 0x5 (R97). -/
  | lPackBits (bits : List Bool)
  /-- L.UNPACK_BITS, op 0x6 (R98). -/
  | lUnpackBits (count : Word) (data : List Byte)
  /-- L.BYTES_NEEDED, op 0x7 (R99). -/
  | lBytesNeeded (count : Word)
  /-- L.U16_FROM_BE, op 0x8 (R100). -/
  | lU16FromBe (hi lo : Byte)
  /-- L.U16_TO_BE, op 0x9 (R101). -/
  | lU16ToBe (value : Word)
  /-- L.EXCEPTION_PDU, op 0xA (R106). -/
  | lExceptionPdu (fc code : Byte)
  /-- L.FORMAT_ADDRESS, op 0xB (R107). -/
  | lFormatAddress (kind : Kind) (addr : Addr)
  /-- L.MBAP_PARSE, op 0xC (R135). -/
  | lMbapParse (bytes : List Byte)
  /-- L.MBAP_SERIALIZE, op 0xD (R136). -/
  | lMbapSerialize (header : MbapHeader)
  /-- L.MBAP_FRAME, op 0xE (R137). -/
  | lMbapFrame (header : MbapHeader) (pdu : List Byte)
  /-- L.RESERVED: op 0xF, "also every word that matches no row above" (R76; the table's last row). -/
  | lReserved (word : CommandWord) (operand : Operand)
  deriving DecidableEq, Repr

end Sys2Proof
end

