-- ==== Sys2Proof/Machine/Operands.lean ====
section
/-! DEFINITION. Operand forms and the combinational utilities: byte order (spec/20_memory.md R38 to R40), bit packing, the
exception PDU, the address display (spec/41_bit_utilities.md), the MBAP codec (spec/47_mbap_codec.md), and the fields of the
local command word (spec/30_encoding.md R71 to R74). The decoder and every meaning use these and no other. -/

namespace Sys2Proof.Machine

/-! ## Bit and byte utilities -/

/-- `bytes_needed(n) = ceil8(n) = (n + 7) div 8` (R7, R99). -/
def bytesNeeded (n : Nat) : Nat := (n + 7) / 8

/-- `u16_from_be(hi, lo) = zext_16(hi) × 256 + zext_16(lo)` (R38, R100). -/
def u16FromBe (hi lo : Byte) : Word := hi.zeroExtend 16 * 256#16 + lo.zeroExtend 16

/-- The high byte `v[15:8]` (R101). -/
def highByte (v : Word) : Byte := v.extractLsb' 8 8

/-- The low byte `v[7:0]` (R101). -/
def lowByte (v : Word) : Byte := v.extractLsb' 0 8

/-- `u16_to_be(v) = [v[15:8], v[7:0]]` (R38, R101). -/
def u16ToBe (v : Word) : List Byte := [highByte v, lowByte v]

/-- A count that fits one byte, as that byte (R11, R105). -/
def byteOfNat (n : Nat) : Byte := BitVec.ofNat 8 n

/-- At most eight booleans as one byte, the first at bit 0 (R40, R97). -/
def packByte : List Bool → Byte
  | [] => 0#8
  | b :: bs => (packByte bs <<< 1) ||| (if b then 1#8 else 0#8)

/-- `pack_bits(b)`: bit k of the sequence is bit `k mod 8` of byte `k div 8`; unused high bits are 0 (R97). -/
def packBits (b : List Bool) : List Byte :=
  (List.range (bytesNeeded b.length)).map fun i => packByte ((b.drop (8 * i)).take 8)

/-- `unpack_bits(d, n)`: element k is bit `k mod 8` of byte `k div 8`, 0 ≤ k < n (R98). Bits and bytes past the n-th bit are
not looked at (D9). -/
def unpackBits (d : List Byte) (n : Nat) : List Bool :=
  (List.range n).map fun k => (d.getD (k / 8) 0#8).getLsbD (k % 8)

/-- Words as consecutive big-endian byte pairs (R39, R123). -/
def wordsToBytes (ws : List Word) : List Byte := ws.flatMap u16ToBe

/-- Data word j of a 0x10 request: the `u16` at data offsets 2j, 2j + 1, for 0 ≤ j < n (R63, R130). -/
def dataWords (d : List Byte) (n : Nat) : List Word :=
  (List.range n).map fun j => u16FromBe (d.getD (2 * j) 0#8) (d.getD (2 * j + 1) 0#8)

/-- `ExceptionPDU(fc, c) = [fc | 0x80, c]` (R106). -/
def exceptionPdu (fc code : Byte) : List Byte := [fc ||| 0x80#8, code]

/-! ## Address display -/

/-- The kind prefix of the legacy display (R107). -/
def kindPrefix : Kind → Char
  | .bit .coil => '0'
  | .bit .discreteInput => '1'
  | .word .inputRegister => '3'
  | .word .holdingRegister => '4'

/-- The last decimal digit of `n` as a character. -/
def digitChar (n : Nat) : Char := Char.ofNat (48 + n % 10)

/-- `decimal(n)` left-padded with '0' to five characters, for n ≤ 99999 (R107: no u16 address has more than five digits). -/
def fiveDigits (n : Nat) : List Char :=
  [digitChar (n / 10000), digitChar (n / 1000), digitChar (n / 100), digitChar (n / 10), digitChar n]

/-- `format_address(K, a)`: the printed number is the address itself, with no offset of 1 (R107, D17). -/
def formatAddress (k : Kind) (a : Addr) : List Char := kindPrefix k :: 'x' :: fiveDigits a.toNat

/-! ## MBAP codec -/

/-- `mbap_parse(b)`: the header of the first seven bytes, nothing when there are fewer. Neither pid nor len is checked and the
bytes after the seventh are not read (R134, R135, D18). -/
def mbapParse : List Byte → Option MbapHeader
  | t1 :: t0 :: p1 :: p0 :: l1 :: l0 :: u :: _ =>
    some { tid := u16FromBe t1 t0, pid := u16FromBe p1 p0, len := u16FromBe l1 l0, uid := u }
  | _ => none

/-- `mbap_serialize(m)`: seven bytes, big-endian, in the order tid, pid, len, uid (R134, R136). -/
def mbapSerialize (m : MbapHeader) : List Byte :=
  u16ToBe m.tid ++ u16ToBe m.pid ++ u16ToBe m.len ++ [m.uid]

/-- `mbap_frame(m, r)`: the header with `len = 1 + len(r)`, then the response PDU (R137). -/
def mbapFrame (m : MbapHeader) (r : List Byte) : List Byte :=
  mbapSerialize { m with len := BitVec.ofNat 16 (1 + r.length) } ++ r

/-! ## Kinds, capacities and patterns -/

/-- CAP(K) (R5, R19). -/
def cap : Kind → Nat
  | .bit .coil => Config.capCoils
  | .bit .discreteInput => Config.capDiscreteInputs
  | .word .holdingRegister => Config.capHoldingRegisters
  | .word .inputRegister => Config.capInputRegisters

/-- RANGE_MAX(K) (R5, R89). -/
def rangeMax : Kind → Nat
  | .bit _ => Config.rangeMaxBits
  | .word _ => Config.rangeMaxWords

/-- The kind field of a kind: its display prefix digit (R73, D4). -/
def kindCode : Kind → BitVec 3
  | .bit .coil => 0#3
  | .bit .discreteInput => 1#3
  | .word .inputRegister => 3#3
  | .word .holdingRegister => 4#3

/-- The kind of a kind field; 2, 5, 6 and 7 are reserved (R73). -/
def kindOf (c : BitVec 3) : Option Kind :=
  match c.toNat with
  | 0 => some (.bit .coil)
  | 1 => some (.bit .discreteInput)
  | 3 => some (.word .inputRegister)
  | 4 => some (.word .holdingRegister)
  | _ => none

/-- The value field of a register value: 0x0000 or 0x0001 for a boolean kind (R73). -/
def valueCode : KindValue → Word
  | .bit _ b => if b then 1#16 else 0#16
  | .word _ w => w

/-- The value of a value field for kind `k`; other than 0x0000 and 0x0001 it is reserved for a boolean kind (R73). -/
def valueOf (k : Kind) (v : Word) : Option KindValue :=
  match k with
  | .bit k => if v = 0#16 then some (.bit k false) else if v = 1#16 then some (.bit k true) else none
  | .word k => some (.word k v)

/-- The pattern field of a pattern (R74, D5). -/
def patternCode : Pattern → BitVec 3
  | .zeros => 0#3
  | .ones => 1#3
  | .random => 2#3
  | .incremental => 3#3
  | .decremental => 4#3
  | .max => 5#3

/-- The pattern of a pattern field; 6 and 7 are reserved (R74). -/
def patternOf (c : BitVec 3) : Option Pattern :=
  match c.toNat with
  | 0 => some .zeros
  | 1 => some .ones
  | 2 => some .random
  | 3 => some .incremental
  | 4 => some .decremental
  | 5 => some .max
  | _ => none

/-! ## The fields of the local command word -/

/-- The fields of a local command word (R71). -/
structure LocalFields where
  op : BitVec 4
  kind : BitVec 3
  pattern : BitVec 3
  zero : BitVec 6
  addr : Addr
  count : Word
  value : Word
  deriving DecidableEq, Repr

/-- The fields at bits 63:60, 59:57, 56:54, 53:48, 47:32, 31:16 and 15:0 (R71). -/
def fieldsOf (w : CommandWord) : LocalFields where
  op := w.extractLsb' 60 4
  kind := w.extractLsb' 57 3
  pattern := w.extractLsb' 54 3
  zero := w.extractLsb' 48 6
  addr := w.extractLsb' 32 16
  count := w.extractLsb' 16 16
  value := w.extractLsb' 0 16

/-- The word of the fields, op first (R71). -/
def wordOf (f : LocalFields) : CommandWord :=
  f.op ++ f.kind ++ f.pattern ++ f.zero ++ f.addr ++ f.count ++ f.value

/-- The fifteen operations of port L (R72). -/
inductive LocalOp where
  | insert | generate | getRange | getOne | writeOne | packBits | unpackBits | bytesNeeded
  | u16FromBe | u16ToBe | exceptionPdu | formatAddress | mbapParse | mbapSerialize | mbapFrame
  deriving DecidableEq, Repr

/-- The operation selector values (R72); 0xF is reserved. -/
def localOpOf (op : BitVec 4) : Option LocalOp :=
  match op.toNat with
  | 0x0 => some .insert
  | 0x1 => some .generate
  | 0x2 => some .getRange
  | 0x3 => some .getOne
  | 0x4 => some .writeOne
  | 0x5 => some .packBits
  | 0x6 => some .unpackBits
  | 0x7 => some .bytesNeeded
  | 0x8 => some .u16FromBe
  | 0x9 => some .u16ToBe
  | 0xA => some .exceptionPdu
  | 0xB => some .formatAddress
  | 0xC => some .mbapParse
  | 0xD => some .mbapSerialize
  | 0xE => some .mbapFrame
  | _ => none

/-- Every field that the operation does not read, the zero field among them, is 0 (R72 column "fields read", R76). -/
def unreadZero (o : LocalOp) (f : LocalFields) : Bool :=
  let noKind := f.kind = 0#3
  let noPattern := f.pattern = 0#3
  let noAddr := f.addr = 0#16
  let noCount := f.count = 0#16
  let noValue := f.value = 0#16
  f.zero = 0#6 &&
  match o with
  | .insert | .writeOne => noPattern && noCount
  | .generate => decide noValue
  | .getRange => noPattern && noValue
  | .getOne | .formatAddress => noPattern && noCount && noValue
  | .unpackBits | .bytesNeeded => noKind && noPattern && noAddr && noValue
  | .u16ToBe | .exceptionPdu => noKind && noPattern && noAddr && noCount
  | .packBits | .u16FromBe | .mbapParse | .mbapSerialize | .mbapFrame =>
    noKind && noPattern && noAddr && noCount && noValue

/-- The word matches none of the fifteen rows of port L: op 0xF, or a bit set outside the fields its operation reads
(R76; the note of the table's row L.RESERVED). -/
def isReservedWord (w : CommandWord) : Bool :=
  match localOpOf (fieldsOf w).op with
  | none => true
  | some o => !unreadZero o (fieldsOf w)

end Sys2Proof.Machine
end

