-- ==== Sys2Proof/WellFormed.lean ====
section
/-! DEFINITION. The well-formed instructions: those some transaction encodes. A short body is shorter than its fixed header, a
request is at most 253 bytes (R57, R110), ILLEGAL carries no supported function code (R67), and L.RESERVED carries a word that
matches no other row (R76). -/

namespace Sys2Proof

/-- "Supported function codes are exactly {0x01, 0x02, 0x03, 0x04, 0x05, 0x06, 0x0F, 0x10}" (R65). -/
def supportedCodes : List Byte := [0x01#8, 0x02#8, 0x03#8, 0x04#8, 0x05#8, 0x06#8, 0x0F#8, 0x10#8]

/-- A body of a request with a 5-byte fixed header (R58, R59): short means fewer than the 4 bytes after the function code. -/
def FixedBody.wf : FixedBody → Bool
  | .short bytes => bytes.length < 4
  | .fields _ _ trailing => trailing.length + 5 ≤ Config.pduMax

/-- A body of a request with a 6-byte fixed header (R60). -/
def MultiBody.wf : MultiBody → Bool
  | .short bytes => bytes.length < 5
  | .fields _ _ _ data => data.length + 6 ≤ Config.pduMax

/-- The well-formed instructions. -/
def Instr.wf : Instr → Bool
  | .readCoils b => b.wf
  | .readDiscreteInputs b => b.wf
  | .readHoldingRegisters b => b.wf
  | .readInputRegisters b => b.wf
  | .writeSingleCoil b => b.wf
  | .writeSingleRegister b => b.wf
  | .writeMultipleCoils b => b.wf
  | .writeMultipleRegisters b => b.wf
  | .illegal fc params => !supportedCodes.contains fc && decide (params.length + 1 ≤ Config.pduMax)
  | .lInsert _ _ => true
  | .lGenerate _ _ _ _ => true
  | .lGetRange _ _ _ => true
  | .lGetOne _ _ => true
  | .lWriteOne _ _ => true
  | .lPackBits _ => true
  | .lUnpackBits _ _ => true
  | .lBytesNeeded _ => true
  | .lU16FromBe _ _ => true
  | .lU16ToBe _ => true
  | .lExceptionPdu _ _ => true
  | .lFormatAddress _ _ => true
  | .lMbapParse _ => true
  | .lMbapSerialize _ => true
  | .lMbapFrame _ _ => true
  | .lReserved w _ => Machine.isReservedWord w

/-- The instruction is one of port P (a request PDU); the others are local commands of port L (R32, R33). -/
def Instr.isRequest : Instr → Bool
  | .readCoils _ | .readDiscreteInputs _ | .readHoldingRegisters _ | .readInputRegisters _ => true
  | .writeSingleCoil _ | .writeSingleRegister _ | .writeMultipleCoils _ | .writeMultipleRegisters _ => true
  | .illegal _ _ => true
  | .lInsert _ _ | .lGenerate _ _ _ _ | .lGetRange _ _ _ | .lGetOne _ _ | .lWriteOne _ _ => false
  | .lPackBits _ | .lUnpackBits _ _ | .lBytesNeeded _ | .lU16FromBe _ _ | .lU16ToBe _ => false
  | .lExceptionPdu _ _ | .lFormatAddress _ _ => false
  | .lMbapParse _ | .lMbapSerialize _ | .lMbapFrame _ _ | .lReserved _ _ => false

end Sys2Proof
end

