-- ==== Sys2Proof/Decode.lean ====
section
/-! DEFINITION. The decoder, total on every transaction, and the encoder (spec/30_encoding.md). Port P is selected by the first
byte of the request alone (R65, R66); port L by the op field of the command word (R72). -/

namespace Sys2Proof

open Machine

/-! ## Port P -/

/-- The body of a request with a 5-byte fixed header: two big-endian `u16` fields at offsets 1 and 3 of the PDU (R58, R59, R63). -/
def fixedBody : List Byte → FixedBody
  | a1 :: a0 :: b1 :: b0 :: trailing => .fields (u16FromBe a1 a0) (u16FromBe b1 b0) trailing
  | bytes => .short bytes

/-- The body of a request with a 6-byte fixed header: start, qty, byte_count, data (R60, R63). -/
def multiBody : List Byte → MultiBody
  | a1 :: a0 :: b1 :: b0 :: n :: data => .fields (u16FromBe a1 a0) (u16FromBe b1 b0) n data
  | bytes => .short bytes

/-- The dispatch table: the handler by the function code alone; any other code is ILLEGAL (R65 to R67, R111, R115). -/
def dispatchRequest (fc : Byte) (params : List Byte) : Instr :=
  if fc = 0x01#8 then .readCoils (fixedBody params)
  else if fc = 0x02#8 then .readDiscreteInputs (fixedBody params)
  else if fc = 0x03#8 then .readHoldingRegisters (fixedBody params)
  else if fc = 0x04#8 then .readInputRegisters (fixedBody params)
  else if fc = 0x05#8 then .writeSingleCoil (fixedBody params)
  else if fc = 0x06#8 then .writeSingleRegister (fixedBody params)
  else if fc = 0x0F#8 then .writeMultipleCoils (multiBody params)
  else if fc = 0x10#8 then .writeMultipleRegisters (multiBody params)
  else .illegal fc params

/-- A request PDU of 1 to 253 bytes; other lengths are rejected by name (R110, D7). -/
def decodeRequest : List Byte → Except DecodeError Instr
  | [] => .error .emptyPdu
  | fc :: params =>
    if Config.pduMax < params.length + 1 then .error .oversizePdu else .ok (dispatchRequest fc params)

/-! ## Port L -/

/-- A kind field that the operation reads, and what follows from it (R73). -/
def withKind (c : BitVec 3) (f : Kind → Except DecodeError Instr) : Except DecodeError Instr :=
  match kindOf c with
  | some k => f k
  | none => .error .reservedKind

/-- An operation that takes no data operand (R72). -/
def withoutOperand (x : Operand) (r : Except DecodeError Instr) : Except DecodeError Instr :=
  match x with
  | .absent => r
  | _ => .error .operandShape

/-- A local command whose word matches the row of operation `o`: its operands by R72, reserved values rejected by name (R76). -/
def decodeOperation (o : LocalOp) (f : LocalFields) (x : Operand) : Except DecodeError Instr :=
  match o with
  | .insert => withoutOperand x <| withKind f.kind fun k =>
    match valueOf k f.value with
    | some v => .ok (.lInsert f.addr v)
    | none => .error .reservedBooleanValue
  | .generate => withoutOperand x <| withKind f.kind fun k =>
    match patternOf f.pattern with
    | some p => .ok (.lGenerate k p f.addr f.count)
    | none => .error .reservedPattern
  | .getRange => withoutOperand x <| withKind f.kind fun k => .ok (.lGetRange k f.addr f.count)
  | .getOne => withoutOperand x <| withKind f.kind fun k => .ok (.lGetOne k f.addr)
  | .writeOne => withoutOperand x <| withKind f.kind fun k =>
    match valueOf k f.value with
    | some v => .ok (.lWriteOne f.addr v)
    | none => .error .reservedBooleanValue
  | .packBits =>
    match x with
    | .bits b => .ok (.lPackBits b)
    | _ => .error .operandShape
  | .unpackBits =>
    match x with
    | .bytes d => .ok (.lUnpackBits f.count d)
    | _ => .error .operandShape
  | .bytesNeeded => withoutOperand x (.ok (.lBytesNeeded f.count))
  | .u16FromBe =>
    match x with
    | .bytes [hi, lo] => .ok (.lU16FromBe hi lo)
    | _ => .error .operandShape
  | .u16ToBe => withoutOperand x (.ok (.lU16ToBe f.value))
  | .exceptionPdu => withoutOperand x (.ok (.lExceptionPdu (highByte f.value) (lowByte f.value)))
  | .formatAddress => withoutOperand x <| withKind f.kind fun k => .ok (.lFormatAddress k f.addr)
  | .mbapParse =>
    match x with
    | .bytes b => .ok (.lMbapParse b)
    | _ => .error .operandShape
  | .mbapSerialize =>
    match x with
    | .header m => .ok (.lMbapSerialize m)
    | _ => .error .operandShape
  | .mbapFrame =>
    match x with
    | .headerAndPdu m r => .ok (.lMbapFrame m r)
    | _ => .error .operandShape

/-- A local command: the row its word matches, or L.RESERVED when it matches none (R71, R72, R76). -/
def decodeCommand (w : CommandWord) (x : Operand) : Except DecodeError Instr :=
  match localOpOf (fieldsOf w).op with
  | some o => if unreadZero o (fieldsOf w) then decodeOperation o (fieldsOf w) x else .ok (.lReserved w x)
  | none => .ok (.lReserved w x)

/-- The decoder: the instruction of a transaction, or why it has none. -/
def decode : Transaction → Except DecodeError Instr
  | .request req => decodeRequest req
  | .command w x => decodeCommand w x

/-! ## The encoder -/

/-- The bytes of a 5-byte-header body (R58, R59). -/
def fixedBytes : FixedBody → List Byte
  | .short bytes => bytes
  | .fields a b trailing => u16ToBe a ++ u16ToBe b ++ trailing

/-- The bytes of a 6-byte-header body (R60). -/
def multiBytes : MultiBody → List Byte
  | .short bytes => bytes
  | .fields a b n data => u16ToBe a ++ u16ToBe b ++ n :: data

/-- A command word with every field 0 but the op field (R71). -/
def opFields (op : BitVec 4) : LocalFields :=
  { op := op, kind := 0#3, pattern := 0#3, zero := 0#6, addr := 0#16, count := 0#16, value := 0#16 }

/-- The transaction of an instruction: its request PDU (R58 to R60, R65) or its command word and data operand (R71 to R74). -/
def encode : Instr → Transaction
  | .readCoils b => .request (0x01#8 :: fixedBytes b)
  | .readDiscreteInputs b => .request (0x02#8 :: fixedBytes b)
  | .readHoldingRegisters b => .request (0x03#8 :: fixedBytes b)
  | .readInputRegisters b => .request (0x04#8 :: fixedBytes b)
  | .writeSingleCoil b => .request (0x05#8 :: fixedBytes b)
  | .writeSingleRegister b => .request (0x06#8 :: fixedBytes b)
  | .writeMultipleCoils b => .request (0x0F#8 :: multiBytes b)
  | .writeMultipleRegisters b => .request (0x10#8 :: multiBytes b)
  | .illegal fc params => .request (fc :: params)
  | .lInsert a v =>
    .command (wordOf { opFields 0x0#4 with kind := kindCode v.kind, addr := a, value := valueCode v }) .absent
  | .lGenerate k p s c =>
    .command (wordOf { opFields 0x1#4 with kind := kindCode k, pattern := patternCode p, addr := s, count := c }) .absent
  | .lGetRange k s n => .command (wordOf { opFields 0x2#4 with kind := kindCode k, addr := s, count := n }) .absent
  | .lGetOne k a => .command (wordOf { opFields 0x3#4 with kind := kindCode k, addr := a }) .absent
  | .lWriteOne a v =>
    .command (wordOf { opFields 0x4#4 with kind := kindCode v.kind, addr := a, value := valueCode v }) .absent
  | .lPackBits b => .command (wordOf (opFields 0x5#4)) (.bits b)
  | .lUnpackBits n d => .command (wordOf { opFields 0x6#4 with count := n }) (.bytes d)
  | .lBytesNeeded n => .command (wordOf { opFields 0x7#4 with count := n }) .absent
  | .lU16FromBe hi lo => .command (wordOf (opFields 0x8#4)) (.bytes [hi, lo])
  | .lU16ToBe v => .command (wordOf { opFields 0x9#4 with value := v }) .absent
  | .lExceptionPdu fc c => .command (wordOf { opFields 0xA#4 with value := u16FromBe fc c }) .absent
  | .lFormatAddress k a => .command (wordOf { opFields 0xB#4 with kind := kindCode k, addr := a }) .absent
  | .lMbapParse b => .command (wordOf (opFields 0xC#4)) (.bytes b)
  | .lMbapSerialize m => .command (wordOf (opFields 0xD#4)) (.header m)
  | .lMbapFrame m r => .command (wordOf (opFields 0xE#4)) (.headerAndPdu m r)
  | .lReserved w x => .command w x

/-! ## The opcode table's numbering -/

/-- The byte `i` of a number whose byte 0 is its least significant one. -/
def byteAt (w i : Nat) : Byte := BitVec.ofNat 8 (w / 256 ^ i)

/-- How many bytes a request with these first bytes reads: its fixed header, then byte_count data bytes for 0x0F and 0x10 (R69);
one byte for any other function code (R115). -/
def requestLength (w : Nat) : Nat :=
  let fc := byteAt w 0
  if fc = 0x0F#8 ∨ fc = 0x10#8 then 6 + (byteAt w 5).toNat
  else if supportedCodes.contains fc then 5
  else 1

/-- The data operand "of zeros" of an operation, of the shape R72 gives (log 8). -/
def zeroOperand (w : CommandWord) : Operand :=
  match localOpOf (fieldsOf w).op with
  | some .packBits => .bits []
  | some .unpackBits => .bytes (List.replicate (bytesNeeded (fieldsOf w).count.toNat) 0#8)
  | some .u16FromBe => .bytes [0#8, 0#8]
  | some .mbapParse => .bytes (List.replicate Config.mbapLen 0#8)
  | some .mbapSerialize => .header { tid := 0#16, pid := 0#16, len := 0#16, uid := 0#8 }
  | some .mbapFrame => .headerAndPdu { tid := 0#16, pid := 0#16, len := 0#16, uid := 0#8 } [0#8]
  | _ => .absent

/-- The transaction whose bits are `w`, numbered as spec/opcode_table.json numbers them: 64 bits are a local command word, any
other number of bits the first bytes of a request PDU, byte 0 in bits 7..0, every byte above them 0 (log 8). -/
def tableTransaction (nbits w : Nat) : Transaction :=
  if nbits = 64 then .command (BitVec.ofNat 64 w) (zeroOperand (BitVec.ofNat 64 w))
  else .request ((List.range (max ((nbits + 7) / 8) (requestLength (w % 2 ^ nbits)))).map (byteAt (w % 2 ^ nbits)))

/-- The instruction the decoder reads from the table's bits. -/
def decodeTableWord (nbits w : Nat) : Option Instr := (decode (tableTransaction nbits w)).toOption

end Sys2Proof
end

