-- ==== Sys2Proof/Machine/State.lean ====
section
/-! DEFINITION. The state of the block (spec/10_state.md R31), what a transaction answers, why a step can stop, and reset
(spec/70_reset_and_hazards.md R162). State is plain data. -/

namespace Sys2Proof.Machine

/-- A register bank: its (address, value) pairs in strictly ascending address order (R15, R18). An address that is not listed has
no register and so no value (R29). -/
abbrev Bank (α : Type) := List (Nat × α)

/-- The Data Area: the four register banks, in disjoint logical address spaces (R13, R15, R16). The block's only storage. -/
structure DataArea where
  /-- Coil (R12). -/
  coils : Bank Bool
  /-- DiscreteInput (R12). -/
  discreteInputs : Bank Bool
  /-- HoldingRegister (R12). -/
  holdingRegisters : Bank Word
  /-- InputRegister (R12). -/
  inputRegisters : Bank Word
  deriving DecidableEq, Repr

/-- The protocol exception codes (R68, R140). -/
inductive ExceptionCode where
  | illegalFunction
  | illegalDataAddress
  | illegalDataValue
  /-- Defined and never emitted (R144, D15). -/
  | serverDeviceFailure
  deriving DecidableEq, Repr

/-- The local error statuses of port L (R75, R145). -/
inductive LocalError where
  | capacityExceeded
  | duplicateAddress
  | notFound
  | outOfRange
  | invalidGenerationPattern
  | malformedHeader
  deriving DecidableEq, Repr

/-- The result data of a local operation that succeeded (R72 column "result on success"). -/
inductive LocalData where
  | none
  /-- The (address, value) pairs of GET_RANGE. -/
  | registers (regs : List (Addr × Value))
  /-- The (address, value) pair of GET_ONE. -/
  | register (addr : Addr) (value : Value)
  | bytes (b : List Byte)
  | bits (b : List Bool)
  | number (n : Nat)
  | word (w : Word)
  /-- A character string, as the list of its characters. -/
  | text (s : List Char)
  | header (m : MbapHeader)
  deriving DecidableEq, Repr

/-- What a transaction answers: a response PDU on port P (R32), or a status, with data when it is OK, on port L (R33, R75). -/
inductive Response where
  | pdu (bytes : List Byte)
  | ok (data : LocalData)
  | error (e : LocalError)
  deriving DecidableEq, Repr

/-- Why the block stops with a fault: it never does. "None of these is a fault or a stuck state of the block" (R160): every
admitted transaction ends in a response (R35, R36). No constructor, so nobody raises one (log 1). -/
inductive Fault where
  deriving DecidableEq, Repr

/-- Why the model gives a transaction no step (R10 "refuse", R160). Every refusal is safe: it claims nothing of the block. -/
inductive Refusal where
  /-- Raised by exec's arm of an instruction without a meaning; no arm of this model raises it. Safe. -/
  | notModelled (mnemonic : String)
  /-- Raised by `step` when the decoder finds no instruction: a request PDU of length 0 or over 253 (R110), or a local command
  with a reserved value or a data operand of the wrong shape (R76). Safe (log 18, 20). -/
  | rejected (e : DecodeError)
  /-- Raised by L.RESERVED: op 0xF (R76). Safe (log 20). -/
  | reservedOperation
  /-- Raised by L.RESERVED: the zero field is not 0 (R76). Safe (log 20). -/
  | zeroFieldNotZero
  /-- Raised by L.RESERVED: a field the operation does not read is not 0 (R76). Safe (log 20). -/
  | unreadFieldNotZero
  /-- Raised by L.UNPACK_BITS with fewer than ceil8(n) bytes (R98, D21). Safe (log 19). -/
  | unpackDataTooShort
  /-- Raised by L.MBAP_FRAME with a response PDU that is not 1 to 253 bytes (R76, R137). Safe (log 19). -/
  | framePduLength
  /-- Raised by the host's `present`: the requester number is not below N_REQ (R6). Safe (log 7). -/
  | noSuchRequester
  /-- Raised by the host's `present`: the requester's transaction has not been answered (R34, R170, I18), or it has not read the
  answer (DESIGN CHOICE, log 5, log 7). Safe (log 7). -/
  | transactionOutstanding
  deriving DecidableEq, Repr

/-- The state of the block and of its ports. -/
structure State where
  /-- The four banks (R15, R31). -/
  area : DataArea
  /-- The outstanding transactions, by requester number, ascending: per requester none or one (R31, R34). -/
  pending : List (Nat × Transaction)
  /-- The response buffer of the transaction being performed; empty between transactions (R28, R30). -/
  response : Option Response
  /-- The responses handed back and not yet read by their requesters, by requester number, ascending (R28, R32 to R35). -/
  delivered : List (Nat × Response)
  /-- The model's own: how many values of the pattern Random have been drawn; a restart does not set it back (log 3). -/
  draws : Nat
  /-- The model's own: how many transactions have been performed; a restart does not set it back (log 2). -/
  turns : Nat
  deriving DecidableEq, Repr

/-- "A Data Area is constructed empty" (R30). -/
def DataArea.empty : DataArea where
  coils := []
  discreteInputs := []
  holdingRegisters := []
  inputRegisters := []

/-- After reset every bank is empty, no transaction is in flight and no response is pending (R30, R31, R162). The model's own two
counters start at 0 (DESIGN CHOICE, log 2 and log 3). -/
def State.reset : State where
  area := DataArea.empty
  pending := []
  response := none
  delivered := []
  draws := 0
  turns := 0

end Sys2Proof.Machine
end

