-- ==== Sys2Proof/Machine/Flags.lean ====
section
/-! DEFINITION. The block has no status flags or condition codes (spec/10_state.md R24): the result of a transaction is its response.
Here stand the codes that a response carries: the exception codes of port P (spec/60_exceptions.md R140) and the status codes of
port L (spec/30_encoding.md R75). -/

namespace Sys2Proof.Machine

/-- The value of an exception code (R68, R140). -/
def exceptionByte : ExceptionCode → Byte
  | .illegalFunction => 0x01#8
  | .illegalDataAddress => 0x02#8
  | .illegalDataValue => 0x03#8
  | .serverDeviceFailure => 0x04#8

/-- The value of a local error status (R75, D6). -/
def errorStatus : LocalError → Nat
  | .capacityExceeded => 1
  | .duplicateAddress => 2
  | .notFound => 3
  | .outOfRange => 4
  | .invalidGenerationPattern => 5
  | .malformedHeader => 6

/-- The status code returned with a local result, 0 for OK (R75). A response of port P carries none: "No local status ever travels
on port P". -/
def statusOf : Response → Option Nat
  | .pdu _ => none
  | .ok _ => some 0
  | .error e => some (errorStatus e)

end Sys2Proof.Machine
end

