-- ==== Sys2Proof/Machine/Ops.lean ====
section
/-! DEFINITION. The named operations over the banks (spec/40_register_file.md) and the ends of a transaction: answering, raising a
protocol exception (spec/60_exceptions.md R149), failing with a local status. There is no return-from-exception operation: the
next transaction starts from the banks as they are (R150). -/

namespace Sys2Proof.Machine

/-! ## Lists keyed by number, in ascending order -/

/-- The entry of key `k`. -/
def lookupKey {α : Type} : List (Nat × α) → Nat → Option α
  | [], _ => none
  | (k', v) :: rest, k => if k' = k then some v else lookupKey rest k

/-- Add the entry of a key in its place of the ascending order, or replace it (R18, R82). -/
def placeKey {α : Type} : List (Nat × α) → Nat → α → List (Nat × α)
  | [], k, v => [(k, v)]
  | (k', v') :: rest, k, v =>
    if k < k' then (k, v) :: (k', v') :: rest
    else if k = k' then (k, v) :: rest
    else (k', v') :: placeKey rest k v

/-- Replace the value of a key that is listed; the keys and their order stay (R93). -/
def writeKey {α : Type} : List (Nat × α) → Nat → α → List (Nat × α)
  | [], _, _ => []
  | (k', v') :: rest, k, v => (if k' = k then (k, v) else (k', v')) :: writeKey rest k v

/-- Take the entry of a key out. -/
def removeKey {α : Type} (l : List (Nat × α)) (k : Nat) : List (Nat × α) := l.filter fun e => e.1 ≠ k

/-- Strictly ascending keys, so each at most once (R17, R18). -/
abbrev ascending {α : Type} (l : List (Nat × α)) : Prop := (l.map Prod.fst).Pairwise (· < ·)

/-! ## The banks -/

/-- The bank of a boolean kind. -/
def DataArea.bitBank (d : DataArea) : BitKind → Bank Bool
  | .coil => d.coils
  | .discreteInput => d.discreteInputs

/-- The bank of a word kind. -/
def DataArea.wordBank (d : DataArea) : WordKind → Bank Word
  | .holdingRegister => d.holdingRegisters
  | .inputRegister => d.inputRegisters

/-- The Data Area with another bank of a boolean kind; no operation of one kind writes another kind's bank (R15). -/
def DataArea.setBitBank (d : DataArea) (k : BitKind) (b : Bank Bool) : DataArea :=
  match k with
  | .coil => { d with coils := b }
  | .discreteInput => { d with discreteInputs := b }

/-- The Data Area with another bank of a word kind (R15). -/
def DataArea.setWordBank (d : DataArea) (k : WordKind) (b : Bank Word) : DataArea :=
  match k with
  | .holdingRegister => { d with holdingRegisters := b }
  | .inputRegister => { d with inputRegisters := b }

/-- `R[K][n]` on one bank, for an unbounded natural `n`: nothing when `n` exceeds 0xFFFF or is not populated (R9, R29, R47). -/
def bankAt {α : Type} (b : Bank α) (n : Nat) : Option α :=
  if n ≤ Config.maxAddress then lookupKey b n else none

/-- `R[K][n]`: the register of kind `K` at address `n`, if there is one (R9, R29). -/
def DataArea.reg (d : DataArea) (k : Kind) (n : Nat) : Option Value :=
  match k with
  | .bit k => (bankAt (d.bitBank k) n).map .bit
  | .word k => (bankAt (d.wordBank k) n).map .word

/-- `size(K)` (R9). -/
def DataArea.size (d : DataArea) : Kind → Nat
  | .bit k => (d.bitBank k).length
  | .word k => (d.wordBank k).length

/-- The canonical form of one bank: strictly ascending addresses of 16 bits, at most CAP(K) registers (R15, R17 to R19). -/
abbrev bankWf {α : Type} (capacity : Nat) (b : Bank α) : Prop :=
  ascending b ∧ (∀ e ∈ b, e.1 ≤ Config.maxAddress) ∧ b.length ≤ capacity

/-- The canonical form of the block's storage. -/
abbrev DataArea.wf (d : DataArea) : Prop :=
  bankWf (cap (.bit .coil)) d.coils ∧ bankWf (cap (.bit .discreteInput)) d.discreteInputs ∧
  bankWf (cap (.word .holdingRegister)) d.holdingRegisters ∧ bankWf (cap (.word .inputRegister)) d.inputRegisters

/-- The block's memory is its Data Area (R9, R15): the canonical form of memory. -/
abbrev Memory.wf (d : DataArea) : Prop := d.wf

/-! ## The five operations of the register file, on one bank -/

/-- The values at `start`, `start + 1`, …, `n` of them, when every address is populated and none exceeds 0xFFFF
(R13 "fully present", R47). -/
def rangeValues {α : Type} (b : Bank α) (start : Nat) : Nat → Option (List α)
  | 0 => some []
  | n + 1 =>
    match bankAt b start with
    | none => none
    | some v => (rangeValues b (start + 1) n).map (v :: ·)

/-- Consecutive addresses for a list of values: the (address, value) pairs of a range (R89). -/
def numbered {α : Type} (start : Nat) : List α → List (Addr × α)
  | [] => []
  | v :: vs => (BitVec.ofNat 16 start, v) :: numbered (start + 1) vs

/-- `get_range(K, s, L)`: strict, copies in ascending order (R89, R90). -/
def getRange {α : Type} (maxLength : Nat) (b : Bank α) (start : Addr) (length : Nat) :
    Except LocalError (List (Addr × α)) :=
  if length = 0 ∨ maxLength < length then .error .outOfRange
  else
    match rangeValues b start.toNat length with
    | none => .error .outOfRange
    | some vs => .ok (numbered start.toNat vs)

/-- `get_one(K, a)` (R92). -/
def getOne {α : Type} (b : Bank α) (a : Addr) : Except LocalError α :=
  match bankAt b a.toNat with
  | none => .error .notFound
  | some v => .ok v

/-- `write_one(K, a, v)` (R93). -/
def writeOne {α : Type} (b : Bank α) (a : Addr) (v : α) : Except LocalError (Bank α) :=
  match bankAt b a.toNat with
  | none => .error .notFound
  | some _ => .ok (writeKey b a.toNat v)

/-- Write consecutive registers from `start` (R129, R130). -/
def writeRange {α : Type} (b : Bank α) (start : Nat) : List α → Bank α
  | [] => b
  | v :: vs => writeRange (writeKey b start v) (start + 1) vs

/-- `insert(K, a, v)`: CapacityExceeded is checked before DuplicateAddress (R81, D11). -/
def insertOne {α : Type} (capacity : Nat) (b : Bank α) (a : Addr) (v : α) : Except LocalError (Bank α) :=
  if capacity ≤ b.length then .error .capacityExceeded
  else if (bankAt b a.toNat).isSome then .error .duplicateAddress
  else .ok (placeKey b a.toNat v)

/-- Add the registers `start + i` with values `gen i`, 0 ≤ i < count (R84, R88). -/
def populate {α : Type} (b : Bank α) (start count : Nat) (gen : Nat → α) : Bank α :=
  (List.range count).foldr (fun i acc => placeKey acc (start + i) (gen i)) b

/-- `generate(K, s, c, p)` after its pattern check: the checks in their order, then all registers or none (R84, D12). -/
def generateBank {α : Type} (capacity : Nat) (b : Bank α) (start : Addr) (count : Nat) (gen : Nat → α) :
    Except LocalError (Bank α) :=
  if capacity < count ∨ capacity - b.length < count then .error .capacityExceeded
  else if 0 < count ∧ Config.maxAddress < start.toNat + count - 1 then .error .outOfRange
  else if (List.range count).any (fun i => (bankAt b (start.toNat + i)).isSome) then .error .duplicateAddress
  else .ok (populate b start.toNat count gen)

/-- The generated values of a boolean kind, draws numbered from `draws`; Incremental, Decremental and Max are not applicable
(R85, R86). -/
def genBit (p : Pattern) (draws : Nat) : Option (Nat → Bool) :=
  match p with
  | .zeros => some fun _ => false
  | .ones => some fun _ => true
  | .random => some fun i => Config.randomBit (draws + i)
  | .incremental => none
  | .decremental => none
  | .max => none

/-- The generated values of a word kind, for `count` registers (R85). -/
def genWord (p : Pattern) (count draws : Nat) : Nat → Word :=
  match p with
  | .zeros => fun _ => 0#16
  | .ones => fun _ => 1#16
  | .random => fun i => Config.randomWord (draws + i)
  | .incremental => fun i => BitVec.ofNat 16 i
  | .decremental => fun i => BitVec.ofNat 16 (count - i)
  | .max => fun _ => 0xFFFF#16

/-- The number of the next draw after `count` registers were generated: one draw a register for Random (D13), none otherwise. -/
def drawsAfter (p : Pattern) (count draws : Nat) : Nat :=
  match p with
  | .random => draws + count
  | _ => draws

/-! ## The ends of a transaction -/

/-- What an operation on the state answers. -/
abbrev Result := Host.Outcome State Fault Refusal

/-- End the transaction with a response, in its response buffer (R28). -/
def respond (r : Response) (s : State) : Result := .next { s with response := some r }

/-- TAKING AN EXCEPTION on port P: the transaction ends with the response `ExceptionPDU(fc, code)`. No state is saved, no mode
changes, there is no vector, and the banks are as before the request (R10, R106, R149). -/
def raise (fc : Byte) (c : ExceptionCode) (s : State) : Result :=
  respond (.pdu (exceptionPdu fc (exceptionByte c))) s

/-- End a local operation with OK and its data (R75). -/
def succeed (data : LocalData) (s : State) : Result := respond (.ok data) s

/-- End a local operation with an error status; it changes no state (R10, R80). -/
def fail (e : LocalError) (s : State) : Result := respond (.error e) s

/-- The state with another bank of a boolean kind. -/
def State.setBitBank (s : State) (k : BitKind) (b : Bank Bool) : State :=
  { s with area := s.area.setBitBank k b }

/-- The state with another bank of a word kind. -/
def State.setWordBank (s : State) (k : WordKind) (b : Bank Word) : State :=
  { s with area := s.area.setWordBank k b }

/-- End a local operation that gives a new bank of a boolean kind: store it and answer OK, or fail with its status. -/
def storeBits (k : BitKind) (r : Except LocalError (Bank Bool)) (s : State) : Result :=
  match r with
  | .error e => fail e s
  | .ok b => succeed .none (s.setBitBank k b)

/-- End a local operation that gives a new bank of a word kind. -/
def storeWords (k : WordKind) (r : Except LocalError (Bank Word)) (s : State) : Result :=
  match r with
  | .error e => fail e s
  | .ok b => succeed .none (s.setWordBank k b)

end Sys2Proof.Machine
end

