-- ==== Sys2Proof/Machine/Arbiter.lean ====
section
/-! DEFINITION. The ports around a transaction: choosing an outstanding transaction (spec/10_state.md R34), handing its response
back (R28, R35), and what a host may do between two steps (R32 to R35, R164, R170). -/

namespace Sys2Proof.Machine

/-- Which outstanding transaction is performed at turn `turn`. With several the choice is free (R34, R51; log 2). -/
def choose (turn : Nat) : List (Nat × Transaction) → Option (Nat × Transaction)
  | [] => none
  | [e] => some e
  | e :: e' :: rest => some ((e :: e' :: rest).getD (Config.arbiter turn % (rest.length + 2)) e)

/-- The state in which requester `r`'s transaction is being performed: it is no longer outstanding, and the response buffer is
empty (R28, R34). -/
def State.take (s : State) (r : Nat) : State :=
  { s with pending := removeKey s.pending r, response := none, turns := s.turns + 1 }

/-- Hand the response in the buffer back to requester `r`; the buffer is then discarded (R28, R35). -/
def State.deliver (s : State) (r : Nat) : State :=
  match s.response with
  | none => s
  | some x => { s with response := none, delivered := placeKey s.delivered r x }

/-! ## Host actions, between two steps -/

/-- Requester `r` presents a transaction (R32, R33). Refused when `r` is not below N_REQ (R6; log 4, log 7), and when its previous
transaction has no answer yet (R34, R170). That it is refused too while that answer is unread is the model's choice (DESIGN CHOICE,
log 5, log 7). -/
def State.present (s : State) (r : Nat) (t : Transaction) : Result :=
  if Config.nReq ≤ r then .refused .noSuchRequester
  else if (lookupKey s.pending r).isSome ∨ (lookupKey s.delivered r).isSome then .refused .transactionOutstanding
  else .next { s with pending := placeKey s.pending r t }

/-- Requester `r` reads the response handed back to it, which then goes away (R28, R35). -/
def State.takeResponse (s : State) (r : Nat) : Option Response × State :=
  (lookupKey s.delivered r, { s with delivered := removeKey s.delivered r })

/-- "A restart is a reset" (R164): every register, every outstanding transaction and every answer is lost (R30, R162). The spec does
not say whether one may come while transactions are outstanding; that it may come in every state, and that they and the unread answers
then go away without a response, is the model's choice (DESIGN CHOICE, log 32). The model's own two counters go on, so that the
values of Random and the order of service after a restart are free anew and repeat nothing (DESIGN CHOICE, log 2, log 3, log 32). -/
def State.restart (s : State) : State := { State.reset with draws := s.draws, turns := s.turns }

end Sys2Proof.Machine
end

