-- ==== Sys2Proof/Machine/BitUtilities.lean ====
section
/-! DEFINITION. The bit and byte utilities of port L (spec/41_bit_utilities.md): pure functions, no bank is read or written
(R33, R108). -/

namespace Sys2Proof.Machine

/-- L.PACK_BITS (R97). -/
def execLPackBits (bits : List Bool) (s : State) : Result := succeed (.bytes (packBits bits)) s

/-- L.UNPACK_BITS; a data operand shorter than ceil8(n) bytes is refused (R98, D21). -/
def execLUnpackBits (count : Word) (data : List Byte) (s : State) : Result :=
  if data.length < bytesNeeded count.toNat then .refused .unpackDataTooShort
  else succeed (.bits (unpackBits data count.toNat)) s

/-- L.BYTES_NEEDED (R99). -/
def execLBytesNeeded (count : Word) (s : State) : Result := succeed (.number (bytesNeeded count.toNat)) s

/-- L.U16_FROM_BE (R100). -/
def execLU16FromBe (hi lo : Byte) (s : State) : Result := succeed (.word (u16FromBe hi lo)) s

/-- L.U16_TO_BE (R101). -/
def execLU16ToBe (value : Word) (s : State) : Result := succeed (.bytes (u16ToBe value)) s

/-- L.EXCEPTION_PDU (R106). -/
def execLExceptionPdu (fc code : Byte) (s : State) : Result := succeed (.bytes (exceptionPdu fc code)) s

/-- L.FORMAT_ADDRESS (R107, R108). -/
def execLFormatAddress (kind : Kind) (addr : Addr) (s : State) : Result := succeed (.text (formatAddress kind addr)) s

end Sys2Proof.Machine
end

