-- ==== Sys2Proof/Machine/MbapCodec.lean ====
section
/-! DEFINITION. The MBAP header codec of port L, a companion unit (spec/47_mbap_codec.md): no bank is read or written. -/

namespace Sys2Proof.Machine

/-- L.MBAP_PARSE: MalformedHeader on fewer than seven bytes (R135). -/
def execLMbapParse (bytes : List Byte) (s : State) : Result :=
  match mbapParse bytes with
  | none => fail .malformedHeader s
  | some m => succeed (.header m) s

/-- L.MBAP_SERIALIZE (R136). -/
def execLMbapSerialize (header : MbapHeader) (s : State) : Result := succeed (.bytes (mbapSerialize header)) s

/-- L.MBAP_FRAME; the operand is a response PDU of 1 to 253 bytes, another length is refused (R137, R76). -/
def execLMbapFrame (header : MbapHeader) (pdu : List Byte) (s : State) : Result :=
  if pdu.length = 0 ∨ Config.pduMax < pdu.length then .refused .framePduLength
  else succeed (.bytes (mbapFrame header pdu)) s

end Sys2Proof.Machine
end

