-- ==== Sys2Proof/Machine/ReadFunctions.lean ====
section
/-! DEFINITION. The read function codes 0x01 to 0x04 (spec/43_read_functions.md), each with the validation order of
spec/42_pdu_dispatch.md R112. -/

namespace Sys2Proof.Machine

/-- 0x01 and 0x02: steps 2, 3, 6 and 7 of the engine on the bank of a boolean kind (R112, R117, R121, R122). -/
def readBits (fc : Byte) (k : BitKind) (body : FixedBody) (s : State) : Result :=
  match body with
  | .short _ => raise fc .illegalDataValue s
  | .fields start qty _ =>
    if qty.toNat < 1 ∨ Config.qmaxReadBits < qty.toNat then raise fc .illegalDataValue s
    else
      match getRange (rangeMax (.bit k)) (s.area.bitBank k) start qty.toNat with
      | .error _ => raise fc .illegalDataAddress s
      | .ok regs =>
        respond (.pdu (fc :: byteOfNat (bytesNeeded qty.toNat) :: packBits (regs.map Prod.snd))) s

/-- 0x03 and 0x04: steps 2, 3, 6 and 7 of the engine on the bank of a word kind (R112, R117, R123, R124). -/
def readWords (fc : Byte) (k : WordKind) (body : FixedBody) (s : State) : Result :=
  match body with
  | .short _ => raise fc .illegalDataValue s
  | .fields start qty _ =>
    if qty.toNat < 1 ∨ Config.qmaxReadRegs < qty.toNat then raise fc .illegalDataValue s
    else
      match getRange (rangeMax (.word k)) (s.area.wordBank k) start qty.toNat with
      | .error _ => raise fc .illegalDataAddress s
      | .ok regs =>
        respond (.pdu (fc :: byteOfNat (2 * qty.toNat) :: wordsToBytes (regs.map Prod.snd))) s

/-- READ_COILS (R121). -/
def execReadCoils (body : FixedBody) (s : State) : Result := readBits 0x01#8 .coil body s

/-- READ_DISCRETE_INPUTS (R122). -/
def execReadDiscreteInputs (body : FixedBody) (s : State) : Result := readBits 0x02#8 .discreteInput body s

/-- READ_HOLDING_REGISTERS (R123). -/
def execReadHoldingRegisters (body : FixedBody) (s : State) : Result := readWords 0x03#8 .holdingRegister body s

/-- READ_INPUT_REGISTERS (R124). -/
def execReadInputRegisters (body : FixedBody) (s : State) : Result := readWords 0x04#8 .inputRegister body s

end Sys2Proof.Machine
end

