-- ==== Sys2Proof/Machine/RegisterFile.lean ====
section
/-! DEFINITION. The five register-file operations of port L (spec/40_register_file.md). -/

namespace Sys2Proof.Machine

/-- L.INSERT (R81 to R83). -/
def execLInsert (addr : Addr) (reg : KindValue) (s : State) : Result :=
  match reg with
  | .bit k v => storeBits k (insertOne (cap (.bit k)) (s.area.bitBank k) addr v) s
  | .word k v => storeWords k (insertOne (cap (.word k)) (s.area.wordBank k) addr v) s

/-- L.GENERATE: InvalidGenerationPattern, CapacityExceeded, OutOfRange, DuplicateAddress, in that order (R84 to R88). The draws of
Random are used only when the registers are added. -/
def execLGenerate (kind : Kind) (pattern : Pattern) (start : Addr) (count : Word) (s : State) : Result :=
  let s' := { s with draws := drawsAfter pattern count.toNat s.draws }
  match kind with
  | .bit k =>
    match genBit pattern s.draws with
    | none => fail .invalidGenerationPattern s
    | some gen =>
      match generateBank (cap (.bit k)) (s.area.bitBank k) start count.toNat gen with
      | .error e => fail e s
      | .ok b => succeed .none (s'.setBitBank k b)
  | .word k =>
    match generateBank (cap (.word k)) (s.area.wordBank k) start count.toNat
        (genWord pattern count.toNat s.draws) with
    | .error e => fail e s
    | .ok b => succeed .none (s'.setWordBank k b)

/-- L.GET_RANGE (R89 to R91). -/
def execLGetRange (kind : Kind) (start : Addr) (length : Word) (s : State) : Result :=
  match kind with
  | .bit k =>
    match getRange (rangeMax (.bit k)) (s.area.bitBank k) start length.toNat with
    | .error e => fail e s
    | .ok regs => succeed (.registers (regs.map fun r => (r.1, .bit r.2))) s
  | .word k =>
    match getRange (rangeMax (.word k)) (s.area.wordBank k) start length.toNat with
    | .error e => fail e s
    | .ok regs => succeed (.registers (regs.map fun r => (r.1, .word r.2))) s

/-- L.GET_ONE (R92). -/
def execLGetOne (kind : Kind) (addr : Addr) (s : State) : Result :=
  match kind with
  | .bit k =>
    match getOne (s.area.bitBank k) addr with
    | .error e => fail e s
    | .ok v => succeed (.register addr (.bit v)) s
  | .word k =>
    match getOne (s.area.wordBank k) addr with
    | .error e => fail e s
    | .ok v => succeed (.register addr (.word v)) s

/-- L.WRITE_ONE: every kind is writable on port L (R93, R94). -/
def execLWriteOne (addr : Addr) (reg : KindValue) (s : State) : Result :=
  match reg with
  | .bit k v => storeBits k (writeOne (s.area.bitBank k) addr v) s
  | .word k v => storeWords k (writeOne (s.area.wordBank k) addr v) s

end Sys2Proof.Machine
end

