-- ==== Sys2Proof/Machine/Reserved.lean ====
section
/-! DEFINITION. The illegal function codes of port P (spec/42_pdu_dispatch.md R115) and the reserved command words of port L
(spec/30_encoding.md R76). -/

namespace Sys2Proof.Machine

/-- ILLEGAL: `[fc | 0x80, 0x01]`, whatever the length and the other bytes, and no state changes (R115, R141). -/
def execIllegal (fc : Byte) (_params : List Byte) (s : State) : Result := raise fc .illegalFunction s

/-- L.RESERVED: "refused (no step, no state change, the run is marked refused)" (R76); the name says which part of R76 holds. -/
def execLReserved (word : CommandWord) (_operand : Operand) (_s : State) : Result :=
  match localOpOf (fieldsOf word).op with
  | none => .refused .reservedOperation
  | some _ => if (fieldsOf word).zero = 0#6 then .refused .unreadFieldNotZero else .refused .zeroFieldNotZero

end Sys2Proof.Machine
end

