-- ==== Sys2Proof/Machine/WriteFunctions.lean ====
section
/-! DEFINITION. The write function codes 0x05, 0x06, 0x0F and 0x10 (spec/44_write_functions.md), each with the validation order of
spec/42_pdu_dispatch.md R112. -/

namespace Sys2Proof.Machine

/-- The coil value field: 0xFF00 is true, 0x0000 is false, every other value is illegal (R64, R113). -/
def coilValue (v : Word) : Option Bool :=
  if v = 0xFF00#16 then some true else if v = 0x0000#16 then some false else none

/-- The response `fc` and two `u16` fields: RS-ECHO and RS-MULTI (R61). -/
def echoPdu (fc : Byte) (a b : Word) : Response := .pdu (fc :: (u16ToBe a ++ u16ToBe b))

/-- WRITE_SINGLE_COIL: steps 2, 5, 6, 7 (R112, R113, R117, R127). -/
def execWriteSingleCoil (body : FixedBody) (s : State) : Result :=
  match body with
  | .short _ => raise 0x05#8 .illegalDataValue s
  | .fields address value _ =>
    match coilValue value with
    | none => raise 0x05#8 .illegalDataValue s
    | some v =>
      match writeOne s.area.coils address v with
      | .error _ => raise 0x05#8 .illegalDataAddress s
      | .ok b => respond (echoPdu 0x05#8 address value) (s.setBitBank .coil b)

/-- WRITE_SINGLE_REGISTER: steps 2, 6, 7; there is no value check (R112, R117, R128). -/
def execWriteSingleRegister (body : FixedBody) (s : State) : Result :=
  match body with
  | .short _ => raise 0x06#8 .illegalDataValue s
  | .fields address value _ =>
    match writeOne s.area.holdingRegisters address value with
    | .error _ => raise 0x06#8 .illegalDataAddress s
    | .ok b => respond (echoPdu 0x06#8 address value) (s.setWordBank .holdingRegister b)

/-- WRITE_MULTIPLE_COILS: steps 2, 3, 4, 6, 7 (R112, R114, R116, R117, R129). -/
def execWriteMultipleCoils (body : MultiBody) (s : State) : Result :=
  match body with
  | .short _ => raise 0x0F#8 .illegalDataValue s
  | .fields start qty byteCount data =>
    if qty.toNat < 1 ∨ Config.qmaxWriteCoils < qty.toNat then raise 0x0F#8 .illegalDataValue s
    else if byteCount.toNat ≠ bytesNeeded qty.toNat ∨ data.length < byteCount.toNat then
      raise 0x0F#8 .illegalDataValue s
    else
      match getRange (rangeMax (.bit .coil)) s.area.coils start qty.toNat with
      | .error _ => raise 0x0F#8 .illegalDataAddress s
      | .ok _ =>
        respond (echoPdu 0x0F#8 start qty)
          (s.setBitBank .coil (writeRange s.area.coils start.toNat
            (unpackBits (data.take byteCount.toNat) qty.toNat)))

/-- WRITE_MULTIPLE_REGISTERS: steps 2, 3, 4, 6, 7 (R112, R114, R116, R117, R130). -/
def execWriteMultipleRegisters (body : MultiBody) (s : State) : Result :=
  match body with
  | .short _ => raise 0x10#8 .illegalDataValue s
  | .fields start qty byteCount data =>
    if qty.toNat < 1 ∨ Config.qmaxWriteRegs < qty.toNat then raise 0x10#8 .illegalDataValue s
    else if byteCount.toNat ≠ 2 * qty.toNat ∨ data.length < byteCount.toNat then
      raise 0x10#8 .illegalDataValue s
    else
      match getRange (rangeMax (.word .holdingRegister)) s.area.holdingRegisters start qty.toNat with
      | .error _ => raise 0x10#8 .illegalDataAddress s
      | .ok _ =>
        respond (echoPdu 0x10#8 start qty)
          (s.setWordBank .holdingRegister (writeRange s.area.holdingRegisters start.toNat
            (dataWords (data.take byteCount.toNat) qty.toNat)))

end Sys2Proof.Machine
end

