-- ==== Sys2Proof/Machine/Dispatch.lean ====
section
/-! DEFINITION. One arm per constructor of Instr, one meaning per arm: what an instruction does to the state, its answer left in the
response buffer. -/

namespace Sys2Proof.Machine

/-- The effect of one transaction's instruction (R44: one indivisible step on the banks). -/
def exec (i : Instr) (s : State) : Host.Outcome State Fault Refusal :=
  match i with
  | .readCoils b => Sys2Proof.Machine.execReadCoils b s
  | .readDiscreteInputs b => Sys2Proof.Machine.execReadDiscreteInputs b s
  | .readHoldingRegisters b => Sys2Proof.Machine.execReadHoldingRegisters b s
  | .readInputRegisters b => Sys2Proof.Machine.execReadInputRegisters b s
  | .writeSingleCoil b => Sys2Proof.Machine.execWriteSingleCoil b s
  | .writeSingleRegister b => Sys2Proof.Machine.execWriteSingleRegister b s
  | .writeMultipleCoils b => Sys2Proof.Machine.execWriteMultipleCoils b s
  | .writeMultipleRegisters b => Sys2Proof.Machine.execWriteMultipleRegisters b s
  | .illegal fc params => Sys2Proof.Machine.execIllegal fc params s
  | .lInsert a v => Sys2Proof.Machine.execLInsert a v s
  | .lGenerate k p a n => Sys2Proof.Machine.execLGenerate k p a n s
  | .lGetRange k a n => Sys2Proof.Machine.execLGetRange k a n s
  | .lGetOne k a => Sys2Proof.Machine.execLGetOne k a s
  | .lWriteOne a v => Sys2Proof.Machine.execLWriteOne a v s
  | .lPackBits b => Sys2Proof.Machine.execLPackBits b s
  | .lUnpackBits n d => Sys2Proof.Machine.execLUnpackBits n d s
  | .lBytesNeeded n => Sys2Proof.Machine.execLBytesNeeded n s
  | .lU16FromBe hi lo => Sys2Proof.Machine.execLU16FromBe hi lo s
  | .lU16ToBe v => Sys2Proof.Machine.execLU16ToBe v s
  | .lExceptionPdu fc c => Sys2Proof.Machine.execLExceptionPdu fc c s
  | .lFormatAddress k a => Sys2Proof.Machine.execLFormatAddress k a s
  | .lMbapParse b => Sys2Proof.Machine.execLMbapParse b s
  | .lMbapSerialize m => Sys2Proof.Machine.execLMbapSerialize m s
  | .lMbapFrame m r => Sys2Proof.Machine.execLMbapFrame m r s
  | .lReserved w x => Sys2Proof.Machine.execLReserved w x s

end Sys2Proof.Machine
end

