-- ==== Sys2Proof/Machine/Step.lean ====
section
/-! DEFINITION. One step of the block: it performs one outstanding transaction, whole (spec/20_memory.md R44, R49), and hands its
response back to the requester (spec/10_state.md R34, R35). -/

namespace Sys2Proof.Machine

/-- Perform requester `r`'s transaction `t` and hand its response back. -/
def perform (r : Nat) (t : Transaction) (s : State) : Host.Outcome State Fault Refusal :=
  match decode t with
  | .error e => .refused (.rejected e)
  | .ok i =>
    match exec i (s.take r) with
    | .next s' => .next (s'.deliver r)
    | .fault f => .fault f
    | .refused x => .refused x

/-- One step. With no transaction outstanding the block does nothing (R147). -/
def step (s : State) : Host.Outcome State Fault Refusal :=
  match choose s.turns s.pending with
  | none => .next s
  | some (r, t) => perform r t s

/-- `s` with the transaction of the table's bits as the only outstanding one, presented by requester 0 (log 7, log 8). -/
def State.withFetchWord (s : State) (nbits w : Nat) : State :=
  { s with pending := [(0, tableTransaction nbits w)] }

end Sys2Proof.Machine
end

