-- ==== Sys2Proof/Machine/Listing.lean ====
section
/-! DEFINITION. The spec's own written form of transactions and its disassembler (spec/30_encoding.md R77, R78, D20). Nothing in
the machine depends on it. What R77 and R78 leave open of a line is the model's choice (DESIGN CHOICE, log 27). -/

namespace Sys2Proof.Machine

/-- One hexadecimal digit. -/
def hexDigit (n : Nat) : Char := (['0', '1', '2', '3', '4', '5', '6', '7', '8', '9', 'A', 'B', 'C', 'D', 'E', 'F']).getD (n % 16) '0'

/-- The low `digits` hexadecimal digits of `n`. -/
def hexText : Nat → Nat → String
  | 0, _ => ""
  | digits + 1, n => hexText digits (n / 16) ++ String.singleton (hexDigit n)

/-- A 16-bit operand as `0x<hhhh>` (R78 "start=0x0001"). That an address or a value of a local command is hexadecimal too is the
model's choice (log 27). -/
def wordText (w : Word) : String := "0x" ++ hexText 4 w.toNat

/-- An 8-bit operand as `0x<hh>` (R78). -/
def byteText (b : Byte) : String := "0x" ++ hexText 2 b.toNat

/-- Texts with a separator between them. -/
def joinText (sep : String) : List String → String
  | [] => ""
  | [t] => t
  | t :: t' :: rest => t ++ sep ++ joinText sep (t' :: rest)

/-- Bytes in hexadecimal, first byte first, a space between two (R7, R77). -/
def bytesText (bs : List Byte) : String := joinText " " (bs.map fun b => hexText 2 b.toNat)

/-- Booleans are written 0 and 1 (R77). -/
def bitText (b : Bool) : String := if b then "1" else "0"

/-- The operand names of the kinds (R77). -/
def kindText : Kind → String
  | .bit .coil => "COIL"
  | .bit .discreteInput => "DI"
  | .word .inputRegister => "IR"
  | .word .holdingRegister => "HR"

/-- The operand names of the patterns (R77). -/
def patternText : Pattern → String
  | .zeros => "ZEROS"
  | .ones => "ONES"
  | .random => "RANDOM"
  | .incremental => "INC"
  | .decremental => "DEC"
  | .max => "MAX"

/-- The value operand of insert and write_one. -/
def valueText : KindValue → String
  | .bit _ b => bitText b
  | .word _ w => wordText w

/-- A header operand, `tid, pid, len, uid` between braces (R77). -/
def headerText (m : MbapHeader) : String :=
  String.singleton (Char.ofNat 123) ++ joinText ", " [wordText m.tid, wordText m.pid, wordText m.len, byteText m.uid] ++
    String.singleton (Char.ofNat 125)

/-- A byte operand, between brackets (R77). -/
def bracketText (t : String) : String := "[" ++ t ++ "]"

/-- A request of port P, `P <bytes>` (R77). -/
def requestText (req : List Byte) : String := "P " ++ bytesText req

/-- The mnemonic of each row of spec/opcode_table.json (R65, R72). -/
def mnemonic : Instr → String
  | .readCoils _ => "READ_COILS"
  | .readDiscreteInputs _ => "READ_DISCRETE_INPUTS"
  | .readHoldingRegisters _ => "READ_HOLDING_REGISTERS"
  | .readInputRegisters _ => "READ_INPUT_REGISTERS"
  | .writeSingleCoil _ => "WRITE_SINGLE_COIL"
  | .writeSingleRegister _ => "WRITE_SINGLE_REGISTER"
  | .writeMultipleCoils _ => "WRITE_MULTIPLE_COILS"
  | .writeMultipleRegisters _ => "WRITE_MULTIPLE_REGISTERS"
  | .illegal _ _ => "ILLEGAL"
  | .lInsert _ _ => "L.INSERT"
  | .lGenerate _ _ _ _ => "L.GENERATE"
  | .lGetRange _ _ _ => "L.GET_RANGE"
  | .lGetOne _ _ => "L.GET_ONE"
  | .lWriteOne _ _ => "L.WRITE_ONE"
  | .lPackBits _ => "L.PACK_BITS"
  | .lUnpackBits _ _ => "L.UNPACK_BITS"
  | .lBytesNeeded _ => "L.BYTES_NEEDED"
  | .lU16FromBe _ _ => "L.U16_FROM_BE"
  | .lU16ToBe _ => "L.U16_TO_BE"
  | .lExceptionPdu _ _ => "L.EXCEPTION_PDU"
  | .lFormatAddress _ _ => "L.FORMAT_ADDRESS"
  | .lMbapParse _ => "L.MBAP_PARSE"
  | .lMbapSerialize _ => "L.MBAP_SERIALIZE"
  | .lMbapFrame _ _ => "L.MBAP_FRAME"
  | .lReserved _ _ => "L.RESERVED"

/-- A quantity, in decimal (R78 "qty=8"). That a count of a local command is decimal too is the model's choice (log 27). -/
def countText (w : Word) : String := Nat.repr w.toNat

/-- The decoded fields of a request with a 5-byte header: the names of its two fields and how the second is written (R78). R78 does
not say how a request shorter than its header is printed: the model writes `short=` and the bytes it has after the function code; and
it prints no bytes beyond the fields (DESIGN CHOICE, log 27). -/
def fixedText (first second : String) (value : Word → String) : FixedBody → String
  | .short bytes => "short=" ++ bytesText bytes
  | .fields x y _ => first ++ "=" ++ wordText x ++ " " ++ second ++ "=" ++ value y

/-- The decoded fields of a request with a 6-byte header (R78). R78 shows no such line: a short one as in `fixedText`, byte_count in
decimal, and every byte after it as `data=` and its bytes, are the model's choice (DESIGN CHOICE, log 27). -/
def multiText : MultiBody → String
  | .short bytes => "short=" ++ bytesText bytes
  | .fields x y n data =>
    "start=" ++ wordText x ++ " qty=" ++ countText y ++ " byte_count=" ++ Nat.repr n.toNat ++ " data=" ++ bytesText data

/-- The fields or operands that follow the mnemonic: decoded fields of a request (R78), operands in field order (R77). R77 and R78 give
no line for L.RESERVED: the model writes its whole word in hexadecimal and no operand (DESIGN CHOICE, log 27). -/
def operandText : Instr → String
  | .readCoils b => fixedText "start" "qty" countText b
  | .readDiscreteInputs b => fixedText "start" "qty" countText b
  | .readHoldingRegisters b => fixedText "start" "qty" countText b
  | .readInputRegisters b => fixedText "start" "qty" countText b
  | .writeSingleCoil b => fixedText "address" "value" wordText b
  | .writeSingleRegister b => fixedText "address" "value" wordText b
  | .writeMultipleCoils b => multiText b
  | .writeMultipleRegisters b => multiText b
  | .illegal fc _ => "fc=" ++ byteText fc
  | .lInsert a v => joinText ", " [kindText v.kind, wordText a, valueText v]
  | .lGenerate k p a n => joinText ", " [kindText k, wordText a, countText n, patternText p]
  | .lGetRange k a n => joinText ", " [kindText k, wordText a, countText n]
  | .lGetOne k a => joinText ", " [kindText k, wordText a]
  | .lWriteOne a v => joinText ", " [kindText v.kind, wordText a, valueText v]
  | .lPackBits b => bracketText (joinText ", " (b.map bitText))
  | .lUnpackBits n d => joinText ", " [countText n, bracketText (bytesText d)]
  | .lBytesNeeded n => countText n
  | .lU16FromBe hi lo => bracketText (bytesText [hi, lo])
  | .lU16ToBe v => wordText v
  | .lExceptionPdu fc c => joinText ", " [byteText fc, byteText c]
  | .lFormatAddress k a => joinText ", " [kindText k, wordText a]
  | .lMbapParse b => bracketText (bytesText b)
  | .lMbapSerialize m => headerText m
  | .lMbapFrame m r => joinText ", " [headerText m, bracketText (bytesText r)]
  | .lReserved w _ => "0x" ++ hexText 16 w.toNat

/-- The disassembler: "the mnemonic … followed by its decoded fields" (R78). -/
def disassemble (i : Instr) : String := mnemonic i ++ " " ++ operandText i

/-- One transaction as a line of a program: a request of port P by its bytes, a local command by its mnemonic and operands (R77);
nothing for a transaction the decoder rejects. -/
def programLine : Transaction → Option String
  | .request req => some (requestText req)
  | .command w x =>
    match decodeCommand w x with
    | .error _ => none
    | .ok i => some (disassemble i)

end Sys2Proof.Machine
end

