-- ==== Sys2Proof/Safety.lean ====
section
/-! DEFINITION. The terms in which statements about the block are made: the invariant of its state (spec/40_register_file.md R95,
spec/10_state.md R34), the validation order read from the raw bytes (spec/42_pdu_dispatch.md R112), which transactions the block
performs, and the moves of a whole system of requesters (spec/20_memory.md R49 to R51). -/

namespace Sys2Proof.Machine

/-- What holds in every state between two transactions. -/
structure Inv (s : State) : Prop where
  /-- Each bank is strictly ascending, holds each address at most once, and holds at most CAP(K) registers (R17 to R19, R95). -/
  area_wf : Memory.wf s.area
  /-- Per requester none or one outstanding transaction (R31, R34). -/
  pending_ascending : ascending s.pending
  /-- Only the N_REQ requesters present transactions (R6). -/
  pending_requesters : ∀ e ∈ s.pending, e.1 < Config.nReq
  /-- The response buffer is working state of one transaction (R28). -/
  response_empty : s.response = none
  /-- Per requester none or one response handed back (R35). -/
  delivered_ascending : ascending s.delivered
  delivered_requesters : ∀ e ∈ s.delivered, e.1 < Config.nReq
  /-- A requester presents its next transaction only after the answer of its last one (R34, R170), and after it has read that answer
  (DESIGN CHOICE, log 5, log 7). -/
  one_outstanding : ∀ e ∈ s.pending, lookupKey s.delivered e.1 = none

/-- `[start, start + len - 1]` of kind `K` is fully present (R13, R47, R112). -/
def fullyPresent (d : DataArea) (k : Kind) (start len : Nat) : Prop :=
  ∀ j < len, (d.reg k (start + j)).isSome

/-- The state in which a transaction has answered `r` and changed nothing else. -/
def State.answer (s : State) (r : Response) : State := { s with response := some r }

/-- The kind of register that an instruction acts on, if it acts on any (R22, R72). -/
def actsOn : Instr → Option Kind
  | .readCoils _ | .writeSingleCoil _ | .writeMultipleCoils _ => some (.bit .coil)
  | .readDiscreteInputs _ => some (.bit .discreteInput)
  | .readHoldingRegisters _ | .writeSingleRegister _ | .writeMultipleRegisters _ => some (.word .holdingRegister)
  | .readInputRegisters _ => some (.word .inputRegister)
  | .lInsert _ v | .lWriteOne _ v => some v.kind
  | .lGenerate k _ _ _ | .lGetRange k _ _ | .lGetOne k _ => some k
  | .illegal _ _ | .lPackBits _ | .lUnpackBits _ _ | .lBytesNeeded _ | .lU16FromBe _ _ | .lU16ToBe _ => none
  | .lExceptionPdu _ _ | .lFormatAddress _ _ | .lMbapParse _ | .lMbapSerialize _ | .lMbapFrame _ _ => none
  | .lReserved _ _ => none

/-- Two Data Areas hold the same bank of kind `K`. -/
def sameBank (d d' : DataArea) : Kind → Prop
  | .bit k => d.bitBank k = d'.bitBank k
  | .word k => d.wordBank k = d'.wordBank k

/-- The instructions that may add registers: insert and generate (R20). -/
def populates : Instr → Bool
  | .lInsert _ _ | .lGenerate _ _ _ _ => true
  | .readCoils _ | .readDiscreteInputs _ | .readHoldingRegisters _ | .readInputRegisters _ => false
  | .writeSingleCoil _ | .writeSingleRegister _ | .writeMultipleCoils _ | .writeMultipleRegisters _ => false
  | .illegal _ _ | .lGetRange _ _ _ | .lGetOne _ _ | .lWriteOne _ _ => false
  | .lPackBits _ | .lUnpackBits _ _ | .lBytesNeeded _ | .lU16FromBe _ _ | .lU16ToBe _ => false
  | .lExceptionPdu _ _ | .lFormatAddress _ _ | .lMbapParse _ | .lMbapSerialize _ | .lMbapFrame _ _ => false
  | .lReserved _ _ => false

/-- The instructions that may change the value of a register: the writes of both ports (R20, R22). -/
def writes : Instr → Bool
  | .writeSingleCoil _ | .writeSingleRegister _ | .writeMultipleCoils _ | .writeMultipleRegisters _ => true
  | .lWriteOne _ _ => true
  | .readCoils _ | .readDiscreteInputs _ | .readHoldingRegisters _ | .readInputRegisters _ => false
  | .illegal _ _ | .lInsert _ _ | .lGenerate _ _ _ _ | .lGetRange _ _ _ | .lGetOne _ _ => false
  | .lPackBits _ | .lUnpackBits _ _ | .lBytesNeeded _ | .lU16FromBe _ _ | .lU16ToBe _ => false
  | .lExceptionPdu _ _ | .lFormatAddress _ _ | .lMbapParse _ | .lMbapSerialize _ | .lMbapFrame _ _ => false
  | .lReserved _ _ => false

/-- The table of R85: the value of register `i` of `count` generated ones. Nothing is said for Random ("draw"), nor for a pattern
that does not apply to the kind. -/
def generatedValue : Kind → Pattern → Nat → Nat → Option Value
  | .bit _, .zeros, _, _ => some (.bit false)
  | .bit _, .ones, _, _ => some (.bit true)
  | .bit _, _, _, _ => none
  | .word _, .zeros, _, _ => some (.word 0)
  | .word _, .ones, _, _ => some (.word 1)
  | .word _, .random, _, _ => none
  | .word _, .incremental, i, _ => some (.word (BitVec.ofNat 16 i))
  | .word _, .decremental, i, count => some (.word (BitVec.ofNat 16 (count - i)))
  | .word _, .max, _, _ => some (.word 0xFFFF)

/-- "Boolean kinds accept `Zeros, Ones, Random`"; "Integer kinds accept all six" (R86). -/
def applicable : Kind → Pattern → Bool
  | .word _, _ => true
  | .bit _, .zeros => true
  | .bit _, .ones => true
  | .bit _, .random => true
  | .bit _, .incremental => false
  | .bit _, .decremental => false
  | .bit _, .max => false

/-- The instructions that the block performs: all but L.RESERVED (R76), UNPACK_BITS with too few bytes (R98) and MBAP_FRAME with a
response PDU that is not 1 to 253 bytes (R137). -/
def performed : Instr → Bool
  | .readCoils _ | .readDiscreteInputs _ | .readHoldingRegisters _ | .readInputRegisters _ => true
  | .writeSingleCoil _ | .writeSingleRegister _ | .writeMultipleCoils _ | .writeMultipleRegisters _ => true
  | .illegal _ _ => true
  | .lInsert _ _ | .lGenerate _ _ _ _ | .lGetRange _ _ _ | .lGetOne _ _ | .lWriteOne _ _ => true
  | .lPackBits _ | .lBytesNeeded _ | .lU16FromBe _ _ | .lU16ToBe _ | .lExceptionPdu _ _ | .lFormatAddress _ _ => true
  | .lMbapParse _ | .lMbapSerialize _ => true
  | .lUnpackBits n d => bytesNeeded n.toNat ≤ d.length
  | .lMbapFrame _ r => 1 ≤ r.length && decide (r.length ≤ Config.pduMax)
  | .lReserved _ _ => false

/-- The transactions that the block performs ("admitted", R36, R110). -/
def admitted (t : Transaction) : Bool :=
  match decode t with
  | .error _ => false
  | .ok i => performed i

/-! ## What is refused, from the fields of a command word -/

/-- R76 on the word: op 0xF; a zero field that is not 0; a reserved kind, pattern or boolean value (R73, R74) on an operation that
reads the field; a bit set in a field the operation does not read (column "fields read" of R72). -/
def refusedFields (f : LocalFields) : Prop :=
  f.op = 0xF ∨ f.zero ≠ 0 ∨
  (f.op ∈ [0x0#4, 0x1#4, 0x2#4, 0x3#4, 0x4#4, 0xB#4] ∧ f.kind ∈ [2#3, 5#3, 6#3, 7#3]) ∨
  (f.op = 0x1 ∧ f.pattern ∈ [6#3, 7#3]) ∨
  (f.op ∈ [0x0#4, 0x4#4] ∧ f.kind ∈ [0#3, 1#3] ∧ f.value ≠ 0x0000 ∧ f.value ≠ 0x0001) ∨
  (f.op ∉ [0x0#4, 0x1#4, 0x2#4, 0x3#4, 0x4#4, 0xB#4] ∧ (f.kind ≠ 0 ∨ f.addr ≠ 0)) ∨
  (f.op ≠ 0x1 ∧ f.pattern ≠ 0) ∨
  (f.op ∉ [0x1#4, 0x2#4, 0x6#4, 0x7#4] ∧ f.count ≠ 0) ∨
  (f.op ∉ [0x0#4, 0x4#4, 0x9#4, 0xA#4] ∧ f.value ≠ 0)

/-- R76 on the data operand: not of the shape of column "data operand" of R72, fewer than ceil8(count) bytes for UNPACK_BITS (R98), or
a response PDU that is not 1 to 253 bytes for MBAP_FRAME (R137; log 19). -/
def refusedOperand (f : LocalFields) (x : Operand) : Prop :=
  (f.op ∈ [0x0#4, 0x1#4, 0x2#4, 0x3#4, 0x4#4, 0x7#4, 0x9#4, 0xA#4, 0xB#4] ∧ x ≠ .absent) ∨
  (f.op = 0x5 ∧ ∀ b, x ≠ .bits b) ∨
  (f.op = 0x6 ∧ ∀ d, x = .bytes d → d.length < (f.count.toNat + 7) / 8) ∨
  (f.op = 0x8 ∧ ∀ hi lo, x ≠ .bytes [hi, lo]) ∨
  (f.op = 0xC ∧ ∀ b, x ≠ .bytes b) ∨
  (f.op = 0xD ∧ ∀ m, x ≠ .header m) ∨
  (f.op = 0xE ∧ ∀ m r, x = .headerAndPdu m r → r.length = 0 ∨ 253 < r.length)

/-! ## The validation order, from the raw bytes of a request -/

/-- Byte `i` of a request. -/
def reqByte (req : List Byte) (i : Nat) : Nat := (req.getD i 0#8).toNat

/-- The big-endian field at offsets `i`, `i + 1` of a request, as a natural number (R63). -/
def reqField (req : List Byte) (i : Nat) : Nat := reqByte req i * 256 + reqByte req (i + 1)

/-- The kind that a supported function code acts on (R65, R111). -/
def kindOfCode (fc : Nat) : Kind :=
  if fc = 0x02 then .bit .discreteInput
  else if fc = 0x03 then .word .holdingRegister
  else if fc = 0x04 then .word .inputRegister
  else if fc = 0x06 then .word .holdingRegister
  else if fc = 0x10 then .word .holdingRegister
  else .bit .coil

/-- The quantity bound of a function code; none for 0x05 and 0x06 (R111, step 3 of R112). -/
def quantityBound (fc : Nat) : Option Nat :=
  if fc = 0x01 ∨ fc = 0x02 then some 2000
  else if fc = 0x03 ∨ fc = 0x04 then some 125
  else if fc = 0x0F then some 1968
  else if fc = 0x10 then some 123
  else none

/-- Steps 2 to 5 of R112 fail on a request with a supported function code. -/
def valueRejected (req : List Byte) : Prop :=
  let n := req.length
  let fc := reqByte req 0
  let q := reqField req 3
  let bc := reqByte req 5
  n < (if fc = 0x0F ∨ fc = 0x10 then 6 else 5) ∨
  (∃ m, quantityBound fc = some m ∧ ¬ (1 ≤ q ∧ q ≤ m)) ∨
  (fc = 0x0F ∧ (bc ≠ (q + 7) / 8 ∨ n - 6 < bc)) ∨
  (fc = 0x10 ∧ (bc ≠ 2 * q ∨ n - 6 < bc)) ∨
  (fc = 0x05 ∧ q ≠ 0x0000 ∧ q ≠ 0xFF00)

/-- How many registers step 6 of R112 looks for: one for 0x05 and 0x06, the quantity otherwise. -/
def registersNamed (req : List Byte) : Nat :=
  if reqByte req 0 = 0x05 ∨ reqByte req 0 = 0x06 then 1 else reqField req 3

/-- `Verdict d req v`: the validation of R112 ends with the exception `v`, or passes (`none`): 0x01 before 0x03 before 0x02
(R118, R148). -/
inductive Verdict (d : DataArea) (req : List Byte) : Option ExceptionCode → Prop where
  /-- Step 1. -/
  | function : req.getD 0 0#8 ∉ supportedCodes → Verdict d req (some .illegalFunction)
  /-- Steps 2 to 5. -/
  | value : req.getD 0 0#8 ∈ supportedCodes → valueRejected req → Verdict d req (some .illegalDataValue)
  /-- Step 6. -/
  | address : req.getD 0 0#8 ∈ supportedCodes → ¬ valueRejected req →
      ¬ fullyPresent d (kindOfCode (reqByte req 0)) (reqField req 1) (registersNamed req) →
      Verdict d req (some .illegalDataAddress)
  /-- Every check passed; step 7 follows. -/
  | normal : req.getD 0 0#8 ∈ supportedCodes → ¬ valueRejected req →
      fullyPresent d (kindOfCode (reqByte req 0)) (reqField req 1) (registersNamed req) → Verdict d req none

/-! ## The moves of the system -/

/-- One move: the block performs a transaction, or a requester presents one, reads its response, or does nothing. Any interleaving
of moves may happen (R51). A restart is no move: the moves are those "while the block runs" (R20). -/
inductive Move (s : State) : State → Prop where
  | block (s' : State) : step s = .next s' → Move s s'
  | present (r : Nat) (t : Transaction) (s' : State) : s.present r t = .next s' → Move s s'
  | take (r : Nat) : Move s (s.takeResponse r).2

/-- Weak fairness of the arbiter along an infinite run (D14, R36): a transaction that stays outstanding is eventually the one the
block performs. An assumption that liveness statements about infinite runs would carry; none of the model's definitions does. -/
def WeaklyFair (run : Nat → State) : Prop :=
  ∀ n r, (∀ m, n ≤ m → (lookupKey (run m).pending r).isSome) →
    ∃ m t, n ≤ m ∧ choose (run m).turns (run m).pending = some (r, t) ∧ step (run m) = .next (run (m + 1))

end Sys2Proof.Machine
end

