-- ==== Sys2Proof/Certificates/Slice0/Obligations.lean ====
section
/-! DEFINITION. The statements about the block, for the provers. Each docstring names the rule of spec/ it formalises; a clause that
rests on a decision the spec marks as its own (D<n>) or on a choice of the model (log <n>) says so. `s.answer r` is the state `s` with
the answer `r` in the response buffer and nothing else changed. -/

open Sys2Proof Sys2Proof.Machine

/-! ## Encoding -/

/-- R57 to R60, R63, R71 to R74: no bit of an encoding is dropped. Every well-formed instruction is read back from its own words.
The command word of port L is the spec's own encoding (D3 to D5). -/
def Obligations.DecodeUndoesEncode : Prop :=
  ∀ i : Instr, i.wf = true → decode (encode i) = .ok i

/-- The other direction: whatever the decoder reads, its words are exactly those it was read from, trailing bytes and operands
included, and the instruction is well-formed. So two transactions never decode to one instruction (D3). -/
def Obligations.EncodeUndoesDecode : Prop :=
  ∀ (t : Transaction) (i : Instr), decode t = .ok i → encode i = t ∧ i.wf = true

/-- Words written out from the encoding tables of R58 to R60 and R71 to R74 (test vectors WR16, WR3, D1, RF1, RF8, RF21). -/
def Obligations.WrittenOutWordsDecode : Prop :=
  decode (.request [0x01, 0x00, 0x01, 0x00, 0x08]) = .ok (.readCoils (.fields 0x0001 0x0008 [])) ∧
  decode (.request [0x05, 0x00, 0x01, 0x00, 0x00, 0x99]) = .ok (.writeSingleCoil (.fields 0x0001 0x0000 [0x99])) ∧
  decode (.request [0x10, 0x00, 0x01, 0x00, 0x02, 0x04, 0x00, 0x0A, 0x01, 0x02]) =
    .ok (.writeMultipleRegisters (.fields 0x0001 0x0002 0x04 [0x00, 0x0A, 0x01, 0x02])) ∧
  decode (.request [0x00]) = .ok (.illegal 0x00 []) ∧
  decode (.command 0x0800000100001234 .absent) = .ok (.lInsert 0x0001 (.word .holdingRegister 0x1234)) ∧
  decode (.command 0x18C0000A00040000 .absent) = .ok (.lGenerate (.word .holdingRegister) .incremental 0x000A 0x0004) ∧
  decode (.command 0x2000000100080000 .absent) = .ok (.lGetRange (.bit .coil) 0x0001 0x0008)

/-- R65, R66: the function code alone selects the operation, whatever the other bytes of an admitted request; the eight supported
codes select the eight functions and every other code ILLEGAL. R66 is an inference the spec marks as derived. -/
def Obligations.FunctionCodeAloneSelects : Prop :=
  ∀ (fc : Byte) (p : List Byte), p.length ≤ 252 →
    ∃ i, decode (.request (fc :: p)) = .ok i ∧
      mnemonic i =
        if fc = 0x01 then "READ_COILS"
        else if fc = 0x02 then "READ_DISCRETE_INPUTS"
        else if fc = 0x03 then "READ_HOLDING_REGISTERS"
        else if fc = 0x04 then "READ_INPUT_REGISTERS"
        else if fc = 0x05 then "WRITE_SINGLE_COIL"
        else if fc = 0x06 then "WRITE_SINGLE_REGISTER"
        else if fc = 0x0F then "WRITE_MULTIPLE_COILS"
        else if fc = 0x10 then "WRITE_MULTIPLE_REGISTERS"
        else "ILLEGAL"

/-- R110 (D7), R76 (D3 to D5): what is refused, when it is the outstanding transaction, in every state. A request exactly when its
length is 0 or over 253; a local command exactly when a field of its word is refused (op 0xF, a zero field or a field the operation does
not read that is not 0, a reserved kind, pattern or boolean value), or its data operand has not the shape of R72. That a response PDU
of MBAP_FRAME that is not 1 to 253 bytes is of the wrong shape is the model's inference (log 19). -/
def Obligations.InadmissibleTransactionsAreRefused : Prop :=
  ∀ (s : State) (r : Nat) (t : Transaction), s.pending = [(r, t)] →
    (∀ req, t = .request req → ((∃ e, step s = .refused e) ↔ req.length = 0 ∨ 253 < req.length)) ∧
    (∀ w x, t = .command w x →
      ((∃ e, step s = .refused e) ↔ refusedFields (fieldsOf w) ∨ refusedOperand (fieldsOf w) x))

/-! ## One step -/

/-- One step runs the decoded instruction: what the step adds around exec is taking the transaction from its requester, an empty
response buffer, the turn counter of the model (log 2), and handing the response back (R28, R34, R35). -/
def Obligations.StepRunsTheDecodedInstruction : Prop :=
  ∀ (s : State) (r : Nat) (t : Transaction) (i : Instr), s.pending = [(r, t)] → decode t = .ok i →
    step s =
      match exec i { s with pending := [], response := none, turns := s.turns + 1 } with
      | .next u => .next (u.deliver r)
      | .fault f => .fault f
      | .refused e => .refused e

/-- R34, R44, R49, R21: with any number of transactions outstanding, a step performs exactly one of them, whole; the others stay
outstanding, its requester gets its answer, every answer handed back before stays as it was, and the banks are those the one
instruction left. Which one is performed is free (log 2). -/
def Obligations.StepPerformsOneWholeTransaction : Prop :=
  ∀ s s' : State, Inv s → s.pending ≠ [] → step s = .next s' →
    ∃ r t i u x, (r, t) ∈ s.pending ∧ decode t = .ok i ∧ exec i (s.take r) = .next u ∧ u.response = some x ∧
      s'.area = u.area ∧ s'.response = none ∧
      (∀ q, lookupKey s'.pending q = if q = r then none else lookupKey s.pending q) ∧
      (∀ q, lookupKey s'.delivered q = if q = r then some x else lookupKey s.delivered q)

/-- R147: the block "acts only when a requester presents a transaction": with none outstanding a step changes nothing (log 6). -/
def Obligations.IdleBlockStays : Prop :=
  ∀ s : State, s.pending = [] → step s = .next s

/-- Vector CC2 (R44, R49, R51): a two-register write and a two-register read outstanding together. After two steps the reader holds
both old values or both new ones, never one of each, and both registers hold the written value. -/
def Obligations.ConcurrentReadSeesNoPartialWrite : Prop :=
  ∀ (s : State) (old0 old1 new0 new1 : Word),
    s.area.reg (.word .holdingRegister) 0 = some (.word old0) →
    s.area.reg (.word .holdingRegister) 1 = some (.word old1) →
    s.pending =
      [(0, .request ([0x10, 0x00, 0x00, 0x00, 0x02, 0x04] ++ u16ToBe new0 ++ u16ToBe new1)),
       (1, .request [0x03, 0x00, 0x00, 0x00, 0x02])] →
    ∃ t, Host.Core.run Sys2Proof.core 2 s = .next t ∧
      (lookupKey t.delivered 1 = some (.pdu ([0x03, 0x04] ++ u16ToBe old0 ++ u16ToBe old1)) ∨
        lookupKey t.delivered 1 = some (.pdu ([0x03, 0x04] ++ u16ToBe new0 ++ u16ToBe new1))) ∧
      t.area.reg (.word .holdingRegister) 0 = some (.word new0) ∧
      t.area.reg (.word .holdingRegister) 1 = some (.word new1)

/-! ## Invariants -/

/-- R17, R18, R19, R95, R34: strictly ascending banks within their capacities, one outstanding transaction per requester and an empty
response buffer hold after every step from every state in which they hold. -/
def Obligations.StepKeepsInvariant : Prop :=
  ∀ s s' : State, Inv s → step s = .next s' → Inv s'

/-- The same of the host's actions (R34, R170, R164): presenting a transaction, reading a response, a restart. That a response is read
once, and that a restart may come in every state, is the model's choice (log 5, log 32). -/
def Obligations.HostActionsKeepInvariant : Prop :=
  ∀ s : State, Inv s →
    (∀ r t s', s.present r t = .next s' → Inv s') ∧ (∀ r, Inv (s.takeResponse r).2) ∧ Inv s.restart

/-- R30, R162: the state after reset meets the invariant. -/
def Obligations.ResetHasInvariant : Prop := Inv State.reset

/-- R30, R162: after reset every bank is empty, no transaction is in flight and no response is pending. (The lock of R162 is the
indivisibility of a step, log 22.) -/
def Obligations.ResetIsEmpty : Prop :=
  (∀ K n, State.reset.area.reg K n = none) ∧ (∀ K, State.reset.area.size K = 0) ∧
  State.reset.pending = [] ∧ State.reset.response = none ∧ State.reset.delivered = []

/-- R164, R30: a restart is a reset: no register value survives it, and nothing is outstanding, in the buffer or unread after it. That it
may come in every state, whatever is outstanding, is the model's choice (log 32); so is that the model's own counters go on, so that no
free value is used again (log 2, log 3). -/
def Obligations.RestartIsAReset : Prop :=
  ∀ s : State, (∀ K n, s.restart.area.reg K n = none) ∧ (∀ K, s.restart.area.size K = 0) ∧
    s.restart.pending = [] ∧ s.restart.response = none ∧ s.restart.delivered = [] ∧
    s.restart.draws = s.draws ∧ s.restart.turns = s.turns

/-- R20: registers are never removed by any move of the block or of a host; only insert and generate add any; only the writes
change the value of a register that exists; and an instruction that is neither leaves the whole Data Area as it was. -/
def Obligations.RegistersAreNeverRemoved : Prop :=
  (∀ s s' : State, Move s s' → ∀ K n, (s.area.reg K n).isSome → (s'.area.reg K n).isSome) ∧
  (∀ (i : Instr) (s t : State), exec i s = .next t → populates i = false →
    ∀ K n, (t.area.reg K n).isSome = (s.area.reg K n).isSome) ∧
  (∀ (i : Instr) (s t : State), exec i s = .next t → writes i = false →
    ∀ K n v, s.area.reg K n = some v → t.area.reg K n = some v) ∧
  (∀ (i : Instr) (s t : State), exec i s = .next t → populates i = false → writes i = false → t.area = s.area)

/-- R15: "no operation of one kind reads or writes another kind's bank". Two runs of one instruction from states that agree on the
bank of its kind, whatever the other banks hold: the same answer (or the same refusal), the same bank of that kind afterwards,
and every other bank as it was. Both runs see the same draws of Random, since they start from one draw counter (log 3). -/
def Obligations.KindsAreDisjoint : Prop :=
  ∀ (i : Instr) (s : State) (d : DataArea), (∀ K, actsOn i = some K → sameBank s.area d K) →
    match exec i s, exec i { s with area := d } with
    | .next t, .next t' =>
      t.response = t'.response ∧
      (∀ K, actsOn i = some K → sameBank t.area t'.area K) ∧
      (∀ K, actsOn i ≠ some K → sameBank t.area s.area K ∧ sameBank t'.area d K)
    | .refused e, .refused e' => e = e'
    | _, _ => False

/-! ## Completion -/

/-- R36, R35: every instruction that the block performs ends with an answer, from every state, and leaves the ports and the turn
counter to the step around it. -/
def Obligations.EveryPerformedInstructionAnswers : Prop :=
  ∀ (i : Instr) (s : State), performed i = true →
    ∃ t x, exec i s = .next t ∧ t.response = some x ∧
      t.pending = s.pending ∧ t.delivered = s.delivered ∧ t.turns = s.turns

/-- R36, R161: with n admitted transactions outstanding and nothing new presented, n steps serve every one of them, in whatever
order the arbiter chooses. -/
def Obligations.OutstandingTransactionsAreServed : Prop :=
  ∀ s : State, Inv s → (∀ e ∈ s.pending, admitted e.2 = true) →
    ∃ t, Host.Core.run Sys2Proof.core s.pending.length s = .next t ∧ t.pending = [] ∧
      ∀ e ∈ s.pending, ∃ x, lookupKey t.delivered e.1 = some x

/-- R34, R170 (D2): a requester whose transaction is outstanding cannot present another. R6: there are N_REQ requesters; the model numbers
them from 0 (log 4) and refuses any other number (log 7). Otherwise presenting succeeds, and nothing changes but that the requester has
exactly that transaction outstanding. That an answer stays until it is read, and that presenting is refused while one is unread, is the
model's choice (DESIGN CHOICE, log 5 and log 7). -/
def Obligations.OneOutstandingTransactionPerRequester : Prop :=
  ∀ (s : State) (r : Nat) (t : Transaction),
    (Config.nReq ≤ r → s.present r t = .refused .noSuchRequester) ∧
    (r < Config.nReq → ((lookupKey s.pending r).isSome ∨ (lookupKey s.delivered r).isSome) →
      s.present r t = .refused .transactionOutstanding) ∧
    (r < Config.nReq → lookupKey s.pending r = none → lookupKey s.delivered r = none →
      ∃ p, s.present r t = .next { s with pending := p } ∧
        ∀ q, lookupKey p q = if q = r then some t else lookupKey s.pending q)

/-! ## The PDU engine -/

/-- R112, R118, R148: for every admitted request and every Data Area exactly one verdict of the validation order holds, and the block
answers it: the exception PDU of the first failing check with nothing changed, or a normal response that starts with the function
code. The verdict is read from the raw bytes. Ignored trailing bytes and padding bits are D8 and D9, intervals past 0xFFFF D10. -/
def Obligations.EngineFollowsValidationOrder : Prop :=
  ∀ (s : State) (req : List Byte), 1 ≤ req.length → req.length ≤ 253 →
    ∃ i, decode (.request req) = .ok i ∧
      ∃ v, Verdict s.area req v ∧ (∀ v', Verdict s.area req v' → v' = v) ∧
        match v with
        | some c => exec i s = .next (s.answer (.pdu [req.getD 0 0 ||| 0x80, exceptionByte c]))
        | none => ∃ t rest, exec i s = .next t ∧ t.response = some (.pdu (req.getD 0 0 :: rest)) ∧ 2 ≤ rest.length

/-- R115: an unsupported function code gets `[fc | 0x80, 0x01]`, whatever the length and the other bytes, and changes no state; for
fc ≥ 0x80 the first response byte equals fc; and a one-byte request with a supported code is no illegal function but fails step 2. -/
def Obligations.IllegalFunctionCodesAreAnswered : Prop :=
  (∀ (fc : Byte) (p : List Byte) (s : State), fc ∉ [0x01#8, 0x02#8, 0x03#8, 0x04#8, 0x05#8, 0x06#8, 0x0F#8, 0x10#8] →
    p.length ≤ 252 →
    decode (.request (fc :: p)) = .ok (.illegal fc p) ∧
    exec (.illegal fc p) s = .next (s.answer (.pdu [fc ||| 0x80, 0x01]))) ∧
  (∀ fc : Byte, 0x80 ≤ fc.toNat → fc ||| 0x80 = fc) ∧
  (∀ (fc : Byte) (s : State), fc ∈ [0x01#8, 0x02#8, 0x03#8, 0x04#8, 0x05#8, 0x06#8, 0x0F#8, 0x10#8] →
    ∃ i, decode (.request [fc]) = .ok i ∧ exec i s = .next (s.answer (.pdu [fc ||| 0x80, 0x03])))

/-- R121, R122: the two bit reads, for every body: start and quantity are the big-endian fields at offsets 1 and 3 (`u16FromBe`, which
NumericUtilitiesAnswer states). Too short or a quantity outside 1..2000 gives 0x03; otherwise a register of the
interval that is absent, or an interval past 0xFFFF, gives 0x02; otherwise the function code, ceil8(qty) and the values packed by
`packBits` (which PackBitsIsLsbFirst states). Nothing but the answer changes. That trailing bytes change nothing is D8 (log 9). -/
def Obligations.BitReadsAnswerPackedRegisters : Prop :=
  ∀ f ∈ [(0x01#8, BitKind.coil, Instr.readCoils), (0x02#8, BitKind.discreteInput, Instr.readDiscreteInputs)],
    (∀ (s1 s0 q1 q0 : Byte) (trailing : List Byte), trailing.length ≤ 248 →
      decode (.request (f.1 :: s1 :: s0 :: q1 :: q0 :: trailing)) =
        .ok (f.2.2 (.fields (u16FromBe s1 s0) (u16FromBe q1 q0) trailing))) ∧
    (∀ bytes : List Byte, bytes.length < 4 → decode (.request (f.1 :: bytes)) = .ok (f.2.2 (.short bytes))) ∧
    ∀ s : State,
      (∀ bytes, exec (f.2.2 (.short bytes)) s = .next (s.answer (.pdu [f.1 ||| 0x80, 0x03]))) ∧
      (∀ (start qty : Word) (trailing : List Byte),
        (¬ (1 ≤ qty.toNat ∧ qty.toNat ≤ 2000) →
          exec (f.2.2 (.fields start qty trailing)) s = .next (s.answer (.pdu [f.1 ||| 0x80, 0x03]))) ∧
        (1 ≤ qty.toNat ∧ qty.toNat ≤ 2000 → ¬ fullyPresent s.area (.bit f.2.1) start.toNat qty.toNat →
          exec (f.2.2 (.fields start qty trailing)) s = .next (s.answer (.pdu [f.1 ||| 0x80, 0x02]))) ∧
        (1 ≤ qty.toNat ∧ qty.toNat ≤ 2000 → fullyPresent s.area (.bit f.2.1) start.toNat qty.toNat →
          ∃ bits : List Bool, bits.length = qty.toNat ∧
            (∀ j < qty.toNat, s.area.reg (.bit f.2.1) (start.toNat + j) = bits[j]?.map .bit) ∧
            exec (f.2.2 (.fields start qty trailing)) s =
              .next (s.answer (.pdu (f.1 :: BitVec.ofNat 8 ((qty.toNat + 7) / 8) :: packBits bits)))))

/-- R123, R124: the two word reads, for every body, as the bit reads but for quantity 1..125 and `2 × qty` bytes of big-endian
words. That trailing bytes change nothing is D8 (log 9). -/
def Obligations.WordReadsAnswerBigEndianRegisters : Prop :=
  ∀ f ∈ [(0x03#8, WordKind.holdingRegister, Instr.readHoldingRegisters),
      (0x04#8, WordKind.inputRegister, Instr.readInputRegisters)],
    (∀ (s1 s0 q1 q0 : Byte) (trailing : List Byte), trailing.length ≤ 248 →
      decode (.request (f.1 :: s1 :: s0 :: q1 :: q0 :: trailing)) =
        .ok (f.2.2 (.fields (u16FromBe s1 s0) (u16FromBe q1 q0) trailing))) ∧
    (∀ bytes : List Byte, bytes.length < 4 → decode (.request (f.1 :: bytes)) = .ok (f.2.2 (.short bytes))) ∧
    ∀ s : State,
      (∀ bytes, exec (f.2.2 (.short bytes)) s = .next (s.answer (.pdu [f.1 ||| 0x80, 0x03]))) ∧
      (∀ (start qty : Word) (trailing : List Byte),
        (¬ (1 ≤ qty.toNat ∧ qty.toNat ≤ 125) →
          exec (f.2.2 (.fields start qty trailing)) s = .next (s.answer (.pdu [f.1 ||| 0x80, 0x03]))) ∧
        (1 ≤ qty.toNat ∧ qty.toNat ≤ 125 → ¬ fullyPresent s.area (.word f.2.1) start.toNat qty.toNat →
          exec (f.2.2 (.fields start qty trailing)) s = .next (s.answer (.pdu [f.1 ||| 0x80, 0x02]))) ∧
        (1 ≤ qty.toNat ∧ qty.toNat ≤ 125 → fullyPresent s.area (.word f.2.1) start.toNat qty.toNat →
          ∃ data : List Byte, data.length = 2 * qty.toNat ∧
            (∀ j < qty.toNat, ∃ v : Word, s.area.reg (.word f.2.1) (start.toNat + j) = some (.word v) ∧
              data[2 * j]? = some (BitVec.ofNat 8 (v.toNat / 256)) ∧
              data[2 * j + 1]? = some (BitVec.ofNat 8 (v.toNat % 256))) ∧
            exec (f.2.2 (.fields start qty trailing)) s =
              .next (s.answer (.pdu (f.1 :: BitVec.ofNat 8 (2 * qty.toNat) :: data)))))

/-- R127, R113: WRITE_SINGLE_COIL for every body. A bad value gives 0x03 whether or not the coil exists; an absent coil gives 0x02;
otherwise the one coil takes the value, every other register keeps its own, and the answer is the echo. Bytes past the value are
neither checked nor echoed (D8). -/
def Obligations.WriteSingleCoilWritesOneCoil : Prop :=
  ∀ s : State,
    (∀ bytes, exec (.writeSingleCoil (.short bytes)) s = .next (s.answer (.pdu [0x85, 0x03]))) ∧
    (∀ (a v : Word) (trailing : List Byte),
      (v ≠ 0x0000 ∧ v ≠ 0xFF00 →
        exec (.writeSingleCoil (.fields a v trailing)) s = .next (s.answer (.pdu [0x85, 0x03]))) ∧
      (v = 0x0000 ∨ v = 0xFF00 → s.area.reg (.bit .coil) a.toNat = none →
        exec (.writeSingleCoil (.fields a v trailing)) s = .next (s.answer (.pdu [0x85, 0x02]))) ∧
      (v = 0x0000 ∨ v = 0xFF00 → (s.area.reg (.bit .coil) a.toNat).isSome →
        ∃ d, exec (.writeSingleCoil (.fields a v trailing)) s =
            .next ({ s with area := d }.answer (.pdu (0x05 :: (u16ToBe a ++ u16ToBe v)))) ∧
          (∀ K n, d.reg K n =
            if K = .bit .coil ∧ n = a.toNat then some (.bit (decide (v = 0xFF00))) else s.area.reg K n) ∧
          ∀ K, d.size K = s.area.size K))

/-- R128: WRITE_SINGLE_REGISTER for every body: no value check; an input register at the address does not count; otherwise the one
holding register takes the value, every other register keeps its own, and the answer is the echo. Trailing bytes as in D8. -/
def Obligations.WriteSingleRegisterWritesOneRegister : Prop :=
  ∀ s : State,
    (∀ bytes, exec (.writeSingleRegister (.short bytes)) s = .next (s.answer (.pdu [0x86, 0x03]))) ∧
    (∀ (a v : Word) (trailing : List Byte),
      (s.area.reg (.word .holdingRegister) a.toNat = none →
        exec (.writeSingleRegister (.fields a v trailing)) s = .next (s.answer (.pdu [0x86, 0x02]))) ∧
      ((s.area.reg (.word .holdingRegister) a.toNat).isSome →
        ∃ d, exec (.writeSingleRegister (.fields a v trailing)) s =
            .next ({ s with area := d }.answer (.pdu (0x06 :: (u16ToBe a ++ u16ToBe v)))) ∧
          (∀ K n, d.reg K n =
            if K = .word .holdingRegister ∧ n = a.toNat then some (.word v) else s.area.reg K n) ∧
          ∀ K, d.size K = s.area.size K))

/-- R129: WRITE_MULTIPLE_COILS for every body. Coil `start + j` takes bit `j mod 8` of data byte `j div 8`, 0 ≤ j < qty, all in one
transaction; every other register keeps its value. Padding bits and extra bytes are ignored (D8, D9). -/
def Obligations.WriteMultipleCoilsWritesTheRange : Prop :=
  ∀ s : State,
    (∀ bytes, exec (.writeMultipleCoils (.short bytes)) s = .next (s.answer (.pdu [0x8F, 0x03]))) ∧
    (∀ (a q : Word) (bc : Byte) (data : List Byte),
      (¬ (1 ≤ q.toNat ∧ q.toNat ≤ 1968 ∧ bc.toNat = (q.toNat + 7) / 8 ∧ bc.toNat ≤ data.length) →
        exec (.writeMultipleCoils (.fields a q bc data)) s = .next (s.answer (.pdu [0x8F, 0x03]))) ∧
      (1 ≤ q.toNat ∧ q.toNat ≤ 1968 ∧ bc.toNat = (q.toNat + 7) / 8 ∧ bc.toNat ≤ data.length →
        ¬ fullyPresent s.area (.bit .coil) a.toNat q.toNat →
        exec (.writeMultipleCoils (.fields a q bc data)) s = .next (s.answer (.pdu [0x8F, 0x02]))) ∧
      (1 ≤ q.toNat ∧ q.toNat ≤ 1968 ∧ bc.toNat = (q.toNat + 7) / 8 ∧ bc.toNat ≤ data.length →
        fullyPresent s.area (.bit .coil) a.toNat q.toNat →
        ∃ d, exec (.writeMultipleCoils (.fields a q bc data)) s =
            .next ({ s with area := d }.answer (.pdu (0x0F :: (u16ToBe a ++ u16ToBe q)))) ∧
          (∀ j < q.toNat, d.reg (.bit .coil) (a.toNat + j) =
            some (.bit ((data.getD (j / 8) 0).getLsbD (j % 8)))) ∧
          (∀ K n, ¬ (K = .bit .coil ∧ a.toNat ≤ n ∧ n < a.toNat + q.toNat) → d.reg K n = s.area.reg K n) ∧
          ∀ K, d.size K = s.area.size K))

/-- R130: WRITE_MULTIPLE_REGISTERS for every body. Holding register `start + j` takes the big-endian word at data bytes 2j, 2j + 1,
0 ≤ j < qty, all in one transaction; every other register keeps its value. Extra bytes are ignored (D8). -/
def Obligations.WriteMultipleRegistersWritesTheRange : Prop :=
  ∀ s : State,
    (∀ bytes, exec (.writeMultipleRegisters (.short bytes)) s = .next (s.answer (.pdu [0x90, 0x03]))) ∧
    (∀ (a q : Word) (bc : Byte) (data : List Byte),
      (¬ (1 ≤ q.toNat ∧ q.toNat ≤ 123 ∧ bc.toNat = 2 * q.toNat ∧ bc.toNat ≤ data.length) →
        exec (.writeMultipleRegisters (.fields a q bc data)) s = .next (s.answer (.pdu [0x90, 0x03]))) ∧
      (1 ≤ q.toNat ∧ q.toNat ≤ 123 ∧ bc.toNat = 2 * q.toNat ∧ bc.toNat ≤ data.length →
        ¬ fullyPresent s.area (.word .holdingRegister) a.toNat q.toNat →
        exec (.writeMultipleRegisters (.fields a q bc data)) s = .next (s.answer (.pdu [0x90, 0x02]))) ∧
      (1 ≤ q.toNat ∧ q.toNat ≤ 123 ∧ bc.toNat = 2 * q.toNat ∧ bc.toNat ≤ data.length →
        fullyPresent s.area (.word .holdingRegister) a.toNat q.toNat →
        ∃ d, exec (.writeMultipleRegisters (.fields a q bc data)) s =
            .next ({ s with area := d }.answer (.pdu (0x10 :: (u16ToBe a ++ u16ToBe q)))) ∧
          (∀ j < q.toNat, d.reg (.word .holdingRegister) (a.toNat + j) =
            some (.word (BitVec.ofNat 16 ((data.getD (2 * j) 0).toNat * 256 + (data.getD (2 * j + 1) 0).toNat)))) ∧
          (∀ K n, ¬ (K = .word .holdingRegister ∧ a.toNat ≤ n ∧ n < a.toNat + q.toNat) →
            d.reg K n = s.area.reg K n) ∧
          ∀ K, d.size K = s.area.size K))

/-- R70: for every admitted request the answer is a response PDU; either a normal response, whose first byte is the function code and
whose length is 5 (0x05, 0x06, 0x0F, 0x10) or 2 plus its own byte count (0x01 to 0x04), or an exception response of exactly two bytes,
the first the function code with bit 7 set. -/
def Obligations.ResponseLengthFollowsTheOutcome : Prop :=
  ∀ (fc : Byte) (p : List Byte) (i : Instr) (s t : State),
    decode (.request (fc :: p)) = .ok i → exec i s = .next t →
    ∃ resp, t.response = some (.pdu resp) ∧
      ((∃ c, resp = [fc ||| 0x80, c]) ∨
       (resp.getD 0 0 = fc ∧
        ((fc ∈ [0x05#8, 0x06#8, 0x0F#8, 0x10#8] ∧ resp.length = 5) ∨
         (fc ∈ [0x01#8, 0x02#8, 0x03#8, 0x04#8] ∧ resp.length = 2 + (resp.getD 1 0).toNat))))

/-- R62 (derived): "For any request, `len(response) ≤ 253`", in fact at most 252, as the quantity bounds of R5 give. -/
def Obligations.ResponsesFitOnePdu : Prop :=
  ∀ (req : List Byte) (i : Instr) (s t : State), decode (.request req) = .ok i → exec i s = .next t →
    ∃ resp, t.response = some (.pdu resp) ∧ 2 ≤ resp.length ∧ resp.length ≤ 252

/-- R119 (derived), R149: a request answered with an exception response has written no register: the state is as before it but for
the answer. The code is 0x01, 0x02 or 0x03: that 0x04 is never emitted is D15. -/
def Obligations.ExceptionsArePrecise : Prop :=
  ∀ (i : Instr) (s t : State) (b c : Byte), i.isRequest = true → exec i s = .next t →
    t.response = some (.pdu [b, c]) → t = s.answer (.pdu [b, c]) ∧ c ∈ [0x01#8, 0x02#8, 0x03#8]

/-- R133 (derived), R22, R48, R152, R153: no request of port P writes a discrete input or an input register, adds or removes a
register, or reaches an operation of port L. -/
def Obligations.ProtocolWritesOnlyExistingCoilsAndHoldingRegisters : Prop :=
  (∀ (req : List Byte) (i : Instr), decode (.request req) = .ok i → i.isRequest = true) ∧
  (∀ (i : Instr) (s t : State), i.isRequest = true → exec i s = .next t →
    t.area.discreteInputs = s.area.discreteInputs ∧ t.area.inputRegisters = s.area.inputRegisters ∧
    (∀ K n, (t.area.reg K n).isSome = (s.area.reg K n).isSome) ∧ (∀ K, t.area.size K = s.area.size K) ∧
    t.draws = s.draws)

/-- R132: the three write-then-read laws, with anything between the two requests that leaves the values of the registers alone ("when
no other transaction writes the same registers"). A coil written 0xFF00 reads 1 in one byte and 0x0000 reads 0; a register written V
reads MSB(V), LSB(V); coils written together read back as the same boolean sequence. -/
def Obligations.WrittenValuesReadBack : Prop :=
  (∀ (s : State) (a v : Word), v = 0xFF00 ∨ v = 0x0000 → (s.area.reg (.bit .coil) a.toNat).isSome →
    ∃ t, exec (.writeSingleCoil (.fields a v [])) s = .next t ∧
      ∀ u : State, u.area.reg (.bit .coil) a.toNat = t.area.reg (.bit .coil) a.toNat →
        exec (.readCoils (.fields a 1 [])) u =
          .next (u.answer (.pdu [0x01, 0x01, if v = 0xFF00 then 0b00000001 else 0b00000000]))) ∧
  (∀ (s : State) (a v : Word), (s.area.reg (.word .holdingRegister) a.toNat).isSome →
    ∃ t, exec (.writeSingleRegister (.fields a v [])) s = .next t ∧
      ∀ u : State, u.area.reg (.word .holdingRegister) a.toNat = t.area.reg (.word .holdingRegister) a.toNat →
        exec (.readHoldingRegisters (.fields a 1 [])) u = .next (u.answer (.pdu ([0x03, 0x02] ++ u16ToBe v)))) ∧
  (∀ (s : State) (a : Word) (bits : List Bool), 1 ≤ bits.length → bits.length ≤ 1968 →
    fullyPresent s.area (.bit .coil) a.toNat bits.length →
    ∃ t, exec (.writeMultipleCoils
        (.fields a (BitVec.ofNat 16 bits.length) (BitVec.ofNat 8 ((bits.length + 7) / 8)) (packBits bits))) s = .next t ∧
      ∀ u : State, (∀ j < bits.length, u.area.reg (.bit .coil) (a.toNat + j) = t.area.reg (.bit .coil) (a.toNat + j)) →
        exec (.readCoils (.fields a (BitVec.ofNat 16 bits.length) [])) u =
          .next (u.answer (.pdu (0x01 :: BitVec.ofNat 8 ((bits.length + 7) / 8) :: packBits bits))))

/-- R45 (derived): writing the same values twice equals writing them once, on either port. -/
def Obligations.WritesAreIdempotent : Prop :=
  ∀ (i : Instr) (s t : State), writes i = true → exec i s = .next t →
    ∃ t', exec i t = .next t' ∧ t'.area = t.area ∧ t'.response = t.response

/-- R116 (D8): bytes beyond those a function code reads are ignored: neither checked nor written nor echoed. -/
def Obligations.TrailingBytesAreIgnored : Prop :=
  (∀ f ∈ [Instr.readCoils, Instr.readDiscreteInputs, Instr.readHoldingRegisters, Instr.readInputRegisters,
      Instr.writeSingleCoil, Instr.writeSingleRegister],
    ∀ (s : State) (a q : Word) (trailing : List Byte),
      exec (f (.fields a q trailing)) s = exec (f (.fields a q [])) s) ∧
  (∀ f ∈ [Instr.writeMultipleCoils, Instr.writeMultipleRegisters],
    ∀ (s : State) (a q : Word) (bc : Byte) (data trailing : List Byte), data.length = bc.toNat →
      exec (f (.fields a q bc (data ++ trailing))) s = exec (f (.fields a q bc data)) s)

/-! ## The register file -/

/-- R5, R19: the fixed parameters: the capacities and the range maxima, kind by kind. -/
def Obligations.FixedParametersAreTheSpecs : Prop :=
  cap (.bit .coil) = 2000 ∧ cap (.bit .discreteInput) = 2000 ∧
  cap (.word .holdingRegister) = 125 ∧ cap (.word .inputRegister) = 125 ∧
  rangeMax (.bit .coil) = 2000 ∧ rangeMax (.bit .discreteInput) = 2000 ∧
  rangeMax (.word .holdingRegister) = 125 ∧ rangeMax (.word .inputRegister) = 125

/-- R81 to R83: a full bank answers CapacityExceeded, whatever the address (checked first: D11); otherwise a populated address answers
DuplicateAddress; otherwise the bank gains exactly this register. An insert that fails changes nothing but the answer. -/
def Obligations.InsertAddsOneRegister : Prop :=
  ∀ (s : State) (a : Addr) (v : KindValue),
    (cap v.kind ≤ s.area.size v.kind →
      exec (.lInsert a v) s = .next (s.answer (.error .capacityExceeded))) ∧
    (s.area.size v.kind < cap v.kind → (s.area.reg v.kind a.toNat).isSome →
      exec (.lInsert a v) s = .next (s.answer (.error .duplicateAddress))) ∧
    (s.area.size v.kind < cap v.kind → s.area.reg v.kind a.toNat = none →
      ∃ d, exec (.lInsert a v) s = .next ({ s with area := d }.answer (.ok .none)) ∧
        (∀ K n, d.reg K n = if K = v.kind ∧ n = a.toNat then some v.value else s.area.reg K n) ∧
        ∀ K, d.size K = if K = v.kind then s.area.size K + 1 else s.area.size K)

/-- R84 to R88: the checks of generate in their order, and its effect: exactly `count` new registers with the values of the table of
R85 (any value of the kind's type for Random, D13), no other register changed. The order of the checks, count 0, the OutOfRange of an
interval past 0xFFFF and all-or-nothing are D12; the values of Zeros and Ones on a boolean kind are derived. The draw counter is the model's own (log 3). -/
def Obligations.GenerateAddsAllRegistersOrNone : Prop :=
  ∀ (s : State) (K : Kind) (p : Pattern) (a : Addr) (n : Word),
    let full := cap K < n.toNat ∨ cap K - s.area.size K < n.toNat
    let past := 0 < n.toNat ∧ 0xFFFF < a.toNat + n.toNat - 1
    let collides := ∃ i < n.toNat, (s.area.reg K (a.toNat + i)).isSome
    (applicable K p = false →
      exec (.lGenerate K p a n) s = .next (s.answer (.error .invalidGenerationPattern))) ∧
    (applicable K p = true → full →
      exec (.lGenerate K p a n) s = .next (s.answer (.error .capacityExceeded))) ∧
    (applicable K p = true → ¬ full → past →
      exec (.lGenerate K p a n) s = .next (s.answer (.error .outOfRange))) ∧
    (applicable K p = true → ¬ full → ¬ past → collides →
      exec (.lGenerate K p a n) s = .next (s.answer (.error .duplicateAddress))) ∧
    (applicable K p = true → ¬ full → ¬ past → ¬ collides →
      ∃ d, exec (.lGenerate K p a n) s = .next ({ s with
          area := d
          draws := if p = Pattern.random then s.draws + n.toNat else s.draws }.answer (.ok .none)) ∧
        (∀ i < n.toNat, (d.reg K (a.toNat + i)).isSome ∧
          ∀ v, generatedValue K p i n.toNat = some v → d.reg K (a.toNat + i) = some v) ∧
        (∀ K' m, ¬ (K' = K ∧ a.toNat ≤ m ∧ m < a.toNat + n.toNat) → d.reg K' m = s.area.reg K' m) ∧
        ∀ K', d.size K' = if K' = K then s.area.size K + n.toNat else s.area.size K')

/-- R88 (derived): a successful generate has the same end state as `count` inserts at the consecutive addresses, i = 0 to count − 1,
each of which succeeds. -/
def Obligations.GenerateEqualsInserts : Prop :=
  ∀ (s t : State) (K : Kind) (p : Pattern) (a : Addr) (n : Word), Memory.wf s.area →
    exec (.lGenerate K p a n) s = .next t → t.response = some (.ok .none) →
    ∃ regs : List KindValue, regs.length = n.toNat ∧ (∀ v ∈ regs, v.kind = K) ∧
      ∃ states : List State, states.length = n.toNat + 1 ∧ states[0]? = some s ∧
        (∀ i < n.toNat, ∃ v u u', regs[i]? = some v ∧ states[i]? = some u ∧ states[i + 1]? = some u' ∧
          exec (.lInsert (a + BitVec.ofNat 16 i) v) u = .next u' ∧ u'.response = some (.ok .none)) ∧
        ∀ u, states[n.toNat]? = some u → u.area = t.area

/-- R89, R90: get_range is strict. Length 0, a length over RANGE_MAX, or an interval that is not fully present answers OutOfRange;
otherwise exactly `length` pairs whose addresses are start, start + 1, …, with the values the registers hold. Nothing but the answer
changes. -/
def Obligations.GetRangeAnswersTheWholeInterval : Prop :=
  ∀ (s : State) (K : Kind) (a : Addr) (n : Word),
    let bound := match K with | .bit _ => 2000 | .word _ => 125
    (n.toNat = 0 ∨ bound < n.toNat ∨ ¬ fullyPresent s.area K a.toNat n.toNat →
      exec (.lGetRange K a n) s = .next (s.answer (.error .outOfRange))) ∧
    (1 ≤ n.toNat → n.toNat ≤ bound → fullyPresent s.area K a.toNat n.toNat →
      ∃ regs : List (Addr × Value), regs.length = n.toNat ∧
        (∀ j < n.toNat, ∃ v, s.area.reg K (a.toNat + j) = some v ∧ regs[j]? = some (BitVec.ofNat 16 (a.toNat + j), v)) ∧
        exec (.lGetRange K a n) s = .next (s.answer (.ok (.registers regs))))

/-- R92: get_one answers the pair, or NotFound when no register of the kind has the address; nothing but the answer changes. -/
def Obligations.GetOneAnswersTheRegister : Prop :=
  ∀ (s : State) (K : Kind) (a : Addr),
    exec (.lGetOne K a) s = .next (s.answer (match s.area.reg K a.toNat with
      | none => .error .notFound
      | some v => .ok (.register a v)))

/-- R93, R94: write_one writes a register of any kind that exists, and no other; an absent one answers NotFound and is not added. -/
def Obligations.WriteOneWritesOneRegister : Prop :=
  ∀ (s : State) (a : Addr) (v : KindValue),
    (s.area.reg v.kind a.toNat = none → exec (.lWriteOne a v) s = .next (s.answer (.error .notFound))) ∧
    ((s.area.reg v.kind a.toNat).isSome →
      ∃ d, exec (.lWriteOne a v) s = .next ({ s with area := d }.answer (.ok .none)) ∧
        (∀ K n, d.reg K n = if K = v.kind ∧ n = a.toNat then some v.value else s.area.reg K n) ∧
        ∀ K, d.size K = s.area.size K)

/-! ## Bit and byte utilities -/

/-- R97: PACK_BITS answers ceil8(n) bytes; bit k of the sequence is bit `k mod 8` of byte `k div 8`, and the bits past the n-th are
0. -/
def Obligations.PackBitsIsLsbFirst : Prop :=
  ∀ (s : State) (b : List Bool), ∃ out : List Byte,
    exec (.lPackBits b) s = .next (s.answer (.ok (.bytes out))) ∧ out.length = (b.length + 7) / 8 ∧
    ∀ i j, i < out.length → j < 8 → (out.getD i 0).getLsbD j = b.getD (8 * i + j) false

/-- R98 (D9, D21): UNPACK_BITS of at least ceil8(n) bytes answers the n booleans; with fewer bytes it is refused. -/
def Obligations.UnpackBitsIsLsbFirst : Prop :=
  ∀ (s : State) (n : Word) (d : List Byte),
    ((n.toNat + 7) / 8 ≤ d.length → ∃ out : List Bool,
      exec (.lUnpackBits n d) s = .next (s.answer (.ok (.bits out))) ∧ out.length = n.toNat ∧
      ∀ k < n.toNat, out[k]? = some ((d.getD (k / 8) 0).getLsbD (k % 8))) ∧
    (d.length < (n.toNat + 7) / 8 → exec (.lUnpackBits n d) s = .refused .unpackDataTooShort)

/-- R102 (derived): unpacking undoes packing for every boolean sequence; packing undoes unpacking for every byte sequence of
ceil8(n) bytes whose unused high bits are zero. -/
def Obligations.PackingAndUnpackingAreInverse : Prop :=
  (∀ b : List Bool, unpackBits (packBits b) b.length = b) ∧
  (∀ (d : List Byte) (n : Nat), d.length = (n + 7) / 8 →
    (∀ i j, j < 8 → n ≤ 8 * i + j → (d.getD i 0).getLsbD j = false) → packBits (unpackBits d n) = d)

/-- R98, R129 (D9): the unused high bits of the last byte, and bytes beyond, are ignored: data that agree on the first n bits unpack
to the same booleans. -/
def Obligations.PaddingBitsAreIgnored : Prop :=
  ∀ (d d' : List Byte) (n : Nat),
    (∀ k < n, (d.getD (k / 8) 0).getLsbD (k % 8) = (d'.getD (k / 8) 0).getLsbD (k % 8)) →
    unpackBits d n = unpackBits d' n

/-- R99, R100, R101, R106: what the four numeric utilities answer, for every operand. Nothing but the answer changes. That a data operand
of U16_FROM_BE that is not two bytes is refused is R76 (D3); that the decoder refuses it, and by which name, is the model's (log 20). -/
def Obligations.NumericUtilitiesAnswer : Prop :=
  ∀ s : State,
    (∀ n : Word, exec (.lBytesNeeded n) s = .next (s.answer (.ok (.number ((n.toNat + 7) / 8))))) ∧
    (∀ hi lo : Byte, ∃ v : Word, v.toNat = hi.toNat * 256 + lo.toNat ∧
      exec (.lU16FromBe hi lo) s = .next (s.answer (.ok (.word v)))) ∧
    (∀ b : List Byte, b.length ≠ 2 → decode (.command 0x8000000000000000 (.bytes b)) = .error .operandShape) ∧
    (∀ v : Word, ∃ hi lo : Byte, hi.toNat = v.toNat / 256 ∧ lo.toNat = v.toNat % 256 ∧
      exec (.lU16ToBe v) s = .next (s.answer (.ok (.bytes [hi, lo])))) ∧
    (∀ fc c : Byte, exec (.lExceptionPdu fc c) s = .next (s.answer (.ok (.bytes [fc ||| 0x80, c]))) ∧
      (fc.getLsbD 7 = true → fc ||| 0x80 = fc))

/-- R107 (D17): FORMAT_ADDRESS answers the kind's prefix digit, the letter x, and the five decimal digits of the address itself, with
no offset of 1. -/
def Obligations.FormatAddressWritesFiveDigits : Prop :=
  ∀ (s : State) (K : Kind) (a : Addr), ∃ d4 d3 d2 d1 d0 : Nat,
    d4 < 10 ∧ d3 < 10 ∧ d2 < 10 ∧ d1 < 10 ∧ d0 < 10 ∧
    a.toNat = d4 * 10000 + d3 * 1000 + d2 * 100 + d1 * 10 + d0 ∧
    exec (.lFormatAddress K a) s = .next (s.answer (.ok (.text
      ((match K with
        | .bit .coil => '0'
        | .bit .discreteInput => '1'
        | .word .inputRegister => '3'
        | .word .holdingRegister => '4') :: 'x' :: [d4, d3, d2, d1, d0].map (fun d => Char.ofNat (48 + d))))))

/-! ## The MBAP codec -/

/-- R138: "`parse(serialize(m)) == m` for every MBAP `m`; `serialize(parse(b))` equals the first 7 bytes of `b`", as the answers of
MBAP_PARSE and MBAP_SERIALIZE. -/
def Obligations.MbapParseAndSerializeAreInverse : Prop :=
  ∀ s : State,
    (∀ m, ∃ b, b.length = 7 ∧ exec (.lMbapSerialize m) s = .next (s.answer (.ok (.bytes b))) ∧
      exec (.lMbapParse b) s = .next (s.answer (.ok (.header m)))) ∧
    (∀ b : List Byte, 7 ≤ b.length → ∃ m, exec (.lMbapParse b) s = .next (s.answer (.ok (.header m))) ∧
      exec (.lMbapSerialize m) s = .next (s.answer (.ok (.bytes (b.take 7)))))

/-- R135 (D18): with seven bytes or more, MBAP_PARSE answers the big-endian fields at offsets 0, 2 and 4 and the byte at offset 6, and
checks none of them; with fewer it answers MalformedHeader. -/
def Obligations.MbapParseReadsTheHeader : Prop :=
  ∀ (s : State) (b : List Byte),
    (b.length < 7 → exec (.lMbapParse b) s = .next (s.answer (.error .malformedHeader))) ∧
    (7 ≤ b.length → ∃ m : MbapHeader, exec (.lMbapParse b) s = .next (s.answer (.ok (.header m))) ∧
      m.tid.toNat = (b.getD 0 0).toNat * 256 + (b.getD 1 0).toNat ∧
      m.pid.toNat = (b.getD 2 0).toNat * 256 + (b.getD 3 0).toNat ∧
      m.len.toNat = (b.getD 4 0).toNat * 256 + (b.getD 5 0).toNat ∧ m.uid = b.getD 6 0)

/-- R137: MBAP_FRAME of a response PDU of 1 to 253 bytes answers the header with length `1 + len(r)` and tid, pid and uid unchanged,
followed by the PDU; another PDU length is refused (R76, log 19). -/
def Obligations.MbapFrameSetsTheLength : Prop :=
  ∀ (s : State) (m : MbapHeader) (r : List Byte),
    (1 ≤ r.length ∧ r.length ≤ 253 → ∃ (head : List Byte) (m' : MbapHeader),
      exec (.lMbapFrame m r) s = .next (s.answer (.ok (.bytes (head ++ r)))) ∧ head.length = 7 ∧
      mbapParse head = some m' ∧ m'.len.toNat = 1 + r.length ∧
      m'.tid = m.tid ∧ m'.pid = m.pid ∧ m'.uid = m.uid) ∧
    (r.length = 0 ∨ 253 < r.length → exec (.lMbapFrame m r) s = .refused .framePduLength)

/-! ## Stops -/

/-- R76 (D3): L.RESERVED is refused for every word and operand, in every state. The names of the refusals and the order in which they
are looked for are the model's own (log 20; R76 gives neither): for a word that matches no row, with op 0xF a reserved operation,
otherwise the zero field when that is not 0, otherwise a field the operation does not read. -/
def Obligations.ReservedCommandsAreRefused : Prop :=
  (∀ (w : CommandWord) (x : Operand) (s : State), ∃ e, exec (.lReserved w x) s = .refused e) ∧
  (∀ (w : CommandWord) (x : Operand) (s : State), isReservedWord w = true →
    exec (.lReserved w x) s = .refused
      (if (fieldsOf w).op = 0xF then .reservedOperation
       else if (fieldsOf w).zero = 0 then .unreadFieldNotZero else .zeroFieldNotZero))
end

