-- ==== Sys2Proof/Laws/Keys.lean ====
section
/-! SUPPORT. Lists keyed by number: what each operation reads back as, and that each keeps the ascending order
(spec/10_state.md R17, R18). -/

namespace Sys2Proof.Machine

variable {α : Type}

/-! ## Reading back -/

@[simp] theorem lookupKey_nil (k : Nat) : lookupKey ([] : List (Nat × α)) k = none := rfl

theorem lookupKey_cons (k' : Nat) (v : α) (l : List (Nat × α)) (k : Nat) :
    lookupKey ((k', v) :: l) k = if k' = k then some v else lookupKey l k := rfl

@[simp] theorem lookupKey_placeKey (l : List (Nat × α)) (k j : Nat) (v : α) :
    lookupKey (placeKey l k v) j = if j = k then some v else lookupKey l j := by
  induction l with
  | nil => simp [placeKey, lookupKey, eq_comm]
  | cons e l ih =>
    obtain ⟨k', v'⟩ := e
    simp only [placeKey]
    split
    · by_cases h : j = k <;> simp [lookupKey, h, Ne.symm]
    · split
      · subst_vars
        by_cases h : j = k' <;> simp [lookupKey, h, eq_comm]
      · by_cases h : j = k' <;> by_cases h' : j = k <;> simp_all [lookupKey, eq_comm]

@[simp] theorem lookupKey_writeKey (l : List (Nat × α)) (k j : Nat) (v : α) :
    lookupKey (writeKey l k v) j = if j = k ∧ (lookupKey l k).isSome then some v else lookupKey l j := by
  induction l with
  | nil => simp [writeKey]
  | cons e l ih =>
    obtain ⟨k', v'⟩ := e
    by_cases h : k' = k
    · subst h
      by_cases hj : j = k'
      · subst hj; simp [writeKey, lookupKey]
      · have hj' : k' ≠ j := fun e => hj e.symm
        simp [writeKey, lookupKey, ih, hj, hj']
    · by_cases hj : k' = j
      · subst hj; simp [writeKey, lookupKey, h]
      · simp [writeKey, lookupKey, ih, h, hj]

@[simp] theorem lookupKey_removeKey (l : List (Nat × α)) (k j : Nat) :
    lookupKey (removeKey l k) j = if j = k then none else lookupKey l j := by
  induction l with
  | nil => simp [removeKey]
  | cons e l ih =>
    obtain ⟨k', v'⟩ := e
    simp only [removeKey, List.filter_cons] at ih ⊢
    by_cases h : k' = k
    · subst h
      by_cases hj : j = k' <;> simp_all [lookupKey, eq_comm]
    · by_cases hj : j = k <;> by_cases hj' : k' = j <;> simp_all [lookupKey]

theorem lookupKey_eq_none_iff (l : List (Nat × α)) (k : Nat) : lookupKey l k = none ↔ ∀ e ∈ l, e.1 ≠ k := by
  induction l with
  | nil => simp
  | cons e l ih =>
    obtain ⟨k', v'⟩ := e
    by_cases h : k' = k <;> simp [lookupKey, h, ih]

theorem lookupKey_isSome_iff (l : List (Nat × α)) (k : Nat) : (lookupKey l k).isSome ↔ ∃ e ∈ l, e.1 = k := by
  rw [← not_iff_not, Option.not_isSome_iff_eq_none, lookupKey_eq_none_iff]
  exact ⟨fun h ⟨e, he, hk⟩ => h e he hk, fun h e he hk => h ⟨e, he, hk⟩⟩

theorem mem_of_lookupKey {l : List (Nat × α)} {k : Nat} {v : α} (h : lookupKey l k = some v) : (k, v) ∈ l := by
  induction l with
  | nil => simp at h
  | cons e l ih =>
    obtain ⟨k', v'⟩ := e
    by_cases hk : k' = k
    · simp [lookupKey, hk] at h; simp [hk, h]
    · simp [lookupKey, hk] at h; exact List.mem_cons_of_mem _ (ih h)

/-! ## The keys -/

theorem mem_placeKey {l : List (Nat × α)} {k : Nat} {v : α} {e : Nat × α} (h : e ∈ placeKey l k v) :
    e = (k, v) ∨ e ∈ l := by
  induction l with
  | nil => simpa [placeKey] using h
  | cons e' l ih =>
    obtain ⟨k', v'⟩ := e'
    simp only [placeKey] at h
    split at h
    · simpa using h
    · split at h
      · rcases List.mem_cons.1 h with h | h
        · exact .inl h
        · exact .inr (List.mem_cons_of_mem _ h)
      · rcases List.mem_cons.1 h with h | h
        · exact .inr (h ▸ List.mem_cons_self)
        · exact (ih h).imp id (List.mem_cons_of_mem _)

theorem mem_removeKey {l : List (Nat × α)} {k : Nat} {e : Nat × α} :
    e ∈ removeKey l k ↔ e ∈ l ∧ e.1 ≠ k := by simp [removeKey]

@[simp] theorem writeKey_keys (l : List (Nat × α)) (k : Nat) (v : α) :
    (writeKey l k v).map Prod.fst = l.map Prod.fst := by
  induction l with
  | nil => rfl
  | cons e l ih =>
    obtain ⟨k', v'⟩ := e
    by_cases h : k' = k <;> simp [writeKey, h, ih]

@[simp] theorem writeKey_length (l : List (Nat × α)) (k : Nat) (v : α) : (writeKey l k v).length = l.length := by
  rw [← List.length_map (f := Prod.fst), writeKey_keys, List.length_map]

/-- Placing a new key adds exactly one entry. -/
theorem placeKey_length {l : List (Nat × α)} {k : Nat} (v : α) (h : lookupKey l k = none) :
    (placeKey l k v).length = l.length + 1 := by
  induction l with
  | nil => rfl
  | cons e l ih =>
    obtain ⟨k', v'⟩ := e
    by_cases hk : k' = k
    · simp [lookupKey, hk] at h
    · rw [lookupKey_cons, if_neg hk] at h
      simp only [placeKey]
      split
      · rfl
      · rw [if_neg (fun e => hk e.symm)]; simp [ih h]

/-! ## The ascending order -/

theorem placeKey_ascending {l : List (Nat × α)} (k : Nat) (v : α) (h : ascending l) : ascending (placeKey l k v) := by
  induction l with
  | nil => simp [placeKey, ascending]
  | cons e l ih =>
    obtain ⟨k', v'⟩ := e
    have hl : ascending l := (List.pairwise_cons.1 h).2
    have hk : ∀ e ∈ l, k' < e.1 := fun e he => (List.pairwise_cons.1 h).1 _ (List.mem_map_of_mem he)
    simp only [placeKey]
    split
    · rename_i hlt
      refine List.pairwise_cons.2 ⟨fun a ha => ?_, h⟩
      rcases List.mem_cons.1 ha with rfl | ha
      · exact hlt
      · obtain ⟨e, he, rfl⟩ := List.mem_map.1 ha
        exact hlt.trans (hk e he)
    · split
      · subst_vars; exact h
      · rename_i h1 h2
        refine List.pairwise_cons.2 ⟨fun a ha => ?_, ih hl⟩
        obtain ⟨e, he, rfl⟩ := List.mem_map.1 ha
        rcases mem_placeKey he with rfl | he
        · show k' < k; omega
        · exact hk e he

theorem writeKey_ascending {l : List (Nat × α)} (k : Nat) (v : α) (h : ascending l) : ascending (writeKey l k v) := by
  simpa [ascending] using h

theorem removeKey_ascending {l : List (Nat × α)} (k : Nat) (h : ascending l) : ascending (removeKey l k) :=
  List.Pairwise.sublist (List.Sublist.map _ List.filter_sublist) h

/-- In an ascending list, taking out a listed key takes out one entry. -/
theorem removeKey_length {l : List (Nat × α)} {k : Nat} (h : ascending l) (hk : (lookupKey l k).isSome) :
    (removeKey l k).length + 1 = l.length := by
  induction l with
  | nil => simp at hk
  | cons e l ih =>
    obtain ⟨k', v'⟩ := e
    have hl : ascending l := (List.pairwise_cons.1 h).2
    have hlt : ∀ e ∈ l, k' < e.1 := fun e he => (List.pairwise_cons.1 h).1 _ (List.mem_map_of_mem he)
    by_cases hkk : k' = k
    · subst hkk
      have : l.filter (fun e => e.1 ≠ k') = l := List.filter_eq_self.2 fun e he => by simpa using (hlt e he).ne'
      simp only [removeKey, ne_eq, decide_not] at this ⊢
      simp [this]
    · rw [lookupKey_cons, if_neg hkk] at hk
      have := ih hl hk
      simp only [removeKey] at this ⊢
      simp [hkk] at this ⊢
      omega

end Sys2Proof.Machine
end

