-- ==== Sys2Proof/Laws/State.lean ====
section
/-! SUPPORT. One lemma per field per update of the state, so that no later proof unfolds a record update. -/

namespace Sys2Proof.Machine

/-! ## Banks of the Data Area -/

@[simp] theorem DataArea.bitBank_coil (d : DataArea) : d.bitBank .coil = d.coils := rfl
@[simp] theorem DataArea.bitBank_discreteInput (d : DataArea) : d.bitBank .discreteInput = d.discreteInputs := rfl
@[simp] theorem DataArea.wordBank_holdingRegister (d : DataArea) :
    d.wordBank .holdingRegister = d.holdingRegisters := rfl
@[simp] theorem DataArea.wordBank_inputRegister (d : DataArea) : d.wordBank .inputRegister = d.inputRegisters := rfl

@[simp] theorem DataArea.bitBank_setBitBank (d : DataArea) (k k' : BitKind) (b : Bank Bool) :
    (d.setBitBank k b).bitBank k' = if k' = k then b else d.bitBank k' := by
  cases k <;> cases k' <;> rfl

@[simp] theorem DataArea.wordBank_setBitBank (d : DataArea) (k : BitKind) (k' : WordKind) (b : Bank Bool) :
    (d.setBitBank k b).wordBank k' = d.wordBank k' := by
  cases k <;> cases k' <;> rfl

@[simp] theorem DataArea.bitBank_setWordBank (d : DataArea) (k : WordKind) (k' : BitKind) (b : Bank Word) :
    (d.setWordBank k b).bitBank k' = d.bitBank k' := by
  cases k <;> cases k' <;> rfl

@[simp] theorem DataArea.wordBank_setWordBank (d : DataArea) (k k' : WordKind) (b : Bank Word) :
    (d.setWordBank k b).wordBank k' = if k' = k then b else d.wordBank k' := by
  cases k <;> cases k' <;> rfl

/-! ## Updates of the state -/

@[simp] theorem State.setBitBank_area (s : State) (k : BitKind) (b : Bank Bool) :
    (s.setBitBank k b).area = s.area.setBitBank k b := rfl
@[simp] theorem State.setBitBank_pending (s : State) (k : BitKind) (b : Bank Bool) :
    (s.setBitBank k b).pending = s.pending := rfl
@[simp] theorem State.setBitBank_response (s : State) (k : BitKind) (b : Bank Bool) :
    (s.setBitBank k b).response = s.response := rfl
@[simp] theorem State.setBitBank_delivered (s : State) (k : BitKind) (b : Bank Bool) :
    (s.setBitBank k b).delivered = s.delivered := rfl
@[simp] theorem State.setBitBank_draws (s : State) (k : BitKind) (b : Bank Bool) :
    (s.setBitBank k b).draws = s.draws := rfl
@[simp] theorem State.setBitBank_turns (s : State) (k : BitKind) (b : Bank Bool) :
    (s.setBitBank k b).turns = s.turns := rfl

@[simp] theorem State.setWordBank_area (s : State) (k : WordKind) (b : Bank Word) :
    (s.setWordBank k b).area = s.area.setWordBank k b := rfl
@[simp] theorem State.setWordBank_pending (s : State) (k : WordKind) (b : Bank Word) :
    (s.setWordBank k b).pending = s.pending := rfl
@[simp] theorem State.setWordBank_response (s : State) (k : WordKind) (b : Bank Word) :
    (s.setWordBank k b).response = s.response := rfl
@[simp] theorem State.setWordBank_delivered (s : State) (k : WordKind) (b : Bank Word) :
    (s.setWordBank k b).delivered = s.delivered := rfl
@[simp] theorem State.setWordBank_draws (s : State) (k : WordKind) (b : Bank Word) :
    (s.setWordBank k b).draws = s.draws := rfl
@[simp] theorem State.setWordBank_turns (s : State) (k : WordKind) (b : Bank Word) :
    (s.setWordBank k b).turns = s.turns := rfl

@[simp] theorem State.take_area (s : State) (r : Nat) : (s.take r).area = s.area := rfl
@[simp] theorem State.take_pending (s : State) (r : Nat) : (s.take r).pending = removeKey s.pending r := rfl
@[simp] theorem State.take_response (s : State) (r : Nat) : (s.take r).response = none := rfl
@[simp] theorem State.take_delivered (s : State) (r : Nat) : (s.take r).delivered = s.delivered := rfl
@[simp] theorem State.take_draws (s : State) (r : Nat) : (s.take r).draws = s.draws := rfl
@[simp] theorem State.take_turns (s : State) (r : Nat) : (s.take r).turns = s.turns + 1 := rfl

@[simp] theorem State.deliver_area (s : State) (r : Nat) : (s.deliver r).area = s.area := by
  cases h : s.response <;> simp [State.deliver, h]
@[simp] theorem State.deliver_pending (s : State) (r : Nat) : (s.deliver r).pending = s.pending := by
  cases h : s.response <;> simp [State.deliver, h]
@[simp] theorem State.deliver_response (s : State) (r : Nat) : (s.deliver r).response = none := by
  cases h : s.response <;> simp [State.deliver, h]
@[simp] theorem State.deliver_draws (s : State) (r : Nat) : (s.deliver r).draws = s.draws := by
  cases h : s.response <;> simp [State.deliver, h]
@[simp] theorem State.deliver_turns (s : State) (r : Nat) : (s.deliver r).turns = s.turns := by
  cases h : s.response <;> simp [State.deliver, h]
theorem State.deliver_delivered (s : State) (r : Nat) (x : Response) (h : s.response = some x) :
    (s.deliver r).delivered = placeKey s.delivered r x := by
  simp [State.deliver, h]

@[simp] theorem State.takeResponse_state_area (s : State) (r : Nat) : (s.takeResponse r).2.area = s.area := rfl
@[simp] theorem State.takeResponse_state_pending (s : State) (r : Nat) :
    (s.takeResponse r).2.pending = s.pending := rfl
@[simp] theorem State.takeResponse_state_response (s : State) (r : Nat) :
    (s.takeResponse r).2.response = s.response := rfl
@[simp] theorem State.takeResponse_state_delivered (s : State) (r : Nat) :
    (s.takeResponse r).2.delivered = removeKey s.delivered r := rfl

@[simp] theorem State.takeResponse_state_draws (s : State) (r : Nat) : (s.takeResponse r).2.draws = s.draws := rfl
@[simp] theorem State.takeResponse_state_turns (s : State) (r : Nat) : (s.takeResponse r).2.turns = s.turns := rfl

@[simp] theorem State.restart_area (s : State) : s.restart.area = DataArea.empty := rfl
@[simp] theorem State.restart_pending (s : State) : s.restart.pending = [] := rfl
@[simp] theorem State.restart_response (s : State) : s.restart.response = none := rfl
@[simp] theorem State.restart_delivered (s : State) : s.restart.delivered = [] := rfl
@[simp] theorem State.restart_draws (s : State) : s.restart.draws = s.draws := rfl
@[simp] theorem State.restart_turns (s : State) : s.restart.turns = s.turns := rfl

@[simp] theorem State.withFetchWord_pending (s : State) (nbits w : Nat) :
    (s.withFetchWord nbits w).pending = [(0, tableTransaction nbits w)] := rfl
@[simp] theorem State.withFetchWord_area (s : State) (nbits w : Nat) : (s.withFetchWord nbits w).area = s.area := rfl

/-! ## Reset -/

@[simp] theorem State.reset_area : State.reset.area = DataArea.empty := rfl
@[simp] theorem State.reset_pending : State.reset.pending = [] := rfl
@[simp] theorem State.reset_response : State.reset.response = none := rfl
@[simp] theorem State.reset_delivered : State.reset.delivered = [] := rfl
@[simp] theorem State.reset_draws : State.reset.draws = 0 := rfl
@[simp] theorem State.reset_turns : State.reset.turns = 0 := rfl

/-! ## The register a Data Area shows at an address -/

theorem DataArea.reg_bit (d : DataArea) (k : BitKind) (n : Nat) :
    d.reg (.bit k) n = (bankAt (d.bitBank k) n).map .bit := rfl
theorem DataArea.reg_word (d : DataArea) (k : WordKind) (n : Nat) :
    d.reg (.word k) n = (bankAt (d.wordBank k) n).map .word := rfl

/-! ## The ends of a transaction -/

theorem raise_eq (fc : Byte) (c : ExceptionCode) (s : State) :
    raise fc c s = .next { s with response := some (.pdu (exceptionPdu fc (exceptionByte c))) } := rfl
theorem succeed_eq (data : LocalData) (s : State) : succeed data s = .next { s with response := some (.ok data) } := rfl
theorem fail_eq (e : LocalError) (s : State) : fail e s = .next { s with response := some (.error e) } := rfl
theorem respond_eq (r : Response) (s : State) : respond r s = .next { s with response := some r } := rfl

end Sys2Proof.Machine
end

