-- ==== Sys2Proof/Laws/Banks.lean ====
section
/-! SUPPORT. The register-file operations on one bank: what each can answer, what a bank reads back as afterwards, and that each
keeps the canonical form (spec/40_register_file.md R80, R95). -/

namespace Sys2Proof.Machine

variable {α : Type}

/-! ## Reading one register back -/

theorem bankAt_of_le (b : Bank α) {n : Nat} (h : n ≤ Config.maxAddress) : bankAt b n = lookupKey b n := if_pos h

theorem bankAt_of_gt (b : Bank α) {n : Nat} (h : Config.maxAddress < n) : bankAt b n = none := if_neg (by omega)

@[simp] theorem bankAt_nil (n : Nat) : bankAt ([] : Bank α) n = none := by simp [bankAt]

theorem addr_le (a : Addr) : a.toNat ≤ Config.maxAddress := by
  have := a.isLt; simp only [Config.maxAddress]; omega

@[simp] theorem bankAt_addr (b : Bank α) (a : Addr) : bankAt b a.toNat = lookupKey b a.toNat :=
  bankAt_of_le b (addr_le a)

theorem bankAt_writeKey (b : Bank α) (k n : Nat) (v : α) :
    bankAt (writeKey b k v) n = if n = k ∧ (bankAt b k).isSome then some v else bankAt b n := by
  by_cases h : n ≤ Config.maxAddress
  · by_cases hk : n = k
    · subst hk; simp [bankAt_of_le _ h]
    · simp [bankAt_of_le _ h, hk]
  · by_cases hk : n = k
    · subst hk; simp [bankAt_of_gt _ (Nat.lt_of_not_le h)]
    · simp [bankAt_of_gt _ (Nat.lt_of_not_le h), hk]

theorem bankAt_placeKey (b : Bank α) {k : Nat} (n : Nat) (v : α) (hk : k ≤ Config.maxAddress) :
    bankAt (placeKey b k v) n = if n = k then some v else bankAt b n := by
  by_cases h : n ≤ Config.maxAddress
  · simp [bankAt_of_le _ h]
  · have : n ≠ k := fun e => h (e ▸ hk)
    simp [bankAt_of_gt _ (Nat.lt_of_not_le h), this]

/-! ## Ranges -/

/-- `rangeValues` answers exactly the values at the addresses of the interval, when all are there (R89, R90). -/
theorem rangeValues_eq_some_iff (b : Bank α) (start n : Nat) (vs : List α) :
    rangeValues b start n = some vs ↔ vs.length = n ∧ ∀ j < n, bankAt b (start + j) = vs[j]? := by
  induction n generalizing start vs with
  | zero => simp [rangeValues, eq_comm]
  | succ n ih =>
    simp only [rangeValues]
    cases hb : bankAt b start with
    | none =>
      simp only [reduceCtorEq, false_iff, not_and]
      intro hl h
      have := h 0 (by omega)
      rw [Nat.add_zero, hb] at this
      have : vs = [] := by simpa [eq_comm] using this
      simp [this] at hl
    | some v =>
      simp only [Option.map_eq_some_iff, ih]
      constructor
      · rintro ⟨ws, ⟨hl, h⟩, rfl⟩
        refine ⟨by simp [hl], fun j hj => ?_⟩
        cases j with
        | zero => simpa using hb
        | succ j => simpa [Nat.add_assoc, Nat.add_comm 1] using h j (by omega)
      · rintro ⟨hl, h⟩
        cases vs with
        | nil => simp at hl
        | cons w ws =>
          have h0 := h 0 (by omega)
          rw [Nat.add_zero, hb] at h0
          refine ⟨ws, ⟨by simpa using hl, fun j hj => ?_⟩, by simp at h0; simp [h0]⟩
          simpa [Nat.add_assoc, Nat.add_comm 1] using h (j + 1) (by omega)

theorem rangeValues_isSome_iff (b : Bank α) (start n : Nat) :
    (rangeValues b start n).isSome ↔ ∀ j < n, (bankAt b (start + j)).isSome := by
  induction n generalizing start with
  | zero => simp [rangeValues]
  | succ n ih =>
    simp only [rangeValues]
    cases hb : bankAt b start with
    | none =>
      simp only [Option.isSome_none, Bool.false_eq_true, false_iff, not_forall]
      exact ⟨0, by omega, by simp [hb]⟩
    | some v =>
      simp only [Option.isSome_map, ih]
      constructor
      · intro h j hj
        cases j with
        | zero => simp [hb]
        | succ j => simpa [Nat.add_assoc, Nat.add_comm 1] using h j (by omega)
      · intro h j hj
        simpa [Nat.add_assoc, Nat.add_comm 1] using h (j + 1) (by omega)

@[simp] theorem numbered_length (start : Nat) (vs : List α) : (numbered start vs).length = vs.length := by
  induction vs generalizing start with
  | nil => rfl
  | cons v vs ih => simp [numbered, ih]

@[simp] theorem numbered_map_snd (start : Nat) (vs : List α) : (numbered start vs).map Prod.snd = vs := by
  induction vs generalizing start with
  | nil => rfl
  | cons v vs ih => simp [numbered, ih]

theorem numbered_getElem? (start : Nat) (vs : List α) (j : Nat) :
    (numbered start vs)[j]? = vs[j]?.map fun v => (BitVec.ofNat 16 (start + j), v) := by
  induction vs generalizing start j with
  | nil => simp [numbered]
  | cons v vs ih =>
    cases j with
    | zero => simp [numbered]
    | succ j => simp [numbered, ih, Nat.add_assoc, Nat.add_comm 1]

/-- All that `getRange` can answer when it succeeds (R89, R90). -/
theorem getRange_eq_ok_iff (m : Nat) (b : Bank α) (start : Addr) (n : Nat) (regs : List (Addr × α)) :
    getRange m b start n = .ok regs ↔
      1 ≤ n ∧ n ≤ m ∧ ∃ vs, rangeValues b start.toNat n = some vs ∧ regs = numbered start.toNat vs := by
  simp only [getRange]
  by_cases h : n = 0 ∨ m < n
  · simp only [if_pos h, reduceCtorEq, false_iff]; omega
  · simp only [if_neg h]
    have : 1 ≤ n ∧ n ≤ m := by omega
    cases hr : rangeValues b start.toNat n <;> simp [this, eq_comm]

/-- `getRange` fails with OutOfRange and nothing else (R89). -/
theorem getRange_eq_error_iff (m : Nat) (b : Bank α) (start : Addr) (n : Nat) (e : LocalError) :
    getRange m b start n = .error e ↔
      e = .outOfRange ∧ (n = 0 ∨ m < n ∨ ¬ ∀ j < n, (bankAt b (start.toNat + j)).isSome) := by
  simp only [getRange, ← rangeValues_isSome_iff]
  by_cases h : n = 0 ∨ m < n
  · simp only [if_pos h, Except.error.injEq]
    exact ⟨fun h' => ⟨h'.symm, h.imp id .inl⟩, fun h' => h'.1.symm⟩
  · simp only [if_neg h]
    have h0 : ¬ n = 0 := fun h' => h (.inl h')
    have h1 : ¬ m < n := fun h' => h (.inr h')
    cases hr : rangeValues b start.toNat n <;> simp [h0, h1, eq_comm]

theorem bankAt_writeRange (b : Bank α) (start : Nat) (vs : List α) (n : Nat) :
    bankAt (writeRange b start vs) n =
      if start ≤ n ∧ n < start + vs.length ∧ (bankAt b n).isSome then vs[n - start]? else bankAt b n := by
  induction vs generalizing b start with
  | nil => simp [writeRange]; omega
  | cons v vs ih =>
    simp only [writeRange, ih, bankAt_writeKey, List.length_cons]
    by_cases hn : n = start
    · subst hn
      by_cases hb : (bankAt b n).isSome <;> simp [hb]
    · by_cases hle : start + 1 ≤ n ∧ n < start + 1 + vs.length
      · have h1 : start ≤ n ∧ n < start + (vs.length + 1) := by omega
        obtain ⟨k, rfl⟩ : ∃ k, n = start + 1 + k := ⟨n - (start + 1), by omega⟩
        have h2 : start + 1 + k - start = k + 1 := by omega
        simp [hn, hle.2, h1.1, h1.2, h2]
      · have h1 : ¬ (start ≤ n ∧ n < start + (vs.length + 1)) := by omega
        simp only [hn, false_and, if_false]
        rw [if_neg (fun h => hle ⟨h.1, h.2.1⟩), if_neg (fun h => h1 ⟨h.1, h.2.1⟩)]

@[simp] theorem writeRange_keys (b : Bank α) (start : Nat) (vs : List α) :
    (writeRange b start vs).map Prod.fst = b.map Prod.fst := by
  induction vs generalizing b start with
  | nil => rfl
  | cons v vs ih => simp [writeRange, ih]

/-! ## Generation -/

theorem bankAt_populate (b : Bank α) (start count : Nat) (gen : Nat → α) (n : Nat)
    (h : start + count ≤ Config.maxAddress + 1) :
    bankAt (populate b start count gen) n =
      if start ≤ n ∧ n < start + count then some (gen (n - start)) else bankAt b n := by
  have key : ∀ (l : List Nat), (∀ i ∈ l, i < count) →
      bankAt (l.foldr (fun i acc => placeKey acc (start + i) (gen i)) b) n =
        if start ≤ n ∧ n - start ∈ l then some (gen (n - start)) else bankAt b n := by
    intro l hl
    induction l with
    | nil => simp
    | cons i l ih =>
      have hi := hl i List.mem_cons_self
      simp only [List.foldr_cons]
      rw [bankAt_placeKey _ _ _ (by omega), ih fun j hj => hl j (List.mem_cons_of_mem _ hj)]
      by_cases hn : n = start + i
      · subst hn; simp
      · have : n - start = i → ¬ start ≤ n := by omega
        by_cases hs : start ≤ n
        · have : n - start ≠ i := by omega
          simp [hn, hs, this]
        · simp [hn, hs]
  rw [populate, key _ fun i hi => List.mem_range.1 hi]
  simp only [List.mem_range]
  by_cases hs : start ≤ n
  · have : n - start < count ↔ n < start + count := by omega
    simp [hs, this]
  · simp [hs]

theorem mem_populate {b : Bank α} {start count : Nat} {gen : Nat → α} {e : Nat × α}
    (h : e ∈ populate b start count gen) : e ∈ b ∨ ∃ i < count, e = (start + i, gen i) := by
  have key : ∀ (l : List Nat), e ∈ l.foldr (fun i acc => placeKey acc (start + i) (gen i)) b →
      e ∈ b ∨ ∃ i ∈ l, e = (start + i, gen i) := by
    intro l
    induction l with
    | nil => simp
    | cons i l ih =>
      intro h
      rcases mem_placeKey h with rfl | h
      · exact .inr ⟨i, List.mem_cons_self, rfl⟩
      · exact (ih h).imp id fun ⟨j, hj, he⟩ => ⟨j, List.mem_cons_of_mem _ hj, he⟩
  exact (key _ h).imp id fun ⟨i, hi, he⟩ => ⟨i, List.mem_range.1 hi, he⟩

theorem populate_ascending {b : Bank α} (start count : Nat) (gen : Nat → α) (h : ascending b) :
    ascending (populate b start count gen) := by
  unfold populate
  induction List.range count with
  | nil => exact h
  | cons i l ih => exact placeKey_ascending _ _ ih

/-- Populating addresses that were not populated adds `count` registers (R88). -/
theorem populate_length {b : Bank α} (start count : Nat) (gen : Nat → α)
    (h : ∀ i < count, lookupKey b (start + i) = none) : (populate b start count gen).length = b.length + count := by
  have key : ∀ (l : List Nat), l.Nodup → (∀ i ∈ l, i < count) →
      (l.foldr (fun i acc => placeKey acc (start + i) (gen i)) b).length = b.length + l.length ∧
      ∀ j, j < count → j ∉ l → lookupKey (l.foldr (fun i acc => placeKey acc (start + i) (gen i)) b) (start + j) = none := by
    intro l hn hl
    induction l with
    | nil => exact ⟨rfl, fun j hj _ => h j hj⟩
    | cons i l ih =>
      have hn' := List.nodup_cons.1 hn
      obtain ⟨h1, h2⟩ := ih hn'.2 fun j hj => hl j (List.mem_cons_of_mem _ hj)
      constructor
      · rw [List.foldr_cons, placeKey_length _ (h2 i (hl i List.mem_cons_self) hn'.1), h1, List.length_cons]; omega
      · intro j hj hjl
        have hji : j ≠ i := fun e => hjl (e ▸ List.mem_cons_self)
        rw [List.foldr_cons, lookupKey_placeKey, if_neg (by omega)]
        exact h2 j hj fun hm => hjl (List.mem_cons_of_mem _ hm)
  simpa [populate] using (key _ List.nodup_range fun i hi => List.mem_range.1 hi).1

/-! ## What the single-register operations and generate can answer -/

/-- All that `writeOne` can answer when it succeeds (R93). -/
theorem writeOne_eq_ok_iff (b b' : Bank α) (a : Addr) (v : α) :
    writeOne b a v = .ok b' ↔ (bankAt b a.toNat).isSome ∧ b' = writeKey b a.toNat v := by
  simp only [writeOne]
  cases bankAt b a.toNat <;> simp [eq_comm]

/-- `writeOne` fails with NotFound and nothing else (R93). -/
theorem writeOne_eq_error_iff (b : Bank α) (a : Addr) (v : α) (e : LocalError) :
    writeOne b a v = .error e ↔ e = .notFound ∧ bankAt b a.toNat = none := by
  simp only [writeOne]
  cases bankAt b a.toNat <;> simp [eq_comm]

/-- All that `getOne` can answer (R92). -/
theorem getOne_eq_ok_iff (b : Bank α) (a : Addr) (v : α) : getOne b a = .ok v ↔ bankAt b a.toNat = some v := by
  simp only [getOne]
  cases bankAt b a.toNat <;> simp

/-- `getOne` fails with NotFound and nothing else (R92). -/
theorem getOne_eq_error_iff (b : Bank α) (a : Addr) (e : LocalError) :
    getOne b a = .error e ↔ e = .notFound ∧ bankAt b a.toNat = none := by
  simp only [getOne]
  cases bankAt b a.toNat <;> simp [eq_comm]

/-- All that `insertOne` can answer when it succeeds (R81). -/
theorem insertOne_eq_ok_iff (m : Nat) (b b' : Bank α) (a : Addr) (v : α) :
    insertOne m b a v = .ok b' ↔ b.length < m ∧ bankAt b a.toNat = none ∧ b' = placeKey b a.toNat v := by
  simp only [insertOne]
  by_cases h : m ≤ b.length
  · simp [h]
  · have h' : b.length < m := by omega
    cases hb : bankAt b a.toNat <;> simp [h, h', eq_comm]

/-- `insertOne` fails with CapacityExceeded when the bank is full, else with DuplicateAddress (R81, D11). -/
theorem insertOne_eq_error_iff (m : Nat) (b : Bank α) (a : Addr) (v : α) (e : LocalError) :
    insertOne m b a v = .error e ↔
      (m ≤ b.length ∧ e = .capacityExceeded) ∨
      (b.length < m ∧ (bankAt b a.toNat).isSome ∧ e = .duplicateAddress) := by
  simp only [insertOne]
  by_cases h : m ≤ b.length
  · have h' : ¬ b.length < m := by omega
    cases e <;> simp [h, h']
  · have h' : b.length < m := by omega
    cases hb : bankAt b a.toNat <;> cases e <;> simp [h, h']

/-- All that `generateBank` can answer when it succeeds (R84). -/
theorem generateBank_eq_ok_iff (m : Nat) (b b' : Bank α) (start : Addr) (count : Nat) (gen : Nat → α) :
    generateBank m b start count gen = .ok b' ↔
      count ≤ m ∧ count ≤ m - b.length ∧ (count = 0 ∨ start.toNat + count ≤ Config.maxAddress + 1) ∧
      (∀ i < count, bankAt b (start.toNat + i) = none) ∧ b' = populate b start.toNat count gen := by
  simp only [generateBank]
  split
  · simp; omega
  · split
    · simp; omega
    · split
      · rename_i h
        simp only [List.any_eq_true, List.mem_range] at h
        obtain ⟨i, hi, h⟩ := h
        simp only [reduceCtorEq, false_iff, not_and]
        intro _ _ _ h'
        simp [h' i hi] at h
      · rename_i h1 h2 h3
        have h3' : ∀ i < count, bankAt b (start.toNat + i) = none := by
          intro i hi
          by_contra hc
          exact h3 (List.any_eq_true.2 ⟨i, List.mem_range.2 hi, Option.isSome_iff_ne_none.2 hc⟩)
        simp only [Except.ok.injEq]
        constructor
        · rintro rfl
          exact ⟨by omega, by omega, by omega, h3', rfl⟩
        · rintro ⟨-, -, -, -, rfl⟩; rfl

/-! ## Reading the Data Area back -/

theorem reg_setBitBank (d : DataArea) (k : BitKind) (b : Bank Bool) (K : Kind) (n : Nat) :
    (d.setBitBank k b).reg K n = if K = .bit k then (bankAt b n).map .bit else d.reg K n := by
  cases K with
  | bit k' =>
    by_cases h : k' = k
    · subst h; simp [DataArea.reg_bit]
    · simp [DataArea.reg_bit, h]
  | word k' => simp [DataArea.reg_word]

theorem reg_setWordBank (d : DataArea) (k : WordKind) (b : Bank Word) (K : Kind) (n : Nat) :
    (d.setWordBank k b).reg K n = if K = .word k then (bankAt b n).map .word else d.reg K n := by
  cases K with
  | word k' =>
    by_cases h : k' = k
    · subst h; simp [DataArea.reg_word]
    · simp [DataArea.reg_word, h]
  | bit k' => simp [DataArea.reg_bit]

theorem reg_empty (K : Kind) (n : Nat) : DataArea.empty.reg K n = none := by
  rcases K with (_ | _) | (_ | _) <;> simp [DataArea.reg, DataArea.empty]

/-! ## The canonical form -/

theorem writeKey_wf {m : Nat} {b : Bank α} (k : Nat) (v : α) (h : bankWf m b) : bankWf m (writeKey b k v) := by
  obtain ⟨h1, h2, h3⟩ := h
  refine ⟨writeKey_ascending _ _ h1, fun e he => ?_, by simpa using h3⟩
  have : e.1 ∈ b.map Prod.fst := by rw [← writeKey_keys b k v]; exact List.mem_map_of_mem he
  obtain ⟨e', he', heq⟩ := List.mem_map.1 this
  exact heq ▸ h2 e' he'

theorem writeRange_wf {m : Nat} {b : Bank α} (start : Nat) (vs : List α) (h : bankWf m b) :
    bankWf m (writeRange b start vs) := by
  induction vs generalizing b start with
  | nil => exact h
  | cons v vs ih => exact ih _ (writeKey_wf _ _ h)

theorem writeOne_wf {m : Nat} {b b' : Bank α} {a : Addr} {v : α} (h : writeOne b a v = .ok b') (hw : bankWf m b) :
    bankWf m b' := by
  obtain ⟨-, rfl⟩ := (writeOne_eq_ok_iff _ _ _ _).1 h
  exact writeKey_wf _ _ hw

theorem insertOne_wf {m : Nat} {b b' : Bank α} {a : Addr} {v : α} (h : insertOne m b a v = .ok b')
    (hw : bankWf m b) : bankWf m b' := by
  obtain ⟨h1, h2, h3⟩ := hw
  obtain ⟨hl, hn, rfl⟩ := (insertOne_eq_ok_iff _ _ _ _ _).1 h
  rw [bankAt_addr] at hn
  refine ⟨placeKey_ascending _ _ h1, fun e he => ?_, by rw [placeKey_length _ hn]; omega⟩
  rcases mem_placeKey he with rfl | he
  · exact addr_le a
  · exact h2 e he

theorem generateBank_wf {m : Nat} {b b' : Bank α} {start : Addr} {count : Nat} {gen : Nat → α}
    (h : generateBank m b start count gen = .ok b') (hw : bankWf m b) : bankWf m b' := by
  obtain ⟨h1, h2, h3⟩ := hw
  obtain ⟨-, hc, hr, hn, rfl⟩ := (generateBank_eq_ok_iff _ _ _ _ _ _).1 h
  have hn' : ∀ i < count, lookupKey b (start.toNat + i) = none := fun i hi => by
    rw [← bankAt_of_le b (by omega)]; exact hn i hi
  refine ⟨populate_ascending _ _ _ h1, fun e he => ?_, by rw [populate_length _ _ _ hn']; omega⟩
  rcases mem_populate he with he | ⟨i, hi, rfl⟩
  · exact h2 e he
  · show start.toNat + i ≤ _; omega

theorem empty_wf : Memory.wf DataArea.empty := by decide

/-- The canonical form, kind by kind. -/
theorem DataArea.wf_iff (d : DataArea) :
    Memory.wf d ↔ (∀ k, bankWf (cap (.bit k)) (d.bitBank k)) ∧ ∀ k, bankWf (cap (.word k)) (d.wordBank k) := by
  constructor
  · rintro ⟨h1, h2, h3, h4⟩
    exact ⟨fun k => by cases k <;> assumption, fun k => by cases k <;> assumption⟩
  · rintro ⟨h1, h2⟩
    exact ⟨h1 .coil, h1 .discreteInput, h2 .holdingRegister, h2 .inputRegister⟩

theorem setBitBank_wf {d : DataArea} {k : BitKind} {b : Bank Bool} (h : Memory.wf d) (hb : bankWf (cap (.bit k)) b) :
    Memory.wf (d.setBitBank k b) := by
  rw [DataArea.wf_iff] at h ⊢
  refine ⟨fun k' => ?_, fun k' => ?_⟩
  · rw [DataArea.bitBank_setBitBank]
    split
    · subst_vars; exact hb
    · exact h.1 k'
  · rw [DataArea.wordBank_setBitBank]; exact h.2 k'

theorem setWordBank_wf {d : DataArea} {k : WordKind} {b : Bank Word} (h : Memory.wf d)
    (hb : bankWf (cap (.word k)) b) : Memory.wf (d.setWordBank k b) := by
  rw [DataArea.wf_iff] at h ⊢
  refine ⟨fun k' => ?_, fun k' => ?_⟩
  · rw [DataArea.bitBank_setWordBank]; exact h.1 k'
  · rw [DataArea.wordBank_setWordBank]
    split
    · subst_vars; exact hb
    · exact h.2 k'

end Sys2Proof.Machine
end

