-- ==== Sys2Proof/Laws/Bits.lean ====
section
/-! SUPPORT. The bit and byte utilities: which bit of a packed byte is which boolean (spec/41_bit_utilities.md R97, R98), and that
the two byte-order conversions undo each other (R103). -/

namespace Sys2Proof.Machine

/-! ## Byte order -/

theorem u16FromBe_toNat (hi lo : Byte) : (u16FromBe hi lo).toNat = hi.toNat * 256 + lo.toNat := by
  have h1 := hi.isLt
  have h2 := lo.isLt
  simp only [u16FromBe, BitVec.toNat_add, BitVec.toNat_mul, BitVec.truncate_eq_setWidth, BitVec.toNat_setWidth,
    BitVec.toNat_ofNat]
  omega

theorem highByte_toNat (v : Word) : (highByte v).toNat = v.toNat / 256 := by
  have := v.isLt
  simp only [highByte, BitVec.extractLsb'_toNat, Nat.shiftRight_eq_div_pow]
  omega

theorem lowByte_toNat (v : Word) : (lowByte v).toNat = v.toNat % 256 := by
  simp [lowByte, BitVec.extractLsb'_toNat]

@[simp] theorem u16FromBe_bytes (v : Word) : u16FromBe (highByte v) (lowByte v) = v := by
  apply BitVec.eq_of_toNat_eq
  rw [u16FromBe_toNat, highByte_toNat, lowByte_toNat]
  omega

@[simp] theorem highByte_u16FromBe (hi lo : Byte) : highByte (u16FromBe hi lo) = hi := by
  apply BitVec.eq_of_toNat_eq
  have := lo.isLt
  rw [highByte_toNat, u16FromBe_toNat]
  omega

@[simp] theorem lowByte_u16FromBe (hi lo : Byte) : lowByte (u16FromBe hi lo) = lo := by
  apply BitVec.eq_of_toNat_eq
  have := lo.isLt
  rw [lowByte_toNat, u16FromBe_toNat]
  omega

@[simp] theorem u16ToBe_length (v : Word) : (u16ToBe v).length = 2 := rfl

@[simp] theorem wordsToBytes_length (ws : List Word) : (wordsToBytes ws).length = 2 * ws.length := by
  induction ws with
  | nil => rfl
  | cons w ws ih => simp only [wordsToBytes, List.flatMap_cons, List.length_append] at ih ⊢; simp [ih]; omega

/-- Data bytes 2j and 2j + 1 are the high and the low byte of word j (R39). -/
theorem wordsToBytes_getD (ws : List Word) (j : Nat) (h : j < ws.length) :
    (wordsToBytes ws).getD (2 * j) 0#8 = highByte (ws.getD j 0#16) ∧
    (wordsToBytes ws).getD (2 * j + 1) 0#8 = lowByte (ws.getD j 0#16) := by
  induction ws generalizing j with
  | nil => simp at h
  | cons w ws ih =>
    cases j with
    | zero => exact ⟨rfl, rfl⟩
    | succ j => exact ih j (by simpa using h)

@[simp] theorem dataWords_length (d : List Byte) (n : Nat) : (dataWords d n).length = n := by simp [dataWords]

theorem dataWords_getElem? (d : List Byte) (n j : Nat) (h : j < n) :
    (dataWords d n)[j]? = some (u16FromBe (d.getD (2 * j) 0#8) (d.getD (2 * j + 1) 0#8)) := by
  simp [dataWords, h]

/-! ## Bit packing -/

/-- Bit j of a packed byte is the j-th boolean (R40, R97). -/
theorem packByte_getLsbD (l : List Bool) (h : l.length ≤ 8) (j : Nat) : (packByte l).getLsbD j = l.getD j false := by
  induction l generalizing j with
  | nil => simp [packByte]
  | cons b l ih =>
    have hl : l.length ≤ 8 := by simp at h; omega
    cases j with
    | zero => cases b <;> simp [packByte]
    | succ j =>
      have h1 : (if b = true then (1#8 : BitVec 8) else 0#8).getLsbD (j + 1) = false := by
        cases b <;> simp [BitVec.getLsbD_one]
      simp only [packByte, BitVec.getLsbD_or, BitVec.getLsbD_shiftLeft, h1, Bool.or_false,
        Nat.add_sub_cancel, ih hl]
      by_cases hj : j + 1 < 8
      · simp [hj]
      · have : (b :: l).length ≤ j + 1 := by omega
        rw [List.getD_eq_default _ _ this]
        simp [hj]

@[simp] theorem packBits_length (b : List Bool) : (packBits b).length = bytesNeeded b.length := by simp [packBits]

/-- Bit `k mod 8` of byte `k div 8` of packed booleans is the k-th of them, and 0 past their end (R97). -/
theorem packBits_getLsbD (b : List Bool) (k : Nat) :
    ((packBits b).getD (k / 8) 0#8).getLsbD (k % 8) = b.getD k false := by
  by_cases h : k / 8 < bytesNeeded b.length
  · have h1 : (packBits b).getD (k / 8) 0#8 = packByte ((b.drop (8 * (k / 8))).take 8) := by
      simp [packBits, h]
    rw [h1, packByte_getLsbD _ (by simp)]
    have h2 : k % 8 < 8 := Nat.mod_lt _ (by omega)
    have h3 : 8 * (k / 8) + k % 8 = k := Nat.div_add_mod k 8
    simp [List.getD_eq_getElem?_getD, h2, h3]
  · have h1 : b.length ≤ k := by simp only [bytesNeeded] at h; omega
    rw [List.getD_eq_default _ _ (by simpa using h), List.getD_eq_default _ _ h1]
    simp

@[simp] theorem unpackBits_length (d : List Byte) (n : Nat) : (unpackBits d n).length = n := by simp [unpackBits]

theorem unpackBits_getElem? (d : List Byte) (n k : Nat) (h : k < n) :
    (unpackBits d n)[k]? = some ((d.getD (k / 8) 0#8).getLsbD (k % 8)) := by
  simp [unpackBits, h]

/-! ## Codes of the local command word -/

@[simp] theorem kindOf_kindCode (k : Kind) : kindOf (kindCode k) = some k := by
  rcases k with (_ | _) | (_ | _) <;> rfl

@[simp] theorem patternOf_patternCode (p : Pattern) : patternOf (patternCode p) = some p := by cases p <;> rfl

@[simp] theorem valueOf_valueCode (v : KindValue) : valueOf v.kind (valueCode v) = some v := by
  cases v with
  | bit k b => cases b <;> simp [valueOf, valueCode, KindValue.kind]
  | word k w => rfl

/-- The reserved kinds (R73). -/
theorem kindOf_eq_none_iff (c : BitVec 3) : kindOf c = none ↔ c ∈ [2#3, 5#3, 6#3, 7#3] := by revert c; decide

/-- The reserved patterns (R74). -/
theorem patternOf_eq_none_iff (c : BitVec 3) : patternOf c = none ↔ c ∈ [6#3, 7#3] := by revert c; decide

/-- The reserved operation (R76). -/
theorem localOpOf_eq_none_iff (op : BitVec 4) : localOpOf op = none ↔ op = 0xF#4 := by revert op; decide

theorem kindCode_of_kindOf {c : BitVec 3} {k : Kind} (h : kindOf c = some k) : kindCode k = c := by
  revert c k
  intro c
  have : ∀ c : BitVec 3, ∀ k ∈ (kindOf c).toList, kindCode k = c := by decide
  intro k h
  exact this c k (by simp [h])

theorem patternCode_of_patternOf {c : BitVec 3} {p : Pattern} (h : patternOf c = some p) : patternCode p = c := by
  have : ∀ c : BitVec 3, ∀ p ∈ (patternOf c).toList, patternCode p = c := by decide
  exact this c p (by simp [h])

theorem valueCode_of_valueOf {k : Kind} {w : Word} {v : KindValue} (h : valueOf k w = some v) :
    v.kind = k ∧ valueCode v = w := by
  cases k with
  | bit k =>
    simp only [valueOf] at h
    split at h
    · cases h; simp_all [valueCode, KindValue.kind]
    · split at h
      · cases h; simp_all [valueCode, KindValue.kind]
      · cases h
  | word k => cases h; exact ⟨rfl, rfl⟩

/-- Which field each bit of the word is of (R71). -/
theorem wordOf_getLsbD (f : LocalFields) (i : Nat) :
    (wordOf f).getLsbD i =
      if i < 16 then f.value.getLsbD i
      else if i < 32 then f.count.getLsbD (i - 16)
      else if i < 48 then f.addr.getLsbD (i - 32)
      else if i < 54 then f.zero.getLsbD (i - 48)
      else if i < 57 then f.pattern.getLsbD (i - 54)
      else if i < 60 then f.kind.getLsbD (i - 57)
      else f.op.getLsbD (i - 60) := by
  have h : (wordOf f).getLsbD i = BitVec.getLsbD (w := 4 + 3 + 3 + 6 + 16 + 16 + 16)
      (f.op ++ f.kind ++ f.pattern ++ f.zero ++ f.addr ++ f.count ++ f.value) i := rfl
  rw [h]
  simp only [BitVec.getLsbD_append, Nat.sub_sub]
  have h2 : (i - 16 < 16) = (i < 32) := propext (by omega)
  have h3 : (i - (16 + 16) < 16) = (i < 48) := propext (by omega)
  have h4 : (i - (16 + 16 + 16) < 6) = (i < 54) := propext (by omega)
  have h5 : (i - (16 + 16 + 16 + 6) < 3) = (i < 57) := propext (by omega)
  have h6 : (i - (16 + 16 + 16 + 6 + 3) < 3) = (i < 60) := propext (by omega)
  simp only [Nat.add_assoc] at *
  simp [h2, h3, h4, h5, h6]

/-- The fields of the word of fields are those fields (R71). -/
@[simp] theorem fieldsOf_wordOf (f : LocalFields) : fieldsOf (wordOf f) = f := by
  obtain ⟨op, kind, pattern, zero, addr, count, value⟩ := f
  simp only [fieldsOf, LocalFields.mk.injEq]
  refine ⟨?_, ?_, ?_, ?_, ?_, ?_, ?_⟩ <;> apply BitVec.eq_of_getLsbD_eq <;> intro i hi <;>
    simp only [BitVec.getLsbD_extractLsb', wordOf_getLsbD, hi, decide_true, Bool.true_and]
  · simp (disch := omega) only [if_neg, Nat.add_sub_cancel_left]
  · simp (disch := omega) only [if_neg, if_pos, Nat.add_sub_cancel_left]
  · simp (disch := omega) only [if_neg, if_pos, Nat.add_sub_cancel_left]
  · simp (disch := omega) only [if_neg, if_pos, Nat.add_sub_cancel_left]
  · simp (disch := omega) only [if_neg, if_pos, Nat.add_sub_cancel_left]
  · simp (disch := omega) only [if_neg, if_pos, Nat.add_sub_cancel_left]
  · simp (disch := omega) only [if_pos, Nat.zero_add]

/-- The word of the fields of a word is that word: the fields cover all 64 bits (R71). -/
@[simp] theorem wordOf_fieldsOf (w : CommandWord) : wordOf (fieldsOf w) = w := by
  apply BitVec.eq_of_getLsbD_eq
  intro i hi
  simp only [wordOf_getLsbD, fieldsOf, BitVec.getLsbD_extractLsb']
  split_ifs <;> rw [decide_eq_true (by omega), Bool.true_and] <;> congr 1 <;> omega

end Sys2Proof.Machine
end

