-- ==== Sys2Proof/Laws/Decode.lean ====
section
/-! SUPPORT. The parts of the decoder and of the encoder: what each helper answers, and how the bodies of requests and the fields of
command words go back and forth (spec/30_encoding.md). -/

namespace Sys2Proof

open Machine

/-! ## Request bodies -/

/-- The body of a 5-byte-header request is read back from its bytes (R58, R59). -/
theorem fixedBody_fixedBytes (b : FixedBody) (h : b.wf = true) : fixedBody (fixedBytes b) = b := by
  cases b with
  | short l => 
    match l, h with
    | [], _ => rfl
    | [_], _ => rfl
    | [_,_], _ => rfl
    | [_,_,_], _ => rfl
    | _::_::_::_::_, h => simp [FixedBody.wf] at h; omega
  | fields a q t => simp [fixedBytes, u16ToBe, fixedBody]

/-- The body of a 6-byte-header request is read back from its bytes (R60). -/
theorem multiBody_multiBytes (b : MultiBody) (h : b.wf = true) : multiBody (multiBytes b) = b := by
  cases b with
  | short l => 
    match l, h with
    | [], _ => rfl
    | [_], _ => rfl
    | [_,_], _ => rfl
    | [_,_,_], _ => rfl
    | [_,_,_,_], _ => rfl
    | _::_::_::_::_::_, h => simp [MultiBody.wf] at h; omega
  | fields a q n t => simp [multiBytes, u16ToBe, multiBody]

/-- A well-formed body fits a request (R57). -/
theorem fixedBytes_length_of_wf (b : FixedBody) (h : b.wf = true) : (fixedBytes b).length + 1 ≤ 253 := by
  cases b <;> simp [FixedBody.wf, fixedBytes, Config.pduMax] at * <;> omega

/-- A well-formed body fits a request (R57). -/
theorem multiBytes_length_of_wf (b : MultiBody) (h : b.wf = true) : (multiBytes b).length + 1 ≤ 253 := by
  cases b <;> simp [MultiBody.wf, multiBytes, Config.pduMax] at * <;> omega

/-- The bytes of the body that was read are the bytes it was read from (R58, R59). -/
theorem fixedBytes_fixedBody (p : List Byte) : fixedBytes (fixedBody p) = p := by
  match p with
  | [] => rfl
  | [_] => rfl
  | [_,_] => rfl
  | [_,_,_] => rfl
  | a::b::c::d::e => simp [fixedBody, fixedBytes, u16ToBe]

/-- The bytes of the body that was read are the bytes it was read from (R60). -/
theorem multiBytes_multiBody (p : List Byte) : multiBytes (multiBody p) = p := by
  match p with
  | [] => rfl
  | [_] => rfl
  | [_,_] => rfl
  | [_,_,_] => rfl
  | [_,_,_,_] => rfl
  | a::b::c::d::e::f => simp [multiBody, multiBytes, u16ToBe]

/-- The body read from an admitted request is well-formed (R110). -/
theorem fixedBody_wf (p : List Byte) (h : p.length ≤ 252) : (fixedBody p).wf = true := by
  match p, h with
  | [], _ => rfl
  | [_], _ => rfl
  | [_,_], _ => rfl
  | [_,_,_], _ => rfl
  | a::b::c::d::e, h => simp [fixedBody, FixedBody.wf, Config.pduMax] at *; omega

/-- The body read from an admitted request is well-formed (R110). -/
theorem multiBody_wf (p : List Byte) (h : p.length ≤ 252) : (multiBody p).wf = true := by
  match p, h with
  | [], _ => rfl
  | [_], _ => rfl
  | [_,_], _ => rfl
  | [_,_,_], _ => rfl
  | [_,_,_,_], _ => rfl
  | a::b::c::d::e::f, h => simp [multiBody, MultiBody.wf, Config.pduMax] at *; omega

/-- A request of 1 to 253 bytes is decoded by its function code (R65, R110). -/
theorem decode_request {fc : Byte} {params : List Byte} (h : params.length ≤ 252) :
    decode (.request (fc :: params)) = .ok (dispatchRequest fc params) := by
  simp [decode, decodeRequest, Config.pduMax]; omega

/-- Too few bytes for the 5-byte header (R116). -/
theorem fixedBody_eq_short {p : List Byte} (h : p.length < 4) : fixedBody p = .short p := by
  match p, h with
  | [], _ => rfl
  | [_], _ => rfl
  | [_, _], _ => rfl
  | [_, _, _], _ => rfl
  | _ :: _ :: _ :: _ :: _, h => simp at h; omega

/-- Too few bytes for the 6-byte header (R116). -/
theorem multiBody_eq_short {p : List Byte} (h : p.length < 5) : multiBody p = .short p := by
  match p, h with
  | [], _ => rfl
  | [_], _ => rfl
  | [_, _], _ => rfl
  | [_, _, _], _ => rfl
  | [_, _, _, _], _ => rfl
  | _ :: _ :: _ :: _ :: _ :: _, h => simp at h; omega

/-! ## Command words -/

/-- The op field of an operation (R72). -/
def opCode : LocalOp → BitVec 4
  | .insert => 0x0
  | .generate => 0x1
  | .getRange => 0x2
  | .getOne => 0x3
  | .writeOne => 0x4
  | .packBits => 0x5
  | .unpackBits => 0x6
  | .bytesNeeded => 0x7
  | .u16FromBe => 0x8
  | .u16ToBe => 0x9
  | .exceptionPdu => 0xA
  | .formatAddress => 0xB
  | .mbapParse => 0xC
  | .mbapSerialize => 0xD
  | .mbapFrame => 0xE

/-- Only its own op field selects an operation (R72). -/
theorem eq_opCode_of_localOpOf {op : BitVec 4} {o : LocalOp} (h : localOpOf op = some o) : op = opCode o := by
  have : ∀ op : BitVec 4, ∀ o ∈ (localOpOf op).toList, op = opCode o := by decide
  exact this op o (by simp [h])

/-- All that an operation without operand can accept (R72). -/
theorem withoutOperand_eq_ok {x : Operand} {r : Except DecodeError Instr} {i : Instr}
    (h : withoutOperand x r = .ok i) : x = .absent ∧ r = .ok i := by
  cases x <;> simp [withoutOperand] at h; exact ⟨rfl, h⟩

/-- All that a kind field can be accepted as (R73). -/
theorem withKind_eq_ok {c : BitVec 3} {f : Kind → Except DecodeError Instr} {i : Instr}
    (h : withKind c f = .ok i) : ∃ k, kindCode k = c ∧ f k = .ok i := by
  simp only [withKind] at h
  cases hk : kindOf c with
  | none => simp [hk] at h
  | some k => exact ⟨k, kindCode_of_kindOf hk, by simpa [hk] using h⟩

end Sys2Proof
end

