-- ==== Sys2Proof/Laws/Exec.lean ====
section
/-! SUPPORT. What each shared operation of the meanings can answer, said once: the read engine, the ends of a local operation, and
one step of the block. -/

namespace Sys2Proof.Machine

/-! ## Reading -/

/-- All that the engine's bit reads can answer (R112, R121, R122). -/
theorem readBits_cases (fc : Byte) (k : BitKind) (body : FixedBody) (s : State) :
    readBits fc k body s = raise fc .illegalDataValue s ∨
    readBits fc k body s = raise fc .illegalDataAddress s ∨
    ∃ start qty trailing bits, body = .fields start qty trailing ∧ 1 ≤ qty.toNat ∧ qty.toNat ≤ 2000 ∧
      rangeValues (s.area.bitBank k) start.toNat qty.toNat = some bits ∧
      readBits fc k body s =
        respond (.pdu (fc :: byteOfNat (bytesNeeded qty.toNat) :: packBits bits)) s := by
  cases body with
  | short b => exact .inl rfl
  | fields start qty trailing =>
    simp only [readBits]
    split
    · exact .inl rfl
    · rename_i hq
      cases hr : getRange (rangeMax (.bit k)) (s.area.bitBank k) start qty.toNat with
      | error e => exact .inr (.inl rfl)
      | ok regs =>
        obtain ⟨-, -, vs, hv, rfl⟩ := (getRange_eq_ok_iff _ _ _ _ _).1 hr
        refine .inr (.inr ⟨start, qty, trailing, vs, rfl, by omega, ?_, hv, ?_⟩)
        · simp only [Config.qmaxReadBits] at hq; omega
        · simp

/-- All that the engine's word reads can answer (R112, R123, R124). -/
theorem readWords_cases (fc : Byte) (k : WordKind) (body : FixedBody) (s : State) :
    readWords fc k body s = raise fc .illegalDataValue s ∨
    readWords fc k body s = raise fc .illegalDataAddress s ∨
    ∃ start qty trailing ws, body = .fields start qty trailing ∧ 1 ≤ qty.toNat ∧ qty.toNat ≤ 125 ∧
      rangeValues (s.area.wordBank k) start.toNat qty.toNat = some ws ∧
      readWords fc k body s = respond (.pdu (fc :: byteOfNat (2 * qty.toNat) :: wordsToBytes ws)) s := by
  cases body with
  | short b => exact .inl rfl
  | fields start qty trailing =>
    simp only [readWords]
    split
    · exact .inl rfl
    · rename_i hq
      cases hr : getRange (rangeMax (.word k)) (s.area.wordBank k) start qty.toNat with
      | error e => exact .inr (.inl rfl)
      | ok regs =>
        obtain ⟨-, -, vs, hv, rfl⟩ := (getRange_eq_ok_iff _ _ _ _ _).1 hr
        refine .inr (.inr ⟨start, qty, trailing, vs, rfl, by omega, ?_, hv, ?_⟩)
        · simp only [Config.qmaxReadRegs] at hq; omega
        · simp

/-! ## Writing -/

/-- All that WRITE_SINGLE_COIL can answer (R113, R127). -/
theorem execWriteSingleCoil_cases (body : FixedBody) (s : State) :
    execWriteSingleCoil body s = raise 0x05#8 .illegalDataValue s ∨
    execWriteSingleCoil body s = raise 0x05#8 .illegalDataAddress s ∨
    ∃ address value trailing v, body = .fields address value trailing ∧ coilValue value = some v ∧
      (bankAt s.area.coils address.toNat).isSome ∧
      execWriteSingleCoil body s =
        respond (echoPdu 0x05#8 address value) (s.setBitBank .coil (writeKey s.area.coils address.toNat v)) := by
  cases body with
  | short b => exact .inl rfl
  | fields address value trailing =>
    simp only [execWriteSingleCoil]
    cases hv : coilValue value with
    | none => exact .inl rfl
    | some v =>
      cases hw : writeOne s.area.coils address v with
      | error e => exact .inr (.inl (by simp [hw]))
      | ok b =>
        obtain ⟨hp, rfl⟩ := (writeOne_eq_ok_iff _ _ _ _).1 hw
        exact .inr (.inr ⟨address, value, trailing, v, rfl, hv, hp, by simp [hw]⟩)

/-- All that WRITE_SINGLE_REGISTER can answer (R128). -/
theorem execWriteSingleRegister_cases (body : FixedBody) (s : State) :
    execWriteSingleRegister body s = raise 0x06#8 .illegalDataValue s ∨
    execWriteSingleRegister body s = raise 0x06#8 .illegalDataAddress s ∨
    ∃ address value trailing, body = .fields address value trailing ∧
      (bankAt s.area.holdingRegisters address.toNat).isSome ∧
      execWriteSingleRegister body s = respond (echoPdu 0x06#8 address value)
        (s.setWordBank .holdingRegister (writeKey s.area.holdingRegisters address.toNat value)) := by
  cases body with
  | short b => exact .inl rfl
  | fields address value trailing =>
    simp only [execWriteSingleRegister]
    cases hw : writeOne s.area.holdingRegisters address value with
    | error e => exact .inr (.inl rfl)
    | ok b =>
      obtain ⟨hp, rfl⟩ := (writeOne_eq_ok_iff _ _ _ _).1 hw
      exact .inr (.inr ⟨address, value, trailing, rfl, hp, rfl⟩)

/-- All that WRITE_MULTIPLE_COILS can answer (R129). -/
theorem execWriteMultipleCoils_cases (body : MultiBody) (s : State) :
    execWriteMultipleCoils body s = raise 0x0F#8 .illegalDataValue s ∨
    execWriteMultipleCoils body s = raise 0x0F#8 .illegalDataAddress s ∨
    ∃ start qty byteCount data, body = .fields start qty byteCount data ∧ 1 ≤ qty.toNat ∧ qty.toNat ≤ 1968 ∧
      byteCount.toNat = bytesNeeded qty.toNat ∧ byteCount.toNat ≤ data.length ∧
      (rangeValues s.area.coils start.toNat qty.toNat).isSome ∧
      execWriteMultipleCoils body s = respond (echoPdu 0x0F#8 start qty)
        (s.setBitBank .coil (writeRange s.area.coils start.toNat
          (unpackBits (data.take byteCount.toNat) qty.toNat))) := by
  cases body with
  | short b => exact .inl rfl
  | fields start qty byteCount data =>
    simp only [execWriteMultipleCoils]
    split
    · exact .inl rfl
    · rename_i hq
      split
      · exact .inl rfl
      · rename_i hb
        cases hr : getRange (rangeMax (.bit .coil)) s.area.coils start qty.toNat with
        | error e => exact .inr (.inl rfl)
        | ok regs =>
          obtain ⟨-, -, vs, hv, rfl⟩ := (getRange_eq_ok_iff _ _ _ _ _).1 hr
          refine .inr (.inr ⟨start, qty, byteCount, data, rfl, by omega, ?_, by omega, by omega, by simp [hv], rfl⟩)
          simp only [Config.qmaxWriteCoils] at hq; omega

/-- All that WRITE_MULTIPLE_REGISTERS can answer (R130). -/
theorem execWriteMultipleRegisters_cases (body : MultiBody) (s : State) :
    execWriteMultipleRegisters body s = raise 0x10#8 .illegalDataValue s ∨
    execWriteMultipleRegisters body s = raise 0x10#8 .illegalDataAddress s ∨
    ∃ start qty byteCount data, body = .fields start qty byteCount data ∧ 1 ≤ qty.toNat ∧ qty.toNat ≤ 123 ∧
      byteCount.toNat = 2 * qty.toNat ∧ byteCount.toNat ≤ data.length ∧
      (rangeValues s.area.holdingRegisters start.toNat qty.toNat).isSome ∧
      execWriteMultipleRegisters body s = respond (echoPdu 0x10#8 start qty)
        (s.setWordBank .holdingRegister (writeRange s.area.holdingRegisters start.toNat
          (dataWords (data.take byteCount.toNat) qty.toNat))) := by
  cases body with
  | short b => exact .inl rfl
  | fields start qty byteCount data =>
    simp only [execWriteMultipleRegisters]
    split
    · exact .inl rfl
    · rename_i hq
      split
      · exact .inl rfl
      · rename_i hb
        cases hr : getRange (rangeMax (.word .holdingRegister)) s.area.holdingRegisters start qty.toNat with
        | error e => exact .inr (.inl rfl)
        | ok regs =>
          obtain ⟨-, -, vs, hv, rfl⟩ := (getRange_eq_ok_iff _ _ _ _ _).1 hr
          refine .inr (.inr ⟨start, qty, byteCount, data, rfl, by omega, ?_, by omega, by omega, by simp [hv], rfl⟩)
          simp only [Config.qmaxWriteRegs] at hq; omega

/-! ## The register file on port L -/

/-- All that L.INSERT can answer (R81). -/
theorem execLInsert_cases (a : Addr) (v : KindValue) (s : State) :
    (∃ e, execLInsert a v s = fail e s) ∨
    (∃ k b bank, v = .bit k b ∧ insertOne (cap (.bit k)) (s.area.bitBank k) a b = .ok bank ∧
      execLInsert a v s = succeed .none (s.setBitBank k bank)) ∨
    ∃ k w bank, v = .word k w ∧ insertOne (cap (.word k)) (s.area.wordBank k) a w = .ok bank ∧
      execLInsert a v s = succeed .none (s.setWordBank k bank) := by
  cases v with
  | bit k b =>
    simp only [execLInsert]
    cases h : insertOne (cap (.bit k)) (s.area.bitBank k) a b with
    | error e => exact .inl ⟨e, rfl⟩
    | ok bank => exact .inr (.inl ⟨k, b, bank, rfl, h, rfl⟩)
  | word k w =>
    simp only [execLInsert]
    cases h : insertOne (cap (.word k)) (s.area.wordBank k) a w with
    | error e => exact .inl ⟨e, rfl⟩
    | ok bank => exact .inr (.inr ⟨k, w, bank, rfl, h, rfl⟩)

/-- All that L.WRITE_ONE can answer (R93). -/
theorem execLWriteOne_cases (a : Addr) (v : KindValue) (s : State) :
    (∃ e, execLWriteOne a v s = fail e s) ∨
    (∃ k b, v = .bit k b ∧ (bankAt (s.area.bitBank k) a.toNat).isSome ∧
      execLWriteOne a v s = succeed .none (s.setBitBank k (writeKey (s.area.bitBank k) a.toNat b))) ∨
    ∃ k w, v = .word k w ∧ (bankAt (s.area.wordBank k) a.toNat).isSome ∧
      execLWriteOne a v s = succeed .none (s.setWordBank k (writeKey (s.area.wordBank k) a.toNat w)) := by
  cases v with
  | bit k b =>
    simp only [execLWriteOne]
    cases h : writeOne (s.area.bitBank k) a b with
    | error e => exact .inl ⟨e, rfl⟩
    | ok bank =>
      obtain ⟨hp, rfl⟩ := (writeOne_eq_ok_iff _ _ _ _).1 h
      exact .inr (.inl ⟨k, b, rfl, hp, rfl⟩)
  | word k w =>
    simp only [execLWriteOne]
    cases h : writeOne (s.area.wordBank k) a w with
    | error e => exact .inl ⟨e, rfl⟩
    | ok bank =>
      obtain ⟨hp, rfl⟩ := (writeOne_eq_ok_iff _ _ _ _).1 h
      exact .inr (.inr ⟨k, w, rfl, hp, rfl⟩)

/-- All that L.GENERATE can answer (R84). -/
theorem execLGenerate_cases (kind : Kind) (p : Pattern) (a : Addr) (n : Word) (s : State) :
    (∃ e, execLGenerate kind p a n s = fail e s) ∨
    (∃ k gen bank, kind = .bit k ∧ genBit p s.draws = some gen ∧
      generateBank (cap (.bit k)) (s.area.bitBank k) a n.toNat gen = .ok bank ∧
      execLGenerate kind p a n s =
        succeed .none (({ s with draws := drawsAfter p n.toNat s.draws } : State).setBitBank k bank)) ∨
    ∃ k bank, kind = .word k ∧
      generateBank (cap (.word k)) (s.area.wordBank k) a n.toNat (genWord p n.toNat s.draws) = .ok bank ∧
      execLGenerate kind p a n s =
        succeed .none (({ s with draws := drawsAfter p n.toNat s.draws } : State).setWordBank k bank) := by
  cases kind with
  | bit k =>
    simp only [execLGenerate]
    cases hg : genBit p s.draws with
    | none => exact .inl ⟨_, rfl⟩
    | some gen =>
      cases h : generateBank (cap (.bit k)) (s.area.bitBank k) a n.toNat gen with
      | error e => exact .inl ⟨e, by simp [h]⟩
      | ok bank => exact .inr (.inl ⟨k, gen, bank, rfl, rfl, h, by simp [h]⟩)
  | word k =>
    simp only [execLGenerate]
    cases h : generateBank (cap (.word k)) (s.area.wordBank k) a n.toNat (genWord p n.toNat s.draws) with
    | error e => exact .inl ⟨e, rfl⟩
    | ok bank => exact .inr (.inr ⟨k, bank, rfl, h, rfl⟩)

/-- L.GET_RANGE ends with an answer and changes nothing else (R89). -/
theorem execLGetRange_answers (k : Kind) (a : Addr) (n : Word) (s : State) :
    ∃ r, execLGetRange k a n s = respond r s := by
  cases k with
  | bit k =>
    simp only [execLGetRange]
    cases getRange (rangeMax (.bit k)) (s.area.bitBank k) a n.toNat <;> exact ⟨_, rfl⟩
  | word k =>
    simp only [execLGetRange]
    cases getRange (rangeMax (.word k)) (s.area.wordBank k) a n.toNat <;> exact ⟨_, rfl⟩

/-- L.GET_ONE ends with an answer and changes nothing else (R92). -/
theorem execLGetOne_answers (k : Kind) (a : Addr) (s : State) : ∃ r, execLGetOne k a s = respond r s := by
  cases k with
  | bit k =>
    simp only [execLGetOne]
    cases getOne (s.area.bitBank k) a <;> exact ⟨_, rfl⟩
  | word k =>
    simp only [execLGetOne]
    cases getOne (s.area.wordBank k) a <;> exact ⟨_, rfl⟩

/-- L.MBAP_PARSE ends with an answer and changes nothing else (R135). -/
theorem execLMbapParse_answers (b : List Byte) (s : State) : ∃ r, execLMbapParse b s = respond r s := by
  simp only [execLMbapParse]
  cases mbapParse b <;> exact ⟨_, rfl⟩

/-- All that L.UNPACK_BITS can do (R98, D21). -/
theorem execLUnpackBits_cases (n : Word) (d : List Byte) (s : State) :
    (bytesNeeded n.toNat ≤ d.length ∧ execLUnpackBits n d s = succeed (.bits (unpackBits d n.toNat)) s) ∨
    (d.length < bytesNeeded n.toNat ∧ execLUnpackBits n d s = .refused .unpackDataTooShort) := by
  simp only [execLUnpackBits]
  split
  · rename_i h; exact .inr ⟨h, rfl⟩
  · rename_i h; exact .inl ⟨Nat.le_of_not_lt h, rfl⟩

/-- All that L.MBAP_FRAME can do (R137, R76). -/
theorem execLMbapFrame_cases (m : MbapHeader) (r : List Byte) (s : State) :
    ((1 ≤ r.length ∧ r.length ≤ Config.pduMax) ∧ execLMbapFrame m r s = succeed (.bytes (mbapFrame m r)) s) ∨
    ((r.length = 0 ∨ Config.pduMax < r.length) ∧ execLMbapFrame m r s = .refused .framePduLength) := by
  simp only [execLMbapFrame]
  split
  · rename_i h; exact .inr ⟨h, rfl⟩
  · rename_i h; exact .inl ⟨by omega, rfl⟩

/-- L.RESERVED is refused on every path (R76). -/
theorem execLReserved_refuses (w : CommandWord) (x : Operand) (s : State) :
    ∃ e, execLReserved w x s = .refused e := by
  simp only [execLReserved]
  split
  · exact ⟨_, rfl⟩
  · split <;> exact ⟨_, rfl⟩

/-! ## One step -/

/-- The transaction that the block chooses is an outstanding one (R34). -/
theorem choose_mem {n : Nat} {l : List (Nat × Transaction)} {e : Nat × Transaction} (h : choose n l = some e) :
    e ∈ l := by
  match l, h with
  | [e'], h => simp [choose] at h; simp [h]
  | e' :: e'' :: rest, h =>
    simp only [choose, Option.some.injEq] at h
    have hlt : Config.arbiter n % (rest.length + 2) < (e' :: e'' :: rest).length := Nat.mod_lt _ (by omega)
    rw [List.getD_eq_getElem _ _ hlt] at h
    exact h ▸ List.getElem_mem hlt

/-- While a transaction is outstanding the block chooses one (R34). -/
theorem choose_eq_none_iff (n : Nat) (l : List (Nat × Transaction)) : choose n l = none ↔ l = [] := by
  match l with
  | [] => simp [choose]
  | [e] => simp [choose]
  | e :: e' :: rest => simp [choose]

/-- All that one step can do when it answers a next state: nothing, for want of a transaction, or perform one. -/
theorem step_cases {s s' : State} (h : step s = .next s') :
    (s.pending = [] ∧ s' = s) ∨
    ∃ r t i u, choose s.turns s.pending = some (r, t) ∧ (r, t) ∈ s.pending ∧ decode t = .ok i ∧
      exec i (s.take r) = .next u ∧ s' = u.deliver r := by
  simp only [step] at h
  cases hc : choose s.turns s.pending with
  | none =>
    simp only [hc, Host.Outcome.next.injEq] at h
    exact .inl ⟨(choose_eq_none_iff _ _).1 hc, h.symm⟩
  | some e =>
    obtain ⟨r, t⟩ := e
    simp only [hc, perform] at h
    cases hd : decode t with
    | error e => simp [hd] at h
    | ok i =>
      simp only [hd] at h
      cases he : exec i (s.take r) with
      | fault f => cases f
      | refused x => simp [he] at h
      | next u =>
        simp only [he, Host.Outcome.next.injEq] at h
        exact .inr ⟨r, t, i, u, rfl, choose_mem hc, hd, he, h.symm⟩

end Sys2Proof.Machine
end

