-- ==== Sys2Proof/Laws/Ranges.lean ====
section
/-! SUPPORT. Further laws of the banks: which branch of an operation is taken when, writing twice, generating as repeated inserting
(spec/40_register_file.md, spec/20_memory.md R45). -/

namespace Sys2Proof.Machine

variable {α : Type}

/-! ## Ranges and sizes -/

/-- A fully present range of a legal length is answered (R89). -/
theorem getRange_eq_ok {α} {m} {b : Bank α} {a n vs} (h1 : 1 ≤ n) (h2 : n ≤ m) (hv : rangeValues b a.toNat n = some vs) : getRange m b a n = .ok (numbered a.toNat vs) :=
  (getRange_eq_ok_iff _ _ _ _ _).2 ⟨h1, h2, vs, hv, rfl⟩

/-- A range that is not fully present is an error (R89, R90). -/
theorem getRange_eq_error {α} {m} {b : Bank α} {a n} (h : ¬ (rangeValues b a.toNat n).isSome) : ∃ e, getRange m b a n = .error e := by
  cases h' : getRange m b a n with
  | error e => exact ⟨e, rfl⟩
  | ok r => obtain ⟨_, _, vs, hv, _⟩ := (getRange_eq_ok_iff _ _ _ _ _).1 h'; simp [hv] at h

/-- What `size` reads after a boolean bank was replaced (R9). -/
theorem size_setBitBank (d : DataArea) (k b K) : (d.setBitBank k b).size K = if K = .bit k then b.length else d.size K := by
  cases K with
  | bit k' => by_cases h : k' = k <;> simp [DataArea.size, h]
  | word k' => simp [DataArea.size]

/-- What `size` reads after a word bank was replaced (R9). -/
theorem size_setWordBank (d : DataArea) (k b K) : (d.setWordBank k b).size K = if K = .word k then b.length else d.size K := by
  cases K with
  | word k' => by_cases h : k' = k <;> simp [DataArea.size, h]
  | bit k' => simp [DataArea.size]

/-- Writing adds and removes no register (R20). -/
theorem writeRange_length {α} (b : Bank α) (s vs) : (writeRange b s vs).length = b.length := by
  rw [← List.length_map (f := Prod.fst), writeRange_keys, List.length_map]

/-- Writing a range leaves populated what was populated, and nothing else (R20). -/
theorem bankAt_writeRange_isSome {α} (b : Bank α) (st vs n) : (bankAt (writeRange b st vs) n).isSome = (bankAt b n).isSome := by
  rw [bankAt_writeRange]
  split
  · rename_i h
    have : n - st < vs.length := by omega
    simp [h.2.2, this]
  · rfl

/-! ## One register -/

/-- Writing one boolean register changes that register and no other (R93). -/
theorem reg_setBitBank_writeKey (d : DataArea) (k a v) (h : (d.reg (.bit k) a).isSome) (K n) : (d.setBitBank k (writeKey (d.bitBank k) a v)).reg K n = if K = .bit k ∧ n = a then some (.bit v) else d.reg K n := by
  rw [reg_setBitBank]
  simp only [DataArea.reg_bit, Option.isSome_map] at h
  by_cases hK : K = .bit k
  · subst hK; by_cases hn : n = a
    · subst hn; simp [bankAt_writeKey, h]
    · simp [bankAt_writeKey, hn, DataArea.reg_bit]
  · simp [hK]

/-- Writing one word register changes that register and no other (R93). -/
theorem reg_setWordBank_writeKey (d : DataArea) (k a v) (h : (d.reg (.word k) a).isSome) (K n) : (d.setWordBank k (writeKey (d.wordBank k) a v)).reg K n = if K = .word k ∧ n = a then some (.word v) else d.reg K n := by
  rw [reg_setWordBank]
  simp only [DataArea.reg_word, Option.isSome_map] at h
  by_cases hK : K = .word k
  · subst hK; by_cases hn : n = a
    · subst hn; simp [bankAt_writeKey, h]
    · simp [bankAt_writeKey, hn, DataArea.reg_word]
  · simp [hK]

/-- A boolean register that exists is written (R93). -/
theorem writeOne_bitBank (d : DataArea) (k) (a : Addr) (v) (h : (d.reg (.bit k) a.toNat).isSome) : writeOne (d.bitBank k) a v = .ok (writeKey (d.bitBank k) a.toNat v) := by
  rw [writeOne_eq_ok_iff]; simpa [DataArea.reg_bit] using h

/-- A word register that exists is written (R93). -/
theorem writeOne_wordBank (d : DataArea) (k) (a : Addr) (v) (h : (d.reg (.word k) a.toNat).isSome) : writeOne (d.wordBank k) a v = .ok (writeKey (d.wordBank k) a.toNat v) := by
  rw [writeOne_eq_ok_iff]; simpa [DataArea.reg_word] using h

/-- A boolean register that does not exist is NotFound (R93). -/
theorem writeOne_bitBank_absent (d : DataArea) (k) (a : Addr) (v) (h : d.reg (.bit k) a.toNat = none) : writeOne (d.bitBank k) a v = .error .notFound := by
  rw [writeOne_eq_error_iff]; simpa [DataArea.reg_bit] using h

/-- A word register that does not exist is NotFound (R93). -/
theorem writeOne_wordBank_absent (d : DataArea) (k) (a : Addr) (v) (h : d.reg (.word k) a.toNat = none) : writeOne (d.wordBank k) a v = .error .notFound := by
  rw [writeOne_eq_error_iff]; simpa [DataArea.reg_word] using h

/-! ## Generate -/

/-- Only Random uses draws, one a register (R85, D13). -/
theorem drawsAfter_eq (p : Pattern) (count draws : Nat) :
    drawsAfter p count draws = if p = .random then draws + count else draws := by cases p <;> rfl

/-- Generate into too little room (R84, R87). -/
theorem generateBank_full {α} {m : Nat} {b : Bank α} {a : Addr} {n : Nat} {g : Nat → α} (h : m < n ∨ m - b.length < n) : generateBank m b a n g = .error .capacityExceeded := by
  simp only [generateBank, if_pos h]

/-- Generate past 0xFFFF (R84). -/
theorem generateBank_past {α} {m : Nat} {b : Bank α} {a : Addr} {n : Nat} {g : Nat → α} (h : ¬ (m < n ∨ m - b.length < n)) (h2 : 0 < n ∧ 0xFFFF < a.toNat + n - 1) : generateBank m b a n g = .error .outOfRange := by
  simp only [generateBank, if_neg h]; exact if_pos h2

/-- Generate onto a populated address (R84). -/
theorem generateBank_collides {α} {m : Nat} {b : Bank α} {a : Addr} {n : Nat} {g : Nat → α} (h : ¬ (m < n ∨ m - b.length < n)) (h2 : ¬ (0 < n ∧ 0xFFFF < a.toNat + n - 1)) (h3 : ∃ i < n, (bankAt b (a.toNat + i)).isSome) : generateBank m b a n g = .error .duplicateAddress := by
  simp only [generateBank, if_neg h]; refine (if_neg h2).trans (if_pos ?_)
  obtain ⟨i, hi, h⟩ := h3
  exact List.any_eq_true.2 ⟨i, List.mem_range.2 hi, h⟩

/-- Generate into free room (R84, R88). -/
theorem generateBank_free {α} {m : Nat} {b : Bank α} {a : Addr} {n : Nat} {g : Nat → α} (h : ¬ (m < n ∨ m - b.length < n)) (h2 : ¬ (0 < n ∧ 0xFFFF < a.toNat + n - 1)) (h3 : ¬ ∃ i < n, (bankAt b (a.toNat + i)).isSome) : generateBank m b a n g = .ok (populate b a.toNat n g) := by
  rw [generateBank_eq_ok_iff]
  refine ⟨by omega, by omega, by simp only [Config.maxAddress]; omega, fun i hi => ?_, rfl⟩
  by_contra hc
  exact h3 ⟨i, hi, Option.isSome_iff_ne_none.2 hc⟩

/-- Generating adds `n` registers (R88). -/
theorem populate_length_free {α} {b : Bank α} {a : Addr} {n : Nat} {g : Nat → α} (h2 : ¬ (0 < n ∧ 0xFFFF < a.toNat + n - 1)) (h3 : ¬ ∃ i < n, (bankAt b (a.toNat + i)).isSome) : (populate b a.toNat n g).length = b.length + n := by
  apply populate_length
  intro i hi
  rw [← bankAt_of_le b (by simp only [Config.maxAddress]; omega)]
  by_contra hc
  exact h3 ⟨i, hi, Option.isSome_iff_ne_none.2 hc⟩

/-- What a bank reads after generate, for an interval that ends by 0xFFFF (R88). -/
theorem bankAt_populate_fits {α} {b : Bank α} {a : Addr} {n : Nat} {g : Nat → α} (h2 : ¬ (0 < n ∧ 0xFFFF < a.toNat + n - 1)) (m : Nat) : bankAt (populate b a.toNat n g) m = if a.toNat ≤ m ∧ m < a.toNat + n then some (g (m - a.toNat)) else bankAt b m := by
  by_cases h0 : n = 0
  · subst h0; simp [populate]
  · exact bankAt_populate _ _ _ _ _ (by simp only [Config.maxAddress]; omega)

/-- Two ascending lists that read alike are one list (R18). -/
theorem ascending_ext {α} {l l' : List (Nat × α)} (h : ascending l) (h' : ascending l') (he : ∀ k, lookupKey l k = lookupKey l' k) : l = l' := by
  induction l generalizing l' with
  | nil =>
    cases l' with
    | nil => rfl
    | cons e r => obtain ⟨k, v⟩ := e; have := he k; simp [lookupKey_cons] at this
  | cons e r ih =>
    obtain ⟨k, v⟩ := e
    cases l' with
    | nil => have := he k; simp [lookupKey_cons] at this
    | cons e' r' =>
      obtain ⟨k', v'⟩ := e'
      have h1 := List.pairwise_cons.1 h
      have h1' := List.pairwise_cons.1 h'
      have hne : ∀ x, x ≤ k → lookupKey r x = none := fun x hx => (lookupKey_eq_none_iff _ _).2 fun e he hx' => by
        have := h1.1 e.1 (List.mem_map_of_mem he); simp at this; omega
      have hne' : ∀ x, x ≤ k' → lookupKey r' x = none := fun x hx => (lookupKey_eq_none_iff _ _).2 fun e he hx' => by
        have := h1'.1 e.1 (List.mem_map_of_mem he); simp at this; omega
      have hk : k = k' := by
        rcases Nat.lt_trichotomy k k' with hlt | heq | hgt
        · have := he k; simp [lookupKey_cons, hne' k (by omega)] at this; omega
        · exact heq
        · have := he k'; simp [lookupKey_cons, hne k' (by omega)] at this; omega
      subst hk
      have hv : v = v' := by have := he k; simpa [lookupKey_cons] using this
      subst hv
      congr 1
      refine ih h1.2 h1'.2 fun x => ?_
      by_cases hx : k = x
      · subst hx; rw [hne _ (le_refl _), hne' _ (le_refl _)]
      · have := he x; simpa [lookupKey_cons, hx] using this

/-- Generating one register more is one insert more (R88). -/
theorem populate_succ {α} (b : Bank α) (hb : ascending b) (st i : Nat) (g : Nat → α) : populate b st (i+1) g = placeKey (populate b st i g) (st + i) (g i) := by
  have hl : ∀ b : Bank α, ∀ l : List Nat, i ∉ l → ∀ k, lookupKey (l.foldr (fun i acc => placeKey acc (st + i) (g i)) (placeKey b (st+i) (g i))) k = if k = st + i then some (g i) else lookupKey (l.foldr (fun i acc => placeKey acc (st + i) (g i)) b) k := by
    intro b l hl k
    induction l with
    | nil => simp
    | cons j l ih =>
      simp only [List.mem_cons, not_or] at hl
      simp only [List.foldr_cons, lookupKey_placeKey]
      rw [ih hl.2]
      by_cases h1 : k = st + j
      · subst h1; have : st + j ≠ st + i := by omega
        rw [if_pos rfl, if_neg this, if_pos rfl]
      · simp [h1]
  apply ascending_ext (populate_ascending _ _ _ hb) (placeKey_ascending _ _ (populate_ascending _ _ _ hb))
  intro k
  rw [lookupKey_placeKey]
  simp only [populate, List.range_succ, List.foldr_append, List.foldr_cons, List.foldr_nil]
  exact hl b _ (by simp) k

/-! ## Writing twice -/

/-- Writing twice is writing once (R45). -/
theorem writeKey_writeKey {α} (b : Bank α) (k : Nat) (v : α) : writeKey (writeKey b k v) k v = writeKey b k v := by
  induction b with
  | nil => rfl
  | cons e r ih => obtain ⟨k', v'⟩ := e; by_cases h : k' = k <;> simp [writeKey, h, ih]

/-- Writes to two keys commute. -/
theorem writeKey_comm {α} (b : Bank α) (k k' : Nat) (v v' : α) (hk : k ≠ k') : writeKey (writeKey b k v) k' v' = writeKey (writeKey b k' v') k v := by
  induction b with
  | nil => rfl
  | cons e r ih =>
    obtain ⟨q, w⟩ := e
    by_cases h : q = k
    · subst h; simp [writeKey, hk, ih]
    · by_cases h' : q = k'
      · subst h'; simp [writeKey, h, ih]
      · simp [writeKey, h, h', ih]

/-- A write below a range commutes with writing the range. -/
theorem writeRange_writeKey_comm {α} (b : Bank α) (k : Nat) (v : α) (st : Nat) (vs : List α) (hk : k < st) : writeRange (writeKey b k v) st vs = writeKey (writeRange b st vs) k v := by
  induction vs generalizing b st with
  | nil => rfl
  | cons w ws ih => simp only [writeRange]; rw [writeKey_comm _ _ _ _ _ (by omega), ih _ _ (by omega)]

/-- Writing a range twice is writing it once (R45). -/
theorem writeRange_writeRange {α} (b : Bank α) (st : Nat) (vs : List α) : writeRange (writeRange b st vs) st vs = writeRange b st vs := by
  induction vs generalizing b st with
  | nil => rfl
  | cons w ws ih =>
    simp only [writeRange]
    rw [writeRange_writeKey_comm b _ _ _ _ (by omega), writeKey_writeKey, ← writeRange_writeKey_comm _ _ _ _ _ (by omega), ih]

/-- A write that succeeded succeeds again and changes nothing more (R45). -/
theorem writeOne_again {α} {b b' : Bank α} {a : Addr} {v} (h : writeOne b a v = .ok b') : writeOne b' a v = .ok b' := by
  obtain ⟨h1, rfl⟩ := (writeOne_eq_ok_iff _ _ _ _).1 h
  rw [writeOne_eq_ok_iff]
  exact ⟨by rw [bankAt_writeKey, if_pos ⟨rfl, h1⟩]; rfl, (writeKey_writeKey _ _ _).symm⟩

/-! ## Populating keeps what is there -/

/-- Insert keeps the registers there are, and their values (R20). -/
theorem insertOne_keeps {m : Nat} {b b' : Bank α} {a : Addr} {v w : α} (h : insertOne m b a v = .ok b') (n : Nat)
    (hw : bankAt b n = some w) : bankAt b' n = some w := by
  obtain ⟨-, hn, rfl⟩ := (insertOne_eq_ok_iff _ _ _ _ _).1 h
  rw [bankAt_placeKey _ _ _ (addr_le a), if_neg]
  · exact hw
  · rintro rfl; rw [hn] at hw; cases hw

/-- Generate keeps the registers there are, and their values (R20). -/
theorem generateBank_keeps {m : Nat} {b b' : Bank α} {a : Addr} {c : Nat} {g : Nat → α} {w : α}
    (h : generateBank m b a c g = .ok b') (n : Nat) (hw : bankAt b n = some w) : bankAt b' n = some w := by
  obtain ⟨-, -, hr, hn, rfl⟩ := (generateBank_eq_ok_iff _ _ _ _ _ _).1 h
  rw [bankAt_populate _ _ _ _ _ (by have := addr_le a; omega), if_neg]
  · exact hw
  · rintro ⟨h1, h2⟩
    have := hn (n - a.toNat) (by omega)
    rw [show a.toNat + (n - a.toNat) = n by omega, hw] at this
    cases this

end Sys2Proof.Machine
end

