-- ==== Sys2Proof/Laws/Effects.lean ====
section
/-! SUPPORT. All that one instruction can do to the Data Area, said once (spec/10_state.md R20 to R22), and one step of a run. -/

namespace Sys2Proof.Machine

/-! ## Fully present ranges -/

/-- A range of boolean registers is fully present when `rangeValues` finds it (R13, R47). -/
theorem fullyPresent_bit_iff (d : DataArea) (k start n) : fullyPresent d (.bit k) start n ↔ (rangeValues (d.bitBank k) start n).isSome := by
  simp [fullyPresent, DataArea.reg_bit, rangeValues_isSome_iff]

/-- A range of word registers is fully present when `rangeValues` finds it (R13, R47). -/
theorem fullyPresent_word_iff (d : DataArea) (k start n) : fullyPresent d (.word k) start n ↔ (rangeValues (d.wordBank k) start n).isSome := by
  simp [fullyPresent, DataArea.reg_word, rangeValues_isSome_iff]

/-! ## What exec can do -/

/-- `AreaChange d i d'`: instruction `i` may turn the Data Area `d` into `d'`: leave it, write registers of its kind, insert one, or
generate some. -/
inductive AreaChange (d : DataArea) (i : Instr) : DataArea → Prop where
  | same : AreaChange d i d
  | bitWrites (k : BitKind) (start : Nat) (vs : List Bool) : writes i = true → actsOn i = some (.bit k) →
      AreaChange d i (d.setBitBank k (writeRange (d.bitBank k) start vs))
  | wordWrites (k : WordKind) (start : Nat) (vs : List Word) : writes i = true → actsOn i = some (.word k) →
      AreaChange d i (d.setWordBank k (writeRange (d.wordBank k) start vs))
  | bitInsert (k : BitKind) (a : Addr) (v : Bool) (b : Bank Bool) : populates i = true → actsOn i = some (.bit k) →
      insertOne (cap (.bit k)) (d.bitBank k) a v = .ok b → AreaChange d i (d.setBitBank k b)
  | wordInsert (k : WordKind) (a : Addr) (v : Word) (b : Bank Word) : populates i = true → actsOn i = some (.word k) →
      insertOne (cap (.word k)) (d.wordBank k) a v = .ok b → AreaChange d i (d.setWordBank k b)
  | bitGen (k : BitKind) (a : Addr) (n : Nat) (g : Nat → Bool) (b : Bank Bool) : populates i = true →
      actsOn i = some (.bit k) → generateBank (cap (.bit k)) (d.bitBank k) a n g = .ok b →
      AreaChange d i (d.setBitBank k b)
  | wordGen (k : WordKind) (a : Addr) (n : Nat) (g : Nat → Word) (b : Bank Word) : populates i = true →
      actsOn i = some (.word k) → generateBank (cap (.word k)) (d.wordBank k) a n g = .ok b →
      AreaChange d i (d.setWordBank k b)

theorem respond_change {i : Instr} {s t : State} {r : Response} (h : respond r s = .next t) :
    ∃ d k r, t = { s with area := d, draws := k, response := some r } ∧ AreaChange s.area i d := by
  cases h; exact ⟨_, _, _, rfl, .same⟩

/-- All that an instruction can do when it answers a next state: the Data Area changes as `AreaChange` says, the draws may advance, and
there is an answer; nothing else changes. -/
theorem exec_change {i : Instr} {s t : State} (h : exec i s = .next t) :
    ∃ d k r, t = { s with area := d, draws := k, response := some r } ∧ AreaChange s.area i d := by
  cases i with
  | readCoils b => 
    simp only [exec, execReadCoils] at h
    rcases readBits_cases 0x01#8 .coil b s with h1 | h1 | ⟨_, _, _, _, _, _, _, _, h1⟩ <;> rw [h1] at h <;> exact respond_change h
  | readDiscreteInputs b => 
    simp only [exec, execReadDiscreteInputs] at h
    rcases readBits_cases 0x02#8 .discreteInput b s with h1 | h1 | ⟨_, _, _, _, _, _, _, _, h1⟩ <;> rw [h1] at h <;> exact respond_change h
  | readHoldingRegisters b => 
    simp only [exec, execReadHoldingRegisters] at h
    rcases readWords_cases 0x03#8 .holdingRegister b s with h1 | h1 | ⟨_, _, _, _, _, _, _, _, h1⟩ <;> rw [h1] at h <;> exact respond_change h
  | readInputRegisters b => 
    simp only [exec, execReadInputRegisters] at h
    rcases readWords_cases 0x04#8 .inputRegister b s with h1 | h1 | ⟨_, _, _, _, _, _, _, _, h1⟩ <;> rw [h1] at h <;> exact respond_change h
  | writeSingleCoil b =>
    simp only [exec] at h
    rcases execWriteSingleCoil_cases b s with h1 | h1 | ⟨a, v, tr, x, _, _, _, h1⟩ <;> rw [h1] at h 
    · exact respond_change h
    · exact respond_change h
    · cases h; exact ⟨_, _, _, rfl, .bitWrites .coil a.toNat [x] rfl rfl⟩
  | writeSingleRegister b =>
    simp only [exec] at h
    rcases execWriteSingleRegister_cases b s with h1 | h1 | ⟨a, v, tr, _, _, h1⟩ <;> rw [h1] at h 
    · exact respond_change h
    · exact respond_change h
    · cases h; exact ⟨_, _, _, rfl, .wordWrites .holdingRegister a.toNat [v] rfl rfl⟩
  | writeMultipleCoils b =>
    simp only [exec] at h
    rcases execWriteMultipleCoils_cases b s with h1 | h1 | ⟨a, v, tr, x, _, _, _, _, _, _, h1⟩ <;> rw [h1] at h 
    · exact respond_change h
    · exact respond_change h
    · cases h; exact ⟨_, _, _, rfl, .bitWrites .coil _ _ rfl rfl⟩
  | writeMultipleRegisters b =>
    simp only [exec] at h
    rcases execWriteMultipleRegisters_cases b s with h1 | h1 | ⟨a, v, tr, x, _, _, _, _, _, _, h1⟩ <;> rw [h1] at h 
    · exact respond_change h
    · exact respond_change h
    · cases h; exact ⟨_, _, _, rfl, .wordWrites .holdingRegister _ _ rfl rfl⟩
  | lInsert a v =>
    simp only [exec] at h
    rcases execLInsert_cases a v s with ⟨e, h1⟩ | ⟨k, b, bank, rfl, hi, h1⟩ | ⟨k, b, bank, rfl, hi, h1⟩ <;> rw [h1] at h
    · exact respond_change h
    · cases h; exact ⟨_, _, _, rfl, .bitInsert k _ _ _ rfl rfl hi⟩
    · cases h; exact ⟨_, _, _, rfl, .wordInsert k _ _ _ rfl rfl hi⟩
  | lGenerate K p a n =>
    simp only [exec] at h
    rcases execLGenerate_cases K p a n s with ⟨e, h1⟩ | ⟨k, b, bank, rfl, _, hi, h1⟩ | ⟨k, bank, rfl, hi, h1⟩ <;> rw [h1] at h
    · exact respond_change h
    · cases h; exact ⟨_, _, _, rfl, .bitGen k _ _ _ _ rfl rfl hi⟩
    · cases h; exact ⟨_, _, _, rfl, .wordGen k _ _ _ _ rfl rfl hi⟩
  | lWriteOne a v =>
    simp only [exec] at h
    rcases execLWriteOne_cases a v s with ⟨e, h1⟩ | ⟨k, b, rfl, hi, h1⟩ | ⟨k, b, rfl, hi, h1⟩ <;> rw [h1] at h
    · exact respond_change h
    · cases h; exact ⟨_, _, _, rfl, .bitWrites k a.toNat [b] rfl rfl⟩
    · cases h; exact ⟨_, _, _, rfl, .wordWrites k a.toNat [b] rfl rfl⟩
  | lGetRange k a n => obtain ⟨r, h1⟩ := execLGetRange_answers k a n s; simp only [exec, h1] at h; exact respond_change h
  | lGetOne k a => obtain ⟨r, h1⟩ := execLGetOne_answers k a s; simp only [exec, h1] at h; exact respond_change h
  | lMbapParse b => obtain ⟨r, h1⟩ := execLMbapParse_answers b s; simp only [exec, h1] at h; exact respond_change h
  | lReserved w x => obtain ⟨r, h1⟩ := execLReserved_refuses w x s; simp [exec, h1] at h
  | lUnpackBits n d => 
    simp only [exec, execLUnpackBits] at h
    split at h
    · cases h
    · exact respond_change h
  | lMbapFrame n d => 
    simp only [exec, execLMbapFrame] at h
    split at h
    · cases h
    · exact respond_change h
  | _ => exact respond_change h

/-- Memory keeps its canonical form (R80, R95). -/
theorem AreaChange.wf {d d' : DataArea} {i : Instr} (h : AreaChange d i d') (hw : Memory.wf d) : Memory.wf d' := by
  have hb := (DataArea.wf_iff d).1 hw
  cases h with
  | same => exact hw
  | bitWrites k => exact setBitBank_wf hw (writeRange_wf _ _ (hb.1 k))
  | wordWrites k => exact setWordBank_wf hw (writeRange_wf _ _ (hb.2 k))
  | bitInsert k _ _ _ _ _ h => exact setBitBank_wf hw (insertOne_wf h (hb.1 k))
  | wordInsert k _ _ _ _ _ h => exact setWordBank_wf hw (insertOne_wf h (hb.2 k))
  | bitGen k _ _ _ _ _ _ h => exact setBitBank_wf hw (generateBank_wf h (hb.1 k))
  | wordGen k _ _ _ _ _ _ h => exact setWordBank_wf hw (generateBank_wf h (hb.2 k))

/-- An instruction that does not populate adds and removes no register (R20). -/
theorem AreaChange.isSome_eq {d d' : DataArea} {i : Instr} (h : AreaChange d i d') (hp : populates i = false)
    (K : Kind) (n : Nat) : (d'.reg K n).isSome = (d.reg K n).isSome := by
  cases h with
  | same => rfl
  | bitWrites k =>
    rw [reg_setBitBank]; split
    · subst_vars; simp [DataArea.reg_bit, bankAt_writeRange_isSome]
    · rfl
  | wordWrites k =>
    rw [reg_setWordBank]; split
    · subst_vars; simp [DataArea.reg_word, bankAt_writeRange_isSome]
    · rfl
  | bitInsert k _ _ _ h1 => simp [hp] at h1
  | wordInsert k _ _ _ h1 => simp [hp] at h1
  | bitGen k _ _ _ _ h1 => simp [hp] at h1
  | wordGen k _ _ _ _ h1 => simp [hp] at h1

/-- An instruction that does not write keeps the value of every register there is (R20). -/
theorem AreaChange.keeps {d d' : DataArea} {i : Instr} (h : AreaChange d i d') (hp : writes i = false) (K : Kind)
    (n : Nat) (v : Value) (hv : d.reg K n = some v) : d'.reg K n = some v := by
  cases h with
  | same => exact hv
  | bitWrites k _ _ h1 => simp [hp] at h1
  | wordWrites k _ _ h1 => simp [hp] at h1
  | bitInsert k _ _ _ _ _ h =>
    rw [reg_setBitBank]; split
    · subst_vars
      obtain ⟨w, h1, rfl⟩ := Option.map_eq_some_iff.1 hv
      rw [insertOne_keeps h n h1]; rfl
    · exact hv
  | wordInsert k _ _ _ _ _ h =>
    rw [reg_setWordBank]; split
    · subst_vars
      obtain ⟨w, h1, rfl⟩ := Option.map_eq_some_iff.1 hv
      rw [insertOne_keeps h n h1]; rfl
    · exact hv
  | bitGen k _ _ _ _ _ _ h =>
    rw [reg_setBitBank]; split
    · subst_vars
      obtain ⟨w, h1, rfl⟩ := Option.map_eq_some_iff.1 hv
      rw [generateBank_keeps h n h1]; rfl
    · exact hv
  | wordGen k _ _ _ _ _ _ h =>
    rw [reg_setWordBank]; split
    · subst_vars
      obtain ⟨w, h1, rfl⟩ := Option.map_eq_some_iff.1 hv
      rw [generateBank_keeps h n h1]; rfl
    · exact hv

/-- No instruction both writes and populates (R20). -/
theorem populates_of_writes {i : Instr} (h : writes i = true) : populates i = false := by
  cases i <;> simp_all [writes, populates]

/-! ## What is not performed -/

/-- UNPACK_BITS is not performed on fewer than ceil8(n) bytes (R98). -/
theorem performed_lUnpackBits_eq_false_iff (n : Word) (d : List Byte) :
    performed (.lUnpackBits n d) = false ↔ d.length < (n.toNat + 7) / 8 := by
  show decide (bytesNeeded n.toNat ≤ d.length) = false ↔ _
  rw [decide_eq_false_iff_not]; simp [bytesNeeded]

/-- MBAP_FRAME is not performed on a response PDU that is not 1 to 253 bytes (R137). -/
theorem performed_lMbapFrame_eq_false_iff (m : MbapHeader) (r : List Byte) :
    performed (.lMbapFrame m r) = false ↔ r.length = 0 ∨ 253 < r.length := by
  show (decide (1 ≤ r.length) && decide (r.length ≤ Config.pduMax)) = false ↔ _
  cases r <;> simp; simp [Config.pduMax]

/-- Every request that the dispatch table selects is performed (R36). -/
theorem performed_dispatchRequest (fc : Byte) (p : List Byte) : performed (dispatchRequest fc p) = true := by
  simp only [dispatchRequest]
  repeat' split
  all_goals rfl

/-- With one transaction outstanding, that is the one performed. -/
theorem step_of_pending_singleton {s : State} {r : Nat} {t : Transaction} (h : s.pending = [(r, t)]) :
    step s = perform r t s := by
  simp [step, h, choose]

/-! ## Generated values -/

/-- Generate on a boolean kind has values exactly for the patterns that apply (R86). -/
theorem genBit_isSome (p : Pattern) (draws : Nat) (k : BitKind) : (genBit p draws).isSome = applicable (.bit k) p := by
  cases p <;> rfl

/-- The generated booleans are those of the table of R85, where it says a value. -/
theorem genBit_value {p : Pattern} {draws i count : Nat} {g : Nat → Bool} {k : BitKind} {v : Value}
    (hg : genBit p draws = some g) (hv : generatedValue (.bit k) p i count = some v) : v = .bit (g i) := by
  cases p <;> simp [genBit, generatedValue] at hg hv <;> subst hg <;> simp [hv]

/-- The generated words are those of the table of R85, where it says a value. -/
theorem genWord_value {p : Pattern} {draws i count : Nat} {k : WordKind} {v : Value}
    (hv : generatedValue (.word k) p i count = some v) : v = .word (genWord p count draws i) := by
  cases p <;> simp [generatedValue] at hv <;> subst hv <;> simp [genWord]

/-! ## Runs -/

/-- One step of a run. -/
theorem run_succ (M : Host.Core) (k : Nat) {s t : M.State} (h : M.step s = .next t) : M.run (k + 1) s = M.run k t := by
  show (match M.step s with | .next s' => M.run k s' | .fault r => .fault r | .refused r => .refused r) = _
  rw [h]

end Sys2Proof.Machine
end

