-- ==== Sys2Proof/Laws/PerInstr.lean ====
section
/-! SUPPORT. Statements made instruction by instruction: a well-formed instruction is encoded on its own port, a request of 1 to 253 bytes
or a local command (spec/10_state.md R32, R33; spec/30_encoding.md R57). -/

namespace Sys2Proof.Laws.EncodesOnItsPort

open Sys2Proof

/-- A well-formed instruction of port P is encoded as a request of 1 to 253 bytes, any other one as a local command. -/
def Statement (i : Instr) : Prop :=
  i.wf = true →
    match encode i with
    | .request req => i.isRequest = true ∧ 1 ≤ req.length ∧ req.length ≤ 253
    | .command _ _ => i.isRequest = false

theorem of_fixed {fc : Byte} {b : FixedBody} (h : b.wf = true) :
    1 ≤ (fc :: fixedBytes b).length ∧ (fc :: fixedBytes b).length ≤ 253 :=
  ⟨by simp, by simpa using fixedBytes_length_of_wf b h⟩

theorem of_multi {fc : Byte} {b : MultiBody} (h : b.wf = true) :
    1 ≤ (fc :: multiBytes b).length ∧ (fc :: multiBytes b).length ≤ 253 :=
  ⟨by simp, by simpa using multiBytes_length_of_wf b h⟩

theorem readCoils (body : FixedBody) : Statement (.readCoils body) := fun h => ⟨rfl, of_fixed h⟩
theorem readDiscreteInputs (body : FixedBody) : Statement (.readDiscreteInputs body) := fun h => ⟨rfl, of_fixed h⟩
theorem readHoldingRegisters (body : FixedBody) : Statement (.readHoldingRegisters body) := fun h => ⟨rfl, of_fixed h⟩
theorem readInputRegisters (body : FixedBody) : Statement (.readInputRegisters body) := fun h => ⟨rfl, of_fixed h⟩
theorem writeSingleCoil (body : FixedBody) : Statement (.writeSingleCoil body) := fun h => ⟨rfl, of_fixed h⟩
theorem writeSingleRegister (body : FixedBody) : Statement (.writeSingleRegister body) := fun h => ⟨rfl, of_fixed h⟩
theorem writeMultipleCoils (body : MultiBody) : Statement (.writeMultipleCoils body) := fun h => ⟨rfl, of_multi h⟩
theorem writeMultipleRegisters (body : MultiBody) : Statement (.writeMultipleRegisters body) := fun h => ⟨rfl, of_multi h⟩
theorem illegal (fc : Byte) (params : List Byte) : Statement (.illegal fc params) := by
  intro h
  simp only [Instr.wf, Bool.and_eq_true, Config.pduMax] at h
  exact ⟨rfl, by simp, by simpa using h.2⟩
theorem lInsert (addr : Addr) (reg : KindValue) : Statement (.lInsert addr reg) := fun _ => rfl
theorem lGenerate (kind : Kind) (pattern : Pattern) (start : Addr) (count : Word) : Statement (.lGenerate kind pattern start count) := fun _ => rfl
theorem lGetRange (kind : Kind) (start : Addr) (length : Word) : Statement (.lGetRange kind start length) := fun _ => rfl
theorem lGetOne (kind : Kind) (addr : Addr) : Statement (.lGetOne kind addr) := fun _ => rfl
theorem lWriteOne (addr : Addr) (reg : KindValue) : Statement (.lWriteOne addr reg) := fun _ => rfl
theorem lPackBits (bits : List Bool) : Statement (.lPackBits bits) := fun _ => rfl
theorem lUnpackBits (count : Word) (data : List Byte) : Statement (.lUnpackBits count data) := fun _ => rfl
theorem lBytesNeeded (count : Word) : Statement (.lBytesNeeded count) := fun _ => rfl
theorem lU16FromBe (hi lo : Byte) : Statement (.lU16FromBe hi lo) := fun _ => rfl
theorem lU16ToBe (value : Word) : Statement (.lU16ToBe value) := fun _ => rfl
theorem lExceptionPdu (fc code : Byte) : Statement (.lExceptionPdu fc code) := fun _ => rfl
theorem lFormatAddress (kind : Kind) (addr : Addr) : Statement (.lFormatAddress kind addr) := fun _ => rfl
theorem lMbapParse (bytes : List Byte) : Statement (.lMbapParse bytes) := fun _ => rfl
theorem lMbapSerialize (header : MbapHeader) : Statement (.lMbapSerialize header) := fun _ => rfl
theorem lMbapFrame (header : MbapHeader) (pdu : List Byte) : Statement (.lMbapFrame header pdu) := fun _ => rfl
theorem lReserved (word : CommandWord) (operand : Operand) : Statement (.lReserved word operand) := fun _ => rfl

end Sys2Proof.Laws.EncodesOnItsPort
end

