-- ==== Sys2Proof/Tests/Slice0.lean ====
section
/-! SUPPORT. Tests: ill-formed instructions that the check refuses, one word of every row decoded, single steps of
spec/95_test_vectors.md (the vector's name stands beside the test), and for every statement with hypotheses a concrete state and
operands that meet them. -/

namespace Sys2Proof.Tests

open Machine

/-- A list of `n` equal elements. -/
def copies {α : Type} (n : Nat) (x : α) : List α := List.replicate n x

@[simp] theorem copies_length {α : Type} (n : Nat) (x : α) : (copies n x).length = n := List.length_replicate

/-! ## WellFormed refuses ill-formed terms -/

theorem test_wf_short_fixed_body : Instr.wf (.readCoils (.short [0, 1, 0, 8])) = false := by decide
theorem test_wf_short_multi_body : Instr.wf (.writeMultipleCoils (.short [0, 0, 0, 1, 1])) = false := by decide
theorem test_wf_long_fixed_body : Instr.wf (.writeSingleCoil (.fields 0 0 (copies 249 0))) = false := by
  simp [Instr.wf, FixedBody.wf, Config.pduMax]
theorem test_wf_long_multi_body :
    Instr.wf (.writeMultipleRegisters (.fields 0 1 2 (copies 248 0))) = false := by
  simp [Instr.wf, MultiBody.wf, Config.pduMax]
theorem test_wf_illegal_supported : Instr.wf (.illegal 0x0F []) = false := by decide
theorem test_wf_illegal_long : Instr.wf (.illegal 0x2B (copies 253 0)) = false := by
  simp [Instr.wf, Config.pduMax]
theorem test_wf_reserved_matches_a_row : Instr.wf (.lReserved 0x3800000900000000 .absent) = false := by decide

/-! ## A word of every row, written out from R58 to R60 and R71 to R74 -/

theorem test_decode_read_coils :
    decode (.request [0x01, 0x00, 0x0F, 0x00, 0x0A]) = .ok (.readCoils (.fields 15 10 [])) := rfl
theorem test_decode_read_discrete_inputs :
    decode (.request [0x02, 0x12, 0x34, 0x07, 0xD0]) = .ok (.readDiscreteInputs (.fields 0x1234 2000 [])) := rfl
theorem test_decode_read_holding_registers :
    decode (.request [0x03, 0x00, 0x00, 0x00, 0x01, 0xAA, 0xBB]) =
      .ok (.readHoldingRegisters (.fields 0 1 [0xAA, 0xBB])) := rfl
theorem test_decode_read_input_registers :
    decode (.request [0x04, 0xFF, 0xFE, 0x00, 0x02]) = .ok (.readInputRegisters (.fields 0xFFFE 2 [])) := rfl
theorem test_decode_write_single_coil :
    decode (.request [0x05, 0x00, 0x01, 0xFF, 0x00]) = .ok (.writeSingleCoil (.fields 1 0xFF00 [])) := rfl
theorem test_decode_write_single_register :
    decode (.request [0x06, 0x00, 0x01, 0xAB, 0xCD]) = .ok (.writeSingleRegister (.fields 1 0xABCD [])) := rfl
theorem test_decode_write_multiple_coils :
    decode (.request [0x0F, 0x00, 0x02, 0x00, 0x0B, 0x02, 0xB5, 0x07]) =
      .ok (.writeMultipleCoils (.fields 2 11 2 [0xB5, 0x07])) := rfl
theorem test_decode_write_multiple_registers :
    decode (.request [0x10, 0x00, 0x64, 0x00, 0x01, 0x02, 0x12, 0x34]) =
      .ok (.writeMultipleRegisters (.fields 100 1 2 [0x12, 0x34])) := rfl
theorem test_decode_illegal : decode (.request [0x2B, 0x0E, 0x01, 0x00]) = .ok (.illegal 0x2B [0x0E, 0x01, 0x00]) := rfl
theorem test_decode_short_body : decode (.request [0x0F, 0, 0, 0, 1]) = .ok (.writeMultipleCoils (.short [0, 0, 0, 1])) := rfl
theorem test_decode_insert :
    decode (.command 0x0600000100005555 .absent) = .ok (.lInsert 1 (.word .inputRegister 0x5555)) := rfl
theorem test_decode_generate :
    decode (.command 0x1340000000010000 .absent) = .ok (.lGenerate (.bit .discreteInput) .max 0 1) := rfl
theorem test_decode_get_range :
    decode (.command 0x2600FFFF00020000 .absent) = .ok (.lGetRange (.word .inputRegister) 0xFFFF 2) := rfl
theorem test_decode_get_one :
    decode (.command 0x3800000900000000 .absent) = .ok (.lGetOne (.word .holdingRegister) 9) := rfl
theorem test_decode_write_one :
    decode (.command 0x4200000000000000 .absent) = .ok (.lWriteOne 0 (.bit .discreteInput false)) := rfl
theorem test_decode_pack_bits :
    decode (.command 0x5000000000000000 (.bits [true, false])) = .ok (.lPackBits [true, false]) := rfl
theorem test_decode_unpack_bits :
    decode (.command 0x60000000000A0000 (.bytes [0xCD, 0x01])) = .ok (.lUnpackBits 10 [0xCD, 0x01]) := rfl
theorem test_decode_bytes_needed : decode (.command 0x7000000007B00000 .absent) = .ok (.lBytesNeeded 1968) := rfl
theorem test_decode_u16_from_be :
    decode (.command 0x8000000000000000 (.bytes [0xAB, 0xCD])) = .ok (.lU16FromBe 0xAB 0xCD) := rfl
theorem test_decode_u16_to_be : decode (.command 0x900000000000FF00 .absent) = .ok (.lU16ToBe 0xFF00) := rfl
theorem test_decode_exception_pdu : decode (.command 0xA000000000002B01 .absent) = .ok (.lExceptionPdu 0x2B 0x01) := rfl
theorem test_decode_format_address :
    decode (.command 0xB800000700000000 .absent) = .ok (.lFormatAddress (.word .holdingRegister) 7) := rfl
theorem test_decode_mbap_parse :
    decode (.command 0xC000000000000000 (.bytes [1, 2, 3])) = .ok (.lMbapParse [1, 2, 3]) := rfl
theorem test_decode_mbap_serialize :
    decode (.command 0xD000000000000000 (.header ⟨1, 0, 6, 0x11⟩)) = .ok (.lMbapSerialize ⟨1, 0, 6, 0x11⟩) := rfl
theorem test_decode_mbap_frame :
    decode (.command 0xE000000000000000 (.headerAndPdu ⟨1, 0, 6, 0x11⟩ [0x81, 0x02])) =
      .ok (.lMbapFrame ⟨1, 0, 6, 0x11⟩ [0x81, 0x02]) := rfl
theorem test_decode_reserved_op :
    decode (.command 0xF000000000000000 .absent) = .ok (.lReserved 0xF000000000000000 .absent) := rfl
theorem test_decode_unread_field :
    decode (.command 0x3800000900010000 .absent) = .ok (.lReserved 0x3800000900010000 .absent) := rfl
/-- RF33. -/
theorem test_decode_boolean_value : decode (.command 0x0000000000000002 .absent) = .error .reservedBooleanValue := rfl
/-- RF35. -/
theorem test_decode_kind : decode (.command 0x0400000000000000 .absent) = .error .reservedKind := rfl
theorem test_decode_pattern : decode (.command 0x1180000000010000 .absent) = .error .reservedPattern := rfl
/-- The table's numbering: the first byte is bits 7..0, and the bytes above the row's bits are 0. -/
theorem test_table_word : decodeTableWord 8 0x01 = some (.readCoils (.fields 0 0 [])) := by decide
theorem test_table_word_fields : decodeTableWord 40 0x0A000F0001 = some (.readCoils (.fields 15 10 [])) := by decide
theorem test_table_word_local :
    decodeTableWord 64 0x3800000900000000 = some (.lGetOne (.word .holdingRegister) 9) := by decide

/-! ## Single steps -/

/-- S10 of spec/95_test_vectors.md: ten of each kind at addresses 0 to 9, booleans true, words 1. -/
def s10 : DataArea where
  coils := (List.range 10).map (·, true)
  discreteInputs := (List.range 10).map (·, true)
  holdingRegisters := (List.range 10).map (·, 1)
  inputRegisters := (List.range 10).map (·, 1)

/-- The state over a Data Area in which requester 0 has presented `t`. -/
def asked (d : DataArea) (t : Transaction) : State := { State.reset with area := d, pending := [(0, t)] }

/-- What one step answers requester 0. -/
def answerTo (d : DataArea) (t : Transaction) : Option Response :=
  match step (asked d t) with
  | .next u => lookupKey u.delivered 0
  | _ => none

/-- What register `K[n]` holds after one step. -/
def after (d : DataArea) (t : Transaction) (K : Kind) (n : Nat) : Option Value :=
  match step (asked d t) with
  | .next u => u.area.reg K n
  | _ => none

/-- A request. -/
abbrev P (b : List Byte) : Transaction := .request b
/-- A local command without operand. -/
abbrev L (w : CommandWord) : Transaction := .command w .absent

/-- W2. -/
theorem test_read_coils : answerTo s10 (P [0x01, 0, 1, 0, 9]) = some (.pdu [0x01, 0x02, 0xFF, 0x01]) := by decide
/-- RD3. -/
theorem test_read_coils_past_end : answerTo s10 (P [0x01, 0xFF, 0xFF, 0, 2]) = some (.pdu [0x81, 0x02]) := by decide
/-- RD5. -/
theorem test_read_discrete_inputs : answerTo s10 (P [0x02, 0, 0, 0, 10]) = some (.pdu [0x02, 0x02, 0xFF, 0x03]) := by decide
/-- RD9. -/
theorem test_read_holding_registers :
    answerTo s10 (P [0x03, 0, 0, 0, 1, 0xAA, 0xBB]) = some (.pdu [0x03, 0x02, 0x00, 0x01]) := by decide
/-- RD7. -/
theorem test_read_holding_registers_quantity : answerTo s10 (P [0x03, 0, 0, 0, 126]) = some (.pdu [0x83, 0x03]) := by decide
/-- RD10. -/
theorem test_read_input_registers : answerTo s10 (P [0x04, 0, 8, 0, 2]) = some (.pdu [0x04, 0x04, 0, 1, 0, 1]) := by decide
/-- RD11. -/
theorem test_read_input_registers_absent : answerTo s10 (P [0x04, 0, 8, 0, 3]) = some (.pdu [0x84, 0x02]) := by decide
/-- WR3. -/
theorem test_write_single_coil :
    answerTo s10 (P [0x05, 0, 1, 0, 0, 0x99]) = some (.pdu [0x05, 0, 1, 0, 0]) ∧
    after s10 (P [0x05, 0, 1, 0, 0, 0x99]) (.bit .coil) 1 = some (.bit false) := by decide
/-- D14. -/
theorem test_write_single_coil_value_first : answerTo s10 (P [0x05, 0, 12, 0x12, 0x34]) = some (.pdu [0x85, 0x03]) := by decide
/-- WR5. -/
theorem test_write_single_register :
    after s10 (P [0x06, 0, 9, 0xFF, 0xFF, 0x77]) (.word .holdingRegister) 9 = some (.word 0xFFFF) := by decide
/-- WR4. -/
theorem test_write_single_register_absent : answerTo s10 (P [0x06, 0, 12, 0, 0]) = some (.pdu [0x86, 0x02]) := by decide
/-- WR10. -/
theorem test_write_multiple_coils :
    (List.range 10).map (after s10 (P [0x0F, 0, 0, 0, 10, 2, 0xCD, 0xFD]) (.bit .coil)) =
      [true, false, true, true, false, false, true, true, true, false].map fun b => some (.bit b) := by decide
/-- WR6. -/
theorem test_write_multiple_coils_count : answerTo s10 (P [0x0F, 0, 0, 0, 10, 1, 0xCD]) = some (.pdu [0x8F, 0x03]) := by decide
/-- WR16. -/
theorem test_write_multiple_registers :
    after s10 (P [0x10, 0, 1, 0, 2, 4, 0x00, 0x0A, 0x01, 0x02]) (.word .holdingRegister) 2 = some (.word 0x0102) := by decide
/-- WR15. -/
theorem test_write_multiple_registers_absent :
    answerTo s10 (P [0x10, 0, 8, 0, 3, 6, 0, 1, 0, 2, 0, 3]) = some (.pdu [0x90, 0x02]) ∧
    after s10 (P [0x10, 0, 8, 0, 3, 6, 0, 1, 0, 2, 0, 3]) (.word .holdingRegister) 8 = some (.word 1) := by decide
/-- D1, D4. -/
theorem test_illegal :
    answerTo s10 (P [0x00]) = some (.pdu [0x80, 0x01]) ∧
    answerTo s10 (P [0x81, 0, 1, 0, 1]) = some (.pdu [0x81, 0x01]) := by decide
/-- RF1. -/
theorem test_insert : after DataArea.empty (L 0x0800000100001234) (.word .holdingRegister) 1 = some (.word 0x1234) := by decide
/-- RF6. -/
theorem test_insert_coil : after DataArea.empty (L 0x0000000500000001) (.bit .coil) 5 = some (.bit true) := by decide
/-- RF7. -/
theorem test_generate_decremental :
    (List.range 3).map (after DataArea.empty (L 0x1900000000030000) (.word .holdingRegister)) =
      [some (.word 3), some (.word 2), some (.word 1)] := by decide
/-- RF17. -/
theorem test_generate_past_end : answerTo DataArea.empty (L 0x1600FFFE00030000) = some (.error .outOfRange) := by decide
/-- RF26. -/
theorem test_get_range :
    answerTo { DataArea.empty with coils := [(0, true), (1, false), (3, true)] } (L 0x2000000000020000) =
      some (.ok (.registers [(0, .bit true), (1, .bit false)])) := by decide
/-- RF25. -/
theorem test_get_range_gap :
    answerTo { DataArea.empty with coils := [(0, true), (1, false), (3, true)] } (L 0x2000000000040000) =
      some (.error .outOfRange) := by decide
/-- RF28. -/
theorem test_get_one : answerTo s10 (L 0x3800000900000000) = some (.ok (.register 9 (.word 1))) := by decide
/-- RF30. -/
theorem test_write_one : after s10 (L 0x46000003000000FF) (.word .inputRegister) 3 = some (.word 0x00FF) := by decide
/-- RF32. -/
theorem test_write_one_absent :
    answerTo s10 (L 0x4800000A00000005) = some (.error .notFound) ∧
    after s10 (L 0x4800000A00000005) (.word .holdingRegister) 10 = none := by decide
/-- U5. -/
theorem test_pack_bits :
    answerTo s10 (.command 0x5000000000000000 (.bits (List.replicate 9 true))) = some (.ok (.bytes [0xFF, 0x01])) := by decide
/-- U8. -/
theorem test_unpack_bits :
    answerTo s10 (.command 0x60000000000A0000 (.bytes [0xCD, 0xFD])) =
      some (.ok (.bits [true, false, true, true, false, false, true, true, true, false])) := by decide
/-- U10. -/
theorem test_unpack_bits_short : execLUnpackBits 9 [0x01] State.reset = .refused .unpackDataTooShort := rfl
/-- U11. -/
theorem test_bytes_needed : answerTo s10 (L 0x70000000FFFF0000) = some (.ok (.number 8192)) := by decide
/-- U12. -/
theorem test_u16_from_be :
    answerTo s10 (.command 0x8000000000000000 (.bytes [0xAB, 0xCD])) = some (.ok (.word 0xABCD)) := by decide
/-- U13. -/
theorem test_u16_to_be : answerTo s10 (L 0x900000000000FF00) = some (.ok (.bytes [0xFF, 0x00])) := by decide
/-- U14. -/
theorem test_exception_pdu : answerTo s10 (L 0xA000000000002B01) = some (.ok (.bytes [0xAB, 0x01])) := by decide
/-- U15. -/
theorem test_format_address :
    answerTo s10 (L 0xB600FFFF00000000) = some (.ok (.text ['3', 'x', '6', '5', '5', '3', '5'])) := by decide
/-- W7. -/
theorem test_mbap_parse :
    answerTo s10 (.command 0xC000000000000000 (.bytes [1, 2, 3, 4, 5, 6, 7])) =
      some (.ok (.header ⟨0x0102, 0x0304, 0x0506, 0x07⟩)) := by decide
/-- M1. -/
theorem test_mbap_parse_short :
    answerTo s10 (.command 0xC000000000000000 (.bytes [1, 2, 3, 4, 5, 6])) = some (.error .malformedHeader) := by decide
/-- W7. -/
theorem test_mbap_serialize :
    answerTo s10 (.command 0xD000000000000000 (.header ⟨0x0102, 0x0304, 0x0506, 0x07⟩)) =
      some (.ok (.bytes [1, 2, 3, 4, 5, 6, 7])) := by decide
/-- M4. -/
theorem test_mbap_frame :
    answerTo s10 (.command 0xE000000000000000 (.headerAndPdu ⟨1, 0, 6, 0x11⟩ [0x81, 0x02])) =
      some (.ok (.bytes [0, 1, 0, 0, 0, 3, 0x11, 0x81, 0x02])) := by decide
/-- A restart loses the registers and what is outstanding, and uses no draw again (R164, log 3). -/
theorem test_restart :
    State.restart { State.reset with
        area := { DataArea.empty with coils := [(0, true)] }, pending := [(0, .request [0x01])], draws := 5, turns := 7 } =
      { State.reset with draws := 5, turns := 7 } := rfl
/-- The example of R78. -/
theorem test_disassemble :
    (decode (.request [0x01, 0x00, 0x01, 0x00, 0x08])).toOption.map disassemble =
      some "READ_COILS start=0x0001 qty=8" := by decide
/-- RF34. -/
theorem test_reserved : execLReserved 0xF000000000000000 .absent State.reset = .refused .reservedOperation := rfl
/-- The first instruction after reset is the one placed for the fetch. -/
theorem test_with_fetch_word :
    (match step (State.reset.withFetchWord 64 0x0800000100001234) with
      | .next u => u.area.reg (.word .holdingRegister) 1
      | _ => none) = some (.word 0x1234) := by decide

/-! ## Witnesses: states and operands that meet the hypotheses of the statements -/

/-- `n` equal registers from address 0. -/
def filled {α : Type} (n : Nat) (v : α) : Bank α := populate [] 0 n fun _ => v

/-- The same bank for both boolean kinds, the same for both word kinds. -/
def twin (b : Bank Bool) (w : Bank Word) : DataArea where
  coils := b
  discreteInputs := b
  holdingRegisters := w
  inputRegisters := w

theorem twin_bitBank (b : Bank Bool) (w : Bank Word) (k : BitKind) : (twin b w).bitBank k = b := by cases k <;> rfl
theorem twin_wordBank (b : Bank Bool) (w : Bank Word) (k : WordKind) : (twin b w).wordBank k = w := by cases k <;> rfl

/-- Every kind filled to its capacity, from address 0: 2000 booleans, 125 words. -/
def full : DataArea := twin (filled 2000 true) (filled 125 1)

/-- One register of each kind, at the highest address. -/
def top : DataArea where
  coils := [(0xFFFF, true)]
  discreteInputs := [(0xFFFF, true)]
  holdingRegisters := [(0xFFFF, 7)]
  inputRegisters := [(0xFFFF, 7)]

theorem filled_at {α : Type} (v : α) {m j : Nat} (hm : m ≤ Config.maxAddress + 1) (hj : j < m) :
    bankAt (filled m v) (0 + j) = some v := by
  rw [filled, bankAt_populate _ _ _ _ _ (by omega), if_pos (by omega)]

theorem filled_length {α : Type} (m : Nat) (v : α) : (filled m v).length = m := by
  rw [filled, populate_length _ _ _ (by simp)]; simp

theorem full_bitBank (k : BitKind) : full.bitBank k = filled 2000 true :=
  twin_bitBank _ _ k

theorem full_wordBank (k : WordKind) : full.wordBank k = filled 125 1 :=
  twin_wordBank _ _ k

theorem full_bits (k : BitKind) (n : Nat) (h : n ≤ 2000) : fullyPresent full (.bit k) 0 n := by
  intro j hj
  have hx : j < 2000 := by omega
  rw [DataArea.reg_bit, full_bitBank, filled_at true (by decide) hx, Option.map_some, Option.isSome_some]

theorem full_words (k : WordKind) (n : Nat) (h : n ≤ 125) : fullyPresent full (.word k) 0 n := by
  intro j hj
  have hx : j < 125 := by omega
  rw [DataArea.reg_word, full_wordBank, filled_at 1 (by decide) hx, Option.map_some, Option.isSome_some]

theorem top_reg (K : Kind) : (top.reg K 0xFFFF).isSome := by rcases K with (_ | _) | (_ | _) <;> decide

theorem top_past_end (K : Kind) : ¬ fullyPresent top K 0xFFFF 2 := by
  intro h
  have := h 1 (by decide)
  rcases K with (_ | _) | (_ | _) <;> exact absurd this (by decide)

/-- A state in which requester 0 waits for a read. -/
def busy : State := asked s10 (P [0x03, 0, 0, 0, 1])

theorem requester_zero : 0 < Config.nReq := by simp [Config.nReq]

theorem busy_inv : Inv busy where
  area_wf := by decide
  pending_ascending := by decide
  pending_requesters := by intro e he; simp only [busy, asked, List.mem_singleton] at he; subst he; exact requester_zero
  response_empty := rfl
  delivered_ascending := by decide
  delivered_requesters := by simp [busy, asked]
  one_outstanding := by decide

theorem witness_DecodeUndoesEncode :
    Instr.wf (.readCoils (.fields 0 1 (copies 248 0))) = true ∧
    Instr.wf (.lGetOne (.bit .coil) 0xFFFF) = true := by
  simp [Instr.wf, FixedBody.wf, Config.pduMax]

theorem witness_EncodeUndoesDecode :
    decode (P [0x2B]) = .ok (.illegal 0x2B []) ∧ ∃ i, decode (P (0x01 :: copies 252 0)) = .ok i :=
  ⟨rfl, _, decode_request (by simp)⟩

theorem witness_FunctionCodeAloneSelects : (copies 252 (0 : Byte)).length ≤ 252 ∧ ([] : List Byte).length ≤ 252 := by
  simp

theorem witness_InadmissibleTransactionsAreRefused :
    (asked s10 (P [])).pending = [(0, P [])] ∧ (asked s10 (P (copies 254 0))).pending = [(0, P (copies 254 0))] ∧
    (asked s10 (L 0xF000000000000000)).pending = [(0, L 0xF000000000000000)] := ⟨rfl, rfl, rfl⟩

/-- Each clause of R76 on the word is met, and by 0x3800000900010000 (I13) that of a field not read. -/
theorem witness_refusedFields :
    refusedFields (fieldsOf 0xF000000000000000) ∧ refusedFields (fieldsOf 0x0001000000000000) ∧
    refusedFields (fieldsOf 0xB400000000000000) ∧ refusedFields (fieldsOf 0x1180000000000000) ∧
    refusedFields (fieldsOf 0x4000000000000002) ∧ refusedFields (fieldsOf 0x3800000900010000) ∧
    ¬ refusedFields (fieldsOf 0x3800000900000000) := by
  refine ⟨?_, ?_, ?_, ?_, ?_, ?_, ?_⟩ <;> unfold refusedFields <;> decide

/-- The data operands of R72 at the edges of their shapes. -/
theorem witness_refusedOperand :
    refusedOperand (fieldsOf 0x3800000900000000) (.bytes []) ∧ ¬ refusedOperand (fieldsOf 0x3800000900000000) .absent ∧
    refusedOperand (fieldsOf 0x6000000000090000) (.bytes [0]) ∧
    ¬ refusedOperand (fieldsOf 0x6000000000090000) (.bytes [0, 0]) ∧
    refusedOperand (fieldsOf 0x8000000000000000) (.bytes [0, 0, 0]) ∧
    ¬ refusedOperand (fieldsOf 0x8000000000000000) (.bytes [0, 0]) := by
  simp [refusedOperand, fieldsOf]

theorem witness_StepRunsTheDecodedInstruction :
    busy.pending = [(0, P [0x03, 0, 0, 0, 1])] ∧
    decode (P [0x03, 0, 0, 0, 1]) = .ok (.readHoldingRegisters (.fields 0 1 [])) := ⟨rfl, rfl⟩

theorem witness_StepPerformsOneWholeTransaction : Inv busy ∧ busy.pending ≠ [] ∧ ∃ t, step busy = .next t :=
  ⟨busy_inv, by decide, _, rfl⟩

theorem witness_IdleBlockStays : State.reset.pending = [] := rfl

theorem witness_ConcurrentReadSeesNoPartialWrite :
    s10.reg (.word .holdingRegister) 0 = some (.word 1) ∧ s10.reg (.word .holdingRegister) 1 = some (.word 1) ∧
    ({ State.reset with area := s10, pending :=
        [(0, P ([0x10, 0x00, 0x00, 0x00, 0x02, 0x04] ++ u16ToBe 7 ++ u16ToBe 7)), (1, P [0x03, 0, 0, 0, 2])] } : State).pending =
      [(0, .request ([0x10, 0x00, 0x00, 0x00, 0x02, 0x04] ++ u16ToBe 7 ++ u16ToBe 7)),
       (1, .request [0x03, 0x00, 0x00, 0x00, 0x02])] := by decide

theorem witness_StepKeepsInvariant : Inv busy ∧ ∃ t, step busy = .next t := ⟨busy_inv, _, rfl⟩

theorem witness_HostActionsKeepInvariant :
    Inv { busy with pending := [] } ∧ ∃ t, State.present { busy with pending := [] } 0 (L 0) = .next t := by
  refine ⟨{ busy_inv with
    pending_ascending := by decide
    pending_requesters := by simp
    one_outstanding := by simp }, { busy with pending := [(0, L 0)] }, ?_⟩
  simp [State.present, Config.nReq, busy, asked, placeKey]

theorem witness_RegistersAreNeverRemoved :
    (∃ t, Move busy t ∧ (busy.area.reg (.bit .coil) 9).isSome) ∧
    (∃ t, exec (.writeSingleRegister (.fields 9 5 [])) busy = .next t ∧
      populates (.writeSingleRegister (.fields 9 5 [])) = false) ∧
    (∃ t, exec (.lInsert 10 (.bit .coil true)) busy = .next t ∧ writes (.lInsert 10 (.bit .coil true)) = false ∧
      busy.area.reg (.bit .coil) 9 = some (.bit true)) ∧
    (∃ t, exec (.lGetOne (.bit .coil) 9) busy = .next t ∧ populates (.lGetOne (.bit .coil) 9) = false ∧
      writes (.lGetOne (.bit .coil) 9) = false) :=
  ⟨⟨_, .block _ rfl, by decide⟩, ⟨_, rfl, rfl⟩, ⟨_, rfl, rfl, by decide⟩, ⟨_, rfl, rfl, rfl⟩⟩

theorem witness_KindsAreDisjoint :
    ∀ K, actsOn (.readCoils (.fields 0 1 [])) = some K →
      sameBank busy.area { s10 with holdingRegisters := [], discreteInputs := [] } K := by
  rintro K ⟨⟩; rfl

theorem witness_EveryPerformedInstructionAnswers :
    performed (.readCoils (.short [])) = true ∧ performed (.lUnpackBits 8 [0]) = true ∧
    performed (.lMbapFrame ⟨0, 0, 0, 0⟩ [0]) = true := by decide

theorem witness_OutstandingTransactionsAreServed : Inv busy ∧ ∀ e ∈ busy.pending, admitted e.2 = true :=
  ⟨busy_inv, by decide⟩

theorem witness_OneOutstandingTransactionPerRequester :
    Config.nReq ≤ Config.nReq ∧ 0 < Config.nReq ∧ (lookupKey busy.pending 0).isSome ∧
    (lookupKey ({ State.reset with delivered := [(0, .ok .none)] } : State).delivered 0).isSome ∧
    lookupKey State.reset.pending 0 = none ∧ lookupKey State.reset.delivered 0 = none :=
  ⟨Nat.le_refl _, requester_zero, by decide, by decide, rfl, rfl⟩

theorem witness_EngineFollowsValidationOrder :
    (1 ≤ ([0] : List Byte).length ∧ ([0] : List Byte).length ≤ 253) ∧
    (1 ≤ (copies 253 (1 : Byte)).length ∧ (copies 253 (1 : Byte)).length ≤ 253) := by simp

theorem witness_IllegalFunctionCodesAreAnswered :
    (0x11#8 ∉ [0x01#8, 0x02#8, 0x03#8, 0x04#8, 0x05#8, 0x06#8, 0x0F#8, 0x10#8] ∧ (copies 252 (0 : Byte)).length ≤ 252) ∧
    0x80 ≤ (0x80 : Byte).toNat ∧ 0x10#8 ∈ [0x01#8, 0x02#8, 0x03#8, 0x04#8, 0x05#8, 0x06#8, 0x0F#8, 0x10#8] := by
  simp

theorem witness_BitReadsAnswerPackedRegisters :
    (copies 248 (0 : Byte)).length ≤ 248 ∧ ([0, 0, 0] : List Byte).length < 4 ∧
    ¬ (1 ≤ (0 : Word).toNat ∧ (0 : Word).toNat ≤ 2000) ∧ ¬ (1 ≤ (2001 : Word).toNat ∧ (2001 : Word).toNat ≤ 2000) ∧
    (∀ k, ¬ fullyPresent top (.bit k) (0xFFFF : Word).toNat (2 : Word).toNat) ∧
    (1 ≤ (2000 : Word).toNat ∧ (2000 : Word).toNat ≤ 2000 ∧ ∀ k, fullyPresent full (.bit k) (0 : Word).toNat (2000 : Word).toNat) :=
  ⟨by simp, by simp, by decide, by decide, fun k => top_past_end (.bit k), by decide, by decide,
    fun k => full_bits k 2000 (by decide)⟩

theorem witness_WordReadsAnswerBigEndianRegisters :
    (copies 248 (0 : Byte)).length ≤ 248 ∧ ([0, 0, 0] : List Byte).length < 4 ∧
    ¬ (1 ≤ (0 : Word).toNat ∧ (0 : Word).toNat ≤ 125) ∧ ¬ (1 ≤ (126 : Word).toNat ∧ (126 : Word).toNat ≤ 125) ∧
    (∀ k, ¬ fullyPresent top (.word k) (0xFFFF : Word).toNat (2 : Word).toNat) ∧
    (1 ≤ (125 : Word).toNat ∧ (125 : Word).toNat ≤ 125 ∧ ∀ k, fullyPresent full (.word k) (0 : Word).toNat (125 : Word).toNat) :=
  ⟨by simp, by simp, by decide, by decide, fun k => top_past_end (.word k), by decide, by decide,
    fun k => full_words k 125 (by decide)⟩

theorem witness_WriteSingleCoilWritesOneCoil :
    ((0x0001 : Word) ≠ 0x0000 ∧ (0x0001 : Word) ≠ 0xFF00) ∧
    (((0xFF00 : Word) = 0x0000 ∨ (0xFF00 : Word) = 0xFF00) ∧ s10.reg (.bit .coil) (10 : Word).toNat = none) ∧
    (((0x0000 : Word) = 0x0000 ∨ (0x0000 : Word) = 0xFF00) ∧ (top.reg (.bit .coil) (0xFFFF : Word).toNat).isSome) := by decide

theorem witness_WriteSingleRegisterWritesOneRegister :
    s10.reg (.word .holdingRegister) (10 : Word).toNat = none ∧
    (top.reg (.word .holdingRegister) (0xFFFF : Word).toNat).isSome := by decide

theorem witness_WriteMultipleCoilsWritesTheRange :
    ¬ (1 ≤ (0 : Word).toNat ∧ (0 : Word).toNat ≤ 1968 ∧ (0 : Byte).toNat = ((0 : Word).toNat + 7) / 8 ∧
      (0 : Byte).toNat ≤ ([] : List Byte).length) ∧
    ((1 ≤ (2 : Word).toNat ∧ (2 : Word).toNat ≤ 1968 ∧ (1 : Byte).toNat = ((2 : Word).toNat + 7) / 8 ∧
      (1 : Byte).toNat ≤ ([3] : List Byte).length) ∧ ¬ fullyPresent top (.bit .coil) (0xFFFF : Word).toNat (2 : Word).toNat) ∧
    ((1 ≤ (1968 : Word).toNat ∧ (1968 : Word).toNat ≤ 1968 ∧ (246 : Byte).toNat = ((1968 : Word).toNat + 7) / 8 ∧
      (246 : Byte).toNat ≤ (copies 246 (0xFF : Byte)).length) ∧
      fullyPresent full (.bit .coil) (0 : Word).toNat (1968 : Word).toNat) :=
  ⟨by decide, ⟨by decide, top_past_end _⟩, ⟨by simp, full_bits .coil 1968 (by decide)⟩⟩

theorem witness_WriteMultipleRegistersWritesTheRange :
    ¬ (1 ≤ (124 : Word).toNat ∧ (124 : Word).toNat ≤ 123 ∧ (248 : Byte).toNat = 2 * (124 : Word).toNat ∧
      (248 : Byte).toNat ≤ ([] : List Byte).length) ∧
    ((1 ≤ (2 : Word).toNat ∧ (2 : Word).toNat ≤ 123 ∧ (4 : Byte).toNat = 2 * (2 : Word).toNat ∧
      (4 : Byte).toNat ≤ ([0, 1, 0, 2] : List Byte).length) ∧
      ¬ fullyPresent top (.word .holdingRegister) (0xFFFF : Word).toNat (2 : Word).toNat) ∧
    ((1 ≤ (123 : Word).toNat ∧ (123 : Word).toNat ≤ 123 ∧ (246 : Byte).toNat = 2 * (123 : Word).toNat ∧
      (246 : Byte).toNat ≤ (copies 246 (0xFF : Byte)).length) ∧
      fullyPresent full (.word .holdingRegister) (0 : Word).toNat (123 : Word).toNat) :=
  ⟨by decide, ⟨by decide, top_past_end _⟩, ⟨by simp, full_words .holdingRegister 123 (by decide)⟩⟩

theorem witness_ResponseLengthFollowsTheOutcome :
    decode (P [0x03, 0, 0, 0, 1]) = .ok (.readHoldingRegisters (.fields 0 1 [])) ∧
    ∃ t, exec (.readHoldingRegisters (.fields 0 1 [])) busy = .next t := ⟨rfl, _, rfl⟩

theorem witness_ResponsesFitOnePdu :
    decode (P [0x03, 0, 0, 0, 1]) = .ok (.readHoldingRegisters (.fields 0 1 [])) ∧
    ∃ t, exec (.readHoldingRegisters (.fields 0 1 [])) busy = .next t := ⟨rfl, _, rfl⟩

theorem witness_ExceptionsArePrecise :
    Instr.isRequest (.writeSingleCoil (.fields 10 0xFF00 [])) = true ∧
    ∃ t, exec (.writeSingleCoil (.fields 10 0xFF00 [])) busy = .next t ∧ t.response = some (.pdu [0x85, 0x02]) :=
  ⟨rfl, _, rfl, by decide⟩

theorem witness_ProtocolWritesOnlyExistingCoilsAndHoldingRegisters :
    decode (P [0x06, 0, 9, 0, 5]) = .ok (.writeSingleRegister (.fields 9 5 [])) ∧
    Instr.isRequest (.writeSingleRegister (.fields 9 5 [])) = true ∧
    ∃ t, exec (.writeSingleRegister (.fields 9 5 [])) busy = .next t := ⟨rfl, rfl, _, rfl⟩

theorem witness_WrittenValuesReadBack :
    (top.reg (.bit .coil) (0xFFFF : Word).toNat).isSome ∧ (top.reg (.word .holdingRegister) (0xFFFF : Word).toNat).isSome ∧
    (1 ≤ (copies 1968 true).length ∧ (copies 1968 true).length ≤ 1968 ∧
      fullyPresent full (.bit .coil) (0 : Word).toNat (copies 1968 true).length) :=
  ⟨top_reg _, top_reg _, by simp, by simp, by rw [copies_length]; exact full_bits .coil 1968 (by decide)⟩

theorem witness_WritesAreIdempotent :
    writes (.lWriteOne 9 (.bit .discreteInput false)) = true ∧
    ∃ t, exec (.lWriteOne 9 (.bit .discreteInput false)) busy = .next t := ⟨rfl, _, rfl⟩

theorem witness_TrailingBytesAreIgnored : ([1, 2] : List Byte).length = (2 : Byte).toNat := by decide

theorem witness_InsertAddsOneRegister :
    (cap (.word .holdingRegister) ≤ full.size (.word .holdingRegister)) ∧
    (top.size (.bit .coil) < cap (.bit .coil) ∧ (top.reg (.bit .coil) (0xFFFF : Addr).toNat).isSome) ∧
    (s10.size (.word .inputRegister) < cap (.word .inputRegister) ∧
      s10.reg (.word .inputRegister) (0xFFFF : Addr).toNat = none) := by
  refine ⟨?_, by decide, by decide⟩
  have h : full.size (.word .holdingRegister) = 125 :=
    (congrArg List.length (full_wordBank .holdingRegister)).trans (filled_length 125 1)
  rw [h]; decide

theorem witness_GenerateAddsAllRegistersOrNone :
    applicable (.bit .coil) .max = false ∧
    (applicable (.word .holdingRegister) .max = true ∧
      (cap (.word .holdingRegister) < (126 : Word).toNat ∨
        cap (.word .holdingRegister) - s10.size (.word .holdingRegister) < (126 : Word).toNat)) ∧
    (¬ (cap (.word .inputRegister) < (3 : Word).toNat ∨
        cap (.word .inputRegister) - DataArea.empty.size (.word .inputRegister) < (3 : Word).toNat) ∧
      (0 < (3 : Word).toNat ∧ 0xFFFF < (0xFFFE : Addr).toNat + (3 : Word).toNat - 1)) ∧
    (¬ (cap (.bit .coil) < (1 : Word).toNat ∨ cap (.bit .coil) - top.size (.bit .coil) < (1 : Word).toNat) ∧
      ¬ (0 < (1 : Word).toNat ∧ 0xFFFF < (0xFFFF : Addr).toNat + (1 : Word).toNat - 1) ∧
      ∃ i < (1 : Word).toNat, (top.reg (.bit .coil) ((0xFFFF : Addr).toNat + i)).isSome) ∧
    (¬ (cap (.word .holdingRegister) < (115 : Word).toNat ∨
        cap (.word .holdingRegister) - s10.size (.word .holdingRegister) < (115 : Word).toNat) ∧
      ¬ (0 < (115 : Word).toNat ∧ 0xFFFF < (100 : Addr).toNat + (115 : Word).toNat - 1) ∧
      ¬ ∃ i < (115 : Word).toNat, (s10.reg (.word .holdingRegister) ((100 : Addr).toNat + i)).isSome) := by
  refine ⟨rfl, ⟨rfl, by decide⟩, ⟨by decide, by decide⟩, ⟨by decide, by decide, 0, by decide, by decide⟩, by decide, by decide, ?_⟩
  rintro ⟨i, -, h⟩
  have : (100 : Addr).toNat + i = 100 + i := rfl
  simp only [this, DataArea.reg_word, Option.isSome_map, bankAt, s10, DataArea.wordBank_holdingRegister] at h
  split at h
  · obtain ⟨e, he, hk⟩ := (lookupKey_isSome_iff _ _).1 h
    simp only [List.mem_map, List.mem_range] at he
    obtain ⟨j, hj, rfl⟩ := he
    simp only at hk
    omega
  · simp at h

theorem witness_GenerateEqualsInserts :
    Memory.wf top ∧
    ∃ t, exec (.lGenerate (.word .inputRegister) .decremental 0xFFFD 2) (asked top (L 0)) = .next t ∧
      t.response = some (.ok .none) := ⟨by decide, _, rfl, by decide⟩

theorem witness_GetRangeAnswersTheWholeInterval :
    (0 : Word).toNat = 0 ∧ 2000 < (2001 : Word).toNat ∧ 125 < (126 : Word).toNat ∧
    (∀ K, ¬ fullyPresent top K (0xFFFF : Addr).toNat (2 : Word).toNat) ∧
    (∀ k, fullyPresent full (.bit k) (0 : Addr).toNat (2000 : Word).toNat) ∧
    ∀ k, fullyPresent full (.word k) (0 : Addr).toNat (125 : Word).toNat :=
  ⟨by decide, by decide, by decide, fun K => top_past_end K, fun k => full_bits k 2000 (by decide),
    fun k => full_words k 125 (by decide)⟩

theorem witness_WriteOneWritesOneRegister :
    (∀ K, DataArea.empty.reg K (0 : Addr).toNat = none) ∧ ∀ K, (top.reg K (0xFFFF : Addr).toNat).isSome :=
  ⟨fun K => reg_empty K _, top_reg⟩

theorem witness_PackBitsIsLsbFirst : 0 < (packBits [true]).length ∧ 7 < 8 := by decide

theorem witness_UnpackBitsIsLsbFirst :
    ((9 : Word).toNat + 7) / 8 ≤ ([1, 1] : List Byte).length ∧ ([1] : List Byte).length < ((9 : Word).toNat + 7) / 8 := by decide

theorem witness_PackingAndUnpackingAreInverse :
    ([0xCD, 0x01] : List Byte).length = (10 + 7) / 8 ∧
    ∀ i j, j < 8 → 10 ≤ 8 * i + j → (([0xCD, 0x01] : List Byte).getD i 0).getLsbD j = false := by
  refine ⟨rfl, fun i j hj h => ?_⟩
  match i with
  | 0 => omega
  | 1 =>
    have : ∀ j < 8, 10 ≤ 8 * 1 + j → (([0xCD, 0x01] : List Byte).getD 1 0).getLsbD j = false := by decide
    exact this j hj h
  | _ + 2 => simp

theorem witness_PaddingBitsAreIgnored :
    ∀ k < 10, (([0xCD, 0x01] : List Byte).getD (k / 8) 0).getLsbD (k % 8) =
      (([0xCD, 0xFD] : List Byte).getD (k / 8) 0).getLsbD (k % 8) := by decide

theorem witness_NumericUtilitiesAnswer : ([1] : List Byte).length ≠ 2 ∧ (0x81 : Byte).getLsbD 7 = true := by decide

theorem witness_MbapParseAndSerializeAreInverse : 7 ≤ ([1, 2, 3, 4, 5, 6, 7] : List Byte).length := by decide

theorem witness_MbapParseReadsTheHeader :
    ([1, 2, 3, 4, 5, 6] : List Byte).length < 7 ∧ 7 ≤ ([1, 2, 3, 4, 5, 6, 7] : List Byte).length := by decide

theorem witness_MbapFrameSetsTheLength :
    (1 ≤ (copies 253 (0 : Byte)).length ∧ (copies 253 (0 : Byte)).length ≤ 253) ∧
    ([] : List Byte).length = 0 ∧ 253 < (copies 254 (0 : Byte)).length := by simp

theorem witness_ReservedCommandsAreRefused :
    isReservedWord 0xF000000000000000 = true ∧ isReservedWord 0x0001000000000000 = true ∧
    isReservedWord 0x3800000900010000 = true := by decide

end Sys2Proof.Tests
end

section
/-! Registers are never removed (spec/10_state.md R20): the effect of one instruction on the Data Area (`AreaChange`), carried over to
the moves of the block and of a host. -/

namespace Sys2Proof.Machine

/-- All that an instruction can do to the Data Area, without the rest of the state. -/
theorem exec_areaChange {i : Instr} {s t : State} (h : exec i s = .next t) : AreaChange s.area i t.area := by
  obtain ⟨d, k, r, rfl, hd⟩ := exec_change h
  exact hd

/-- No instruction removes a register (R20): one that writes does not populate, so it leaves exactly the registers there were; one
that does not write keeps even their values. -/
theorem AreaChange.isSome_of_isSome {d d' : DataArea} {i : Instr} (h : AreaChange d i d') {K : Kind} {n : Nat}
    (hr : (d.reg K n).isSome) : (d'.reg K n).isSome := by
  cases hw : writes i with
  | true => rwa [h.isSome_eq (populates_of_writes hw)]
  | false =>
    obtain ⟨v, hv⟩ := Option.isSome_iff_exists.1 hr
    exact Option.isSome_of_eq_some (h.keeps hw K n v hv)

/-- An instruction that neither populates nor writes leaves the Data Area as it was (R20): each other kind of change carries the
flag that permits it. -/
theorem AreaChange.eq_of_not_populates_of_not_writes {d d' : DataArea} {i : Instr} (h : AreaChange d i d')
    (hp : populates i = false) (hw : writes i = false) : d' = d := by
  cases h with
  | same => rfl
  | bitWrites _ _ _ hi | wordWrites _ _ _ hi => simp [hw] at hi
  | bitInsert _ _ _ _ hi | wordInsert _ _ _ _ hi => simp [hp] at hi
  | bitGen _ _ _ _ _ hi | wordGen _ _ _ _ _ hi => simp [hp] at hi

/-- Presenting a transaction leaves the Data Area as it was (R32, R33). -/
theorem State.present_area {s s' : State} {r : Nat} {t : Transaction} (h : s.present r t = .next s') :
    s'.area = s.area := by
  unfold State.present at h
  split at h
  · cases h
  · split at h
    · cases h
    · cases h; rfl

/-- All that one step of the block can do to the Data Area: leave it as it was, or what one instruction may do. -/
theorem step_areaChange {s s' : State} (h : step s = .next s') :
    s'.area = s.area ∨ ∃ i, AreaChange s.area i s'.area := by
  obtain ⟨-, rfl⟩ | ⟨r, t, i, u, -, -, -, he, rfl⟩ := step_cases h
  · exact .inl rfl
  · exact .inr ⟨i, by simpa using exec_areaChange he⟩

/-- All that one move can do to the Data Area: only a step of the block changes it. -/
theorem Move.areaChange {s s' : State} (h : Move s s') : s'.area = s.area ∨ ∃ i, AreaChange s.area i s'.area := by
  cases h with
  | block _ h => exact step_areaChange h
  | present _ _ _ h => exact .inl (State.present_area h)
  | take r => exact .inl (State.takeResponse_state_area s r)

/-- No move removes a register (R20). -/
theorem Move.isSome_of_isSome {s s' : State} (h : Move s s') {K : Kind} {n : Nat} (hr : (s.area.reg K n).isSome) :
    (s'.area.reg K n).isSome := by
  obtain ha | ⟨i, hi⟩ := h.areaChange
  · rwa [ha]
  · exact hi.isSome_of_isSome hr

/-- Settles O14: a case split over the moves, and over what one instruction may do to the Data Area. -/
theorem registersAreNeverRemoved : Obligations.RegistersAreNeverRemoved := by
  refine ⟨?moves, ?nonPopulating, ?nonWriting, ?neither⟩
  case moves => exact fun _ _ h _ _ hr => h.isSome_of_isSome hr
  case nonPopulating => exact fun _ _ _ h hp => (exec_areaChange h).isSome_eq hp
  case nonWriting => exact fun _ _ _ h hw => (exec_areaChange h).keeps hw
  case neither => exact fun _ _ _ h hp hw => (exec_areaChange h).eq_of_not_populates_of_not_writes hp hw

end Sys2Proof.Machine
end

section
/-! The length of a response (spec/30_encoding.md R61, R70): each end of a request (an exception, an echo, a byte count and its data)
has the length R70 gives it, and each function code ends in these alone. -/

namespace Sys2Proof.Machine

/-! ## The ends of a request -/

/-- R70's two outcomes of a request with function code `fc`: an exception response of two bytes, or a normal response whose length
is fixed for a write and given by the byte count for a read. -/
def FollowsOutcome (fc : Byte) (resp : List Byte) : Prop :=
  (∃ c, resp = [fc ||| 0x80, c]) ∨
    (resp.getD 0 0 = fc ∧
      ((fc ∈ [0x05#8, 0x06#8, 0x0F#8, 0x10#8] ∧ resp.length = 5) ∨
        (fc ∈ [0x01#8, 0x02#8, 0x03#8, 0x04#8] ∧ resp.length = 2 + (resp.getD 1 0).toNat)))

/-- `r` performs the request and answers it with a response PDU of R70's length. -/
def AnswersByOutcome (fc : Byte) (r : Result) : Prop :=
  ∃ t resp, r = .next t ∧ t.response = some (.pdu resp) ∧ FollowsOutcome fc resp

/-- An exception response has two bytes (R106). -/
theorem raise_answersByOutcome (fc : Byte) (c : ExceptionCode) (s : State) : AnswersByOutcome fc (raise fc c s) :=
  ⟨_, _, raise_eq fc c s, rfl, .inl ⟨exceptionByte c, rfl⟩⟩

/-- The function code and two 16-bit fields are five bytes (R61). -/
theorem respond_echoPdu_answersByOutcome {fc : Byte} (hfc : fc ∈ [0x05#8, 0x06#8, 0x0F#8, 0x10#8]) (a b : Word) (s : State) :
    AnswersByOutcome fc (respond (echoPdu fc a b) s) :=
  ⟨_, _, respond_eq _ s, rfl, .inr ⟨rfl, .inl ⟨hfc, rfl⟩⟩⟩

/-- A byte count fits its byte, so it reads back as the number of data bytes after it (R61). -/
theorem respond_counted_answersByOutcome {fc : Byte} (hfc : fc ∈ [0x01#8, 0x02#8, 0x03#8, 0x04#8]) {n : Nat} (hn : n < 256)
    {data : List Byte} (hd : data.length = n) (s : State) :
    AnswersByOutcome fc (respond (.pdu (fc :: byteOfNat n :: data)) s) := by
  have hcount : (byteOfNat n).toNat = n := Nat.mod_eq_of_lt hn
  refine ⟨_, _, respond_eq _ s, rfl, .inr ⟨rfl, .inr ⟨hfc, ?_⟩⟩⟩
  simp only [List.length_cons, List.getD_cons_succ, List.getD_cons_zero, hcount, hd]
  omega

/-! ## The function codes -/

/-- At most 2000 bits are at most 250 data bytes (R5, R121, R122). -/
theorem readBits_answersByOutcome {fc : Byte} (hfc : fc ∈ [0x01#8, 0x02#8, 0x03#8, 0x04#8]) (k : BitKind) (body : FixedBody)
    (s : State) : AnswersByOutcome fc (readBits fc k body s) := by
  obtain h | h | ⟨_, qty, _, bits, -, -, hq, hv, h⟩ := readBits_cases fc k body s <;> rw [h]
  · exact raise_answersByOutcome fc _ s
  · exact raise_answersByOutcome fc _ s
  · obtain ⟨hlen, -⟩ := (rangeValues_eq_some_iff _ _ _ _).1 hv
    have hfits : bytesNeeded qty.toNat < 256 := by simp only [bytesNeeded]; omega
    exact respond_counted_answersByOutcome hfc hfits (by rw [packBits_length, hlen]) s

/-- At most 125 words are at most 250 data bytes (R5, R123, R124). -/
theorem readWords_answersByOutcome {fc : Byte} (hfc : fc ∈ [0x01#8, 0x02#8, 0x03#8, 0x04#8]) (k : WordKind) (body : FixedBody)
    (s : State) : AnswersByOutcome fc (readWords fc k body s) := by
  obtain h | h | ⟨_, qty, _, ws, -, -, hq, hv, h⟩ := readWords_cases fc k body s <;> rw [h]
  · exact raise_answersByOutcome fc _ s
  · exact raise_answersByOutcome fc _ s
  · obtain ⟨hlen, -⟩ := (rangeValues_eq_some_iff _ _ _ _).1 hv
    exact respond_counted_answersByOutcome hfc (by omega) (by rw [wordsToBytes_length, hlen]) s

theorem execWriteSingleCoil_answersByOutcome (body : FixedBody) (s : State) :
    AnswersByOutcome 0x05#8 (execWriteSingleCoil body s) := by
  obtain h | h | ⟨a, v, _, _, -, -, -, h⟩ := execWriteSingleCoil_cases body s <;> rw [h]
  · exact raise_answersByOutcome _ _ s
  · exact raise_answersByOutcome _ _ s
  · exact respond_echoPdu_answersByOutcome (by decide) a v _

theorem execWriteSingleRegister_answersByOutcome (body : FixedBody) (s : State) :
    AnswersByOutcome 0x06#8 (execWriteSingleRegister body s) := by
  obtain h | h | ⟨a, v, _, -, -, h⟩ := execWriteSingleRegister_cases body s <;> rw [h]
  · exact raise_answersByOutcome _ _ s
  · exact raise_answersByOutcome _ _ s
  · exact respond_echoPdu_answersByOutcome (by decide) a v _

theorem execWriteMultipleCoils_answersByOutcome (body : MultiBody) (s : State) :
    AnswersByOutcome 0x0F#8 (execWriteMultipleCoils body s) := by
  obtain h | h | ⟨a, q, _, _, -, -, -, -, -, -, h⟩ := execWriteMultipleCoils_cases body s <;> rw [h]
  · exact raise_answersByOutcome _ _ s
  · exact raise_answersByOutcome _ _ s
  · exact respond_echoPdu_answersByOutcome (by decide) a q _

theorem execWriteMultipleRegisters_answersByOutcome (body : MultiBody) (s : State) :
    AnswersByOutcome 0x10#8 (execWriteMultipleRegisters body s) := by
  obtain h | h | ⟨a, q, _, _, -, -, -, -, -, -, h⟩ := execWriteMultipleRegisters_cases body s <;> rw [h]
  · exact raise_answersByOutcome _ _ s
  · exact raise_answersByOutcome _ _ s
  · exact respond_echoPdu_answersByOutcome (by decide) a q _

/-- Every request is answered by its outcome, whatever its function code and body (R70): one case per row of the dispatch table. -/
theorem exec_dispatchRequest_answersByOutcome (fc : Byte) (p : List Byte) (s : State) :
    AnswersByOutcome fc (exec (dispatchRequest fc p) s) := by
  unfold dispatchRequest
  split_ifs with h1 h2 h3 h4 h5 h6 hF h10
  · subst h1; exact readBits_answersByOutcome (by decide) .coil (fixedBody p) s
  · subst h2; exact readBits_answersByOutcome (by decide) .discreteInput (fixedBody p) s
  · subst h3; exact readWords_answersByOutcome (by decide) .holdingRegister (fixedBody p) s
  · subst h4; exact readWords_answersByOutcome (by decide) .inputRegister (fixedBody p) s
  · subst h5; exact execWriteSingleCoil_answersByOutcome (fixedBody p) s
  · subst h6; exact execWriteSingleRegister_answersByOutcome (fixedBody p) s
  · subst hF; exact execWriteMultipleCoils_answersByOutcome (multiBody p) s
  · subst h10; exact execWriteMultipleRegisters_answersByOutcome (multiBody p) s
  · exact raise_answersByOutcome fc .illegalFunction s

/-! ## The statement -/

/-- An admitted request decodes to the row of the dispatch table for its function code (R65, R110). -/
theorem eq_dispatchRequest_of_decode {fc : Byte} {p : List Byte} {i : Instr} (h : decode (.request (fc :: p)) = .ok i) :
    i = dispatchRequest fc p := by
  simp only [decode, decodeRequest] at h
  split at h
  · cases h
  · cases h; rfl

/-- Settles O27: by the dispatch table, and by what each function code can answer. -/
theorem responseLengthFollowsTheOutcome : Obligations.ResponseLengthFollowsTheOutcome := by
  intro fc p i s t hdecode hexec
  obtain rfl := eq_dispatchRequest_of_decode hdecode
  obtain ⟨t', resp, hnext, hresp, hshape⟩ := exec_dispatchRequest_answersByOutcome fc p s
  obtain rfl : t' = t := by rw [hnext] at hexec; cases hexec; rfl
  exact ⟨resp, hresp, hshape⟩

end Sys2Proof.Machine
end

section
/-! The register file's single-register and range operations on port L (spec/40_register_file.md R89, R90, R92 to R94): first which
answer L.GET_ONE, L.GET_RANGE and L.WRITE_ONE give when, read from the registers the Data Area shows, then the statements. -/

namespace Sys2Proof.Machine

/-! ## GET_ONE -/

/-- GET_ONE of a register that does not exist is NotFound (R92). -/
theorem exec_lGetOne_of_absent {s : State} {K : Kind} {a : Addr} (h : s.area.reg K a.toNat = none) :
    exec (.lGetOne K a) s = .next (s.answer (.error .notFound)) := by
  cases K with
  | bit k =>
    have hget := (getOne_eq_error_iff (s.area.bitBank k) a _).2 ⟨rfl, Option.map_eq_none_iff.1 h⟩
    simp only [exec, execLGetOne, hget, fail_eq, State.answer]
  | word k =>
    have hget := (getOne_eq_error_iff (s.area.wordBank k) a _).2 ⟨rfl, Option.map_eq_none_iff.1 h⟩
    simp only [exec, execLGetOne, hget, fail_eq, State.answer]

/-- GET_ONE of a register that exists answers its address and its value (R92). -/
theorem exec_lGetOne_of_present {s : State} {K : Kind} {a : Addr} {v : Value} (h : s.area.reg K a.toNat = some v) :
    exec (.lGetOne K a) s = .next (s.answer (.ok (.register a v))) := by
  cases K with
  | bit k =>
    obtain ⟨x, hx, rfl⟩ := Option.map_eq_some_iff.1 h
    have hget := (getOne_eq_ok_iff _ _ _).2 hx
    simp only [exec, execLGetOne, hget, succeed_eq, State.answer]
  | word k =>
    obtain ⟨x, hx, rfl⟩ := Option.map_eq_some_iff.1 h
    have hget := (getOne_eq_ok_iff _ _ _).2 hx
    simp only [exec, execLGetOne, hget, succeed_eq, State.answer]

/-- Settles O39: the register exists or it does not. -/
theorem getOneAnswersTheRegister : Obligations.GetOneAnswersTheRegister := by
  intro s K a
  cases h : s.area.reg K a.toNat with
  | none => exact exec_lGetOne_of_absent h
  | some v => exact exec_lGetOne_of_present h

/-! ## WRITE_ONE -/

/-- Writing one boolean register leaves every bank's size (R20, R93). -/
theorem size_setBitBank_writeKey (d : DataArea) (k : BitKind) (a : Nat) (v : Bool) (K : Kind) :
    (d.setBitBank k (writeKey (d.bitBank k) a v)).size K = d.size K := by
  rw [size_setBitBank, writeKey_length]
  split
  · subst_vars; rfl
  · rfl

/-- Writing one word register leaves every bank's size (R20, R93). -/
theorem size_setWordBank_writeKey (d : DataArea) (k : WordKind) (a : Nat) (v : Word) (K : Kind) :
    (d.setWordBank k (writeKey (d.wordBank k) a v)).size K = d.size K := by
  rw [size_setWordBank, writeKey_length]
  split
  · subst_vars; rfl
  · rfl

/-- WRITE_ONE to a register that does not exist is NotFound (R93). -/
theorem exec_lWriteOne_of_absent {s : State} {a : Addr} {v : KindValue} (h : s.area.reg v.kind a.toNat = none) :
    exec (.lWriteOne a v) s = .next (s.answer (.error .notFound)) := by
  cases v with
  | bit k x => simp only [exec, execLWriteOne, writeOne_bitBank_absent _ k a x h, storeBits, fail_eq, State.answer]
  | word k x => simp only [exec, execLWriteOne, writeOne_wordBank_absent _ k a x h, storeWords, fail_eq, State.answer]

/-- WRITE_ONE to a boolean register that exists stores the bank with that register written (R93, R94). -/
theorem exec_lWriteOne_bit_of_present {s : State} {a : Addr} {k : BitKind} (x : Bool)
    (h : (s.area.reg (.bit k) a.toNat).isSome) :
    exec (.lWriteOne a (.bit k x)) s =
      .next ({ s with area := s.area.setBitBank k (writeKey (s.area.bitBank k) a.toNat x) }.answer (.ok .none)) := by
  simp only [exec, execLWriteOne, writeOne_bitBank _ k a x h, storeBits, succeed_eq, State.answer, State.setBitBank]

/-- WRITE_ONE to a word register that exists stores the bank with that register written (R93, R94). -/
theorem exec_lWriteOne_word_of_present {s : State} {a : Addr} {k : WordKind} (x : Word)
    (h : (s.area.reg (.word k) a.toNat).isSome) :
    exec (.lWriteOne a (.word k x)) s =
      .next ({ s with area := s.area.setWordBank k (writeKey (s.area.wordBank k) a.toNat x) }.answer (.ok .none)) := by
  simp only [exec, execLWriteOne, writeOne_wordBank _ k a x h, storeWords, succeed_eq, State.answer, State.setWordBank]

/-- Settles O40: an absent register stops the write; a present one is written in the bank of its kind, which keeps its keys. -/
theorem writeOneWritesOneRegister : Obligations.WriteOneWritesOneRegister := by
  intro s a v
  refine ⟨exec_lWriteOne_of_absent, fun hpresent => ?_⟩
  cases v with
  | bit k x =>
    exact ⟨_, exec_lWriteOne_bit_of_present x hpresent, reg_setBitBank_writeKey s.area k a.toNat x hpresent,
      size_setBitBank_writeKey s.area k a.toNat x⟩
  | word k x =>
    exact ⟨_, exec_lWriteOne_word_of_present x hpresent, reg_setWordBank_writeKey s.area k a.toNat x hpresent,
      size_setWordBank_writeKey s.area k a.toNat x⟩

/-! ## GET_RANGE -/

/-- A fully present range of a legal length is answered by its (address, value) pairs in ascending order; `tag` makes the bank's
values those of its kind (R89). -/
theorem getRange_eq_ok_tagged {α : Type} (tag : α → Value) {m : Nat} {b : Bank α} {a : Addr} {n : Nat}
    (hpos : 1 ≤ n) (hle : n ≤ m) (hpresent : (rangeValues b a.toNat n).isSome) :
    ∃ pairs, getRange m b a n = .ok pairs ∧ (pairs.map fun r => (r.1, tag r.2)).length = n ∧
      ∀ j < n, ∃ v, (bankAt b (a.toNat + j)).map tag = some v ∧
        (pairs.map fun r => (r.1, tag r.2))[j]? = some (BitVec.ofNat 16 (a.toNat + j), v) := by
  obtain ⟨vs, hvs⟩ := Option.isSome_iff_exists.1 hpresent
  obtain ⟨hlen, hvalues⟩ := (rangeValues_eq_some_iff _ _ _ _).1 hvs
  refine ⟨_, getRange_eq_ok hpos hle hvs, by simpa using hlen, fun j hj => ?_⟩
  have hv : vs[j]? = some vs[j] := List.getElem?_eq_getElem (hlen ▸ hj)
  exact ⟨tag vs[j], by rw [hvalues j hj, hv]; rfl, by rw [List.getElem?_map, numbered_getElem?, hv]; rfl⟩

/-- GET_RANGE of length 0, of a length over RANGE_MAX, or of an interval that is not fully present is OutOfRange (R89, R90). -/
theorem exec_lGetRange_outOfRange {s : State} {K : Kind} {a : Addr} {n : Word}
    (h : n.toNat = 0 ∨ rangeMax K < n.toNat ∨ ¬ fullyPresent s.area K a.toNat n.toNat) :
    exec (.lGetRange K a n) s = .next (s.answer (.error .outOfRange)) := by
  cases K with
  | bit k =>
    rw [fullyPresent_bit_iff, rangeValues_isSome_iff] at h
    have hget := (getRange_eq_error_iff _ _ _ _ _).2 ⟨rfl, h⟩
    simp only [exec, execLGetRange, hget, fail_eq, State.answer]
  | word k =>
    rw [fullyPresent_word_iff, rangeValues_isSome_iff] at h
    have hget := (getRange_eq_error_iff _ _ _ _ _).2 ⟨rfl, h⟩
    simp only [exec, execLGetRange, hget, fail_eq, State.answer]

/-- GET_RANGE of a fully present interval of a legal length answers its registers in ascending order (R89, R90). -/
theorem exec_lGetRange_registers {s : State} {K : Kind} {a : Addr} {n : Word} (hpos : 1 ≤ n.toNat) (hle : n.toNat ≤ rangeMax K)
    (hpresent : fullyPresent s.area K a.toNat n.toNat) :
    ∃ regs : List (Addr × Value), regs.length = n.toNat ∧
      (∀ j < n.toNat, ∃ v, s.area.reg K (a.toNat + j) = some v ∧ regs[j]? = some (BitVec.ofNat 16 (a.toNat + j), v)) ∧
      exec (.lGetRange K a n) s = .next (s.answer (.ok (.registers regs))) := by
  cases K with
  | bit k =>
    obtain ⟨_, hget, hlen, hregs⟩ := getRange_eq_ok_tagged .bit hpos hle ((fullyPresent_bit_iff ..).1 hpresent)
    exact ⟨_, hlen, hregs, by simp only [exec, execLGetRange, hget, succeed_eq, State.answer]⟩
  | word k =>
    obtain ⟨_, hget, hlen, hregs⟩ := getRange_eq_ok_tagged .word hpos hle ((fullyPresent_word_iff ..).1 hpresent)
    exact ⟨_, hlen, hregs, by simp only [exec, execLGetRange, hget, succeed_eq, State.answer]⟩

/-- Settles O38: the statement's bound is RANGE_MAX of the kind. -/
theorem getRangeAnswersTheWholeInterval : Obligations.GetRangeAnswersTheWholeInterval := by
  intro s K a n bound
  have hbound : bound = rangeMax K := by cases K <;> rfl
  rw [hbound]
  exact ⟨exec_lGetRange_outOfRange, exec_lGetRange_registers⟩

end Sys2Proof.Machine
end

section
/-! The bit utilities of port L (spec/41_bit_utilities.md R97): what L.PACK_BITS answers, byte by byte. -/

namespace Sys2Proof.Machine

/-- PACK_BITS answers the packed bytes and changes nothing else (R33, R97). -/
theorem exec_lPackBits (b : List Bool) (s : State) :
    exec (.lPackBits b) s = .next (s.answer (.ok (.bytes (packBits b)))) := by
  simp only [exec, execLPackBits, succeed_eq, State.answer]

/-- Bit j of byte i of packed booleans is the one numbered 8i + j, and 0 past their end (R97): `packBits_getLsbD` by byte and bit
position. -/
theorem packBits_getLsbD_byte (b : List Bool) (i : Nat) {j : Nat} (hj : j < 8) :
    ((packBits b).getD i 0#8).getLsbD j = b.getD (8 * i + j) false := by
  have hbyte : (8 * i + j) / 8 = i := by omega
  have hbit : (8 * i + j) % 8 = j := by omega
  simpa only [hbyte, hbit] using packBits_getLsbD b (8 * i + j)

/-- Settles O41: the answer is `packBits b`, whose length and bits the laws of packing give. -/
theorem packBitsIsLsbFirst : Obligations.PackBitsIsLsbFirst := fun s b =>
  ⟨packBits b, exec_lPackBits b s, packBits_length b, fun i _ _ hj => packBits_getLsbD_byte b i hj⟩

end Sys2Proof.Machine
end

section
/-! The function codes the PDU engine does not support, and the requests too short for the ones it does
(spec/42_pdu_dispatch.md R111, R115, R116). -/

namespace Sys2Proof.Machine

/-- An exception ends the transaction with its two bytes and changes nothing else (R106, R149). -/
theorem raise_eq_answer (fc : Byte) (c : ExceptionCode) (s : State) :
    raise fc c s = .next (s.answer (.pdu [fc ||| 0x80#8, exceptionByte c])) := raise_eq fc c s

/-- A code that matches no row of the dispatch table is ILLEGAL (R67, R115). -/
theorem dispatchRequest_of_not_supported {fc : Byte} (h : fc ∉ supportedCodes) (p : List Byte) :
    dispatchRequest fc p = .illegal fc p := by
  simp only [supportedCodes, List.mem_cons, List.not_mem_nil, or_false, not_or] at h
  obtain ⟨h1, h2, h3, h4, h5, h6, hF, h10⟩ := h
  rw [dispatchRequest, if_neg h1, if_neg h2, if_neg h3, if_neg h4, if_neg h5, if_neg h6, if_neg hF, if_neg h10]

/-- ILLEGAL answers exception 0x01 without looking at the other bytes (R115). -/
theorem exec_illegal (fc : Byte) (p : List Byte) (s : State) :
    exec (.illegal fc p) s = .next (s.answer (.pdu [fc ||| 0x80#8, 0x01#8])) :=
  raise_eq_answer fc .illegalFunction s

/-- Setting a bit that is already set changes nothing: a function code of 0x80 or more is its own exception code (R115). -/
theorem or_0x80_eq_self {fc : Byte} (h : 0x80 ≤ fc.toNat) : fc ||| 0x80#8 = fc := by
  have hbit : fc.getLsbD 7 = true := by
    rw [← BitVec.msb_eq_getLsbD_last, BitVec.msb_eq_decide]
    exact decide_eq_true h
  have hmask : ∀ i < 8, (0x80#8).getLsbD i = decide (i = 7) := by decide
  refine BitVec.eq_of_getLsbD_eq fun i hi => ?_
  rw [BitVec.getLsbD_or, hmask i hi]
  obtain rfl | hne := eq_or_ne i 7
  · simp [hbit]
  · simp [hne]

/-- A supported request whose fixed header does not fit fails step 2, the length check: one case per row of the dispatch table
(R112, R116). -/
theorem exec_dispatchRequest_of_short {fc : Byte} (hfc : fc ∈ supportedCodes) {p : List Byte} (hp : p.length < 4) (s : State) :
    exec (dispatchRequest fc p) s = raise fc .illegalDataValue s := by
  have hfixed : fixedBody p = .short p := fixedBody_eq_short hp
  have hmulti : multiBody p = .short p := multiBody_eq_short (by omega)
  simp only [supportedCodes, List.mem_cons, List.not_mem_nil, or_false] at hfc
  obtain rfl | rfl | rfl | rfl | rfl | rfl | rfl | rfl := hfc <;> simp only [dispatchRequest, hfixed, hmulti] <;> rfl

/-- Settles O20: by the dispatch table; an unsupported code falls through all its rows, and a supported one alone is a header cut
short. -/
theorem illegalFunctionCodesAreAnswered : Obligations.IllegalFunctionCodesAreAnswered := by
  refine ⟨?unsupported, ?bitAlreadySet, ?oneByte⟩
  case unsupported =>
    intro fc p s hfc hlen
    have hdecode := decode_request (fc := fc) hlen
    rw [dispatchRequest_of_not_supported hfc] at hdecode
    exact ⟨hdecode, exec_illegal fc p s⟩
  case bitAlreadySet => exact fun _ h => or_0x80_eq_self h
  case oneByte =>
    intro fc s hfc
    have hexec := exec_dispatchRequest_of_short hfc (p := []) (by decide) s
    exact ⟨_, decode_request (by decide), hexec.trans (raise_eq_answer fc .illegalDataValue s)⟩

end Sys2Proof.Machine
end

section
/-! The write-then-read laws of port P (spec/44_write_functions.md R132): what a read answers, from the registers that the Data Area
shows; which registers a write leaves; and the two together. -/

namespace Sys2Proof.Machine

/-! ## Reading the registers that are shown -/

/-- A bank that shows the values `vs`, each as a value of its kind, is read as `vs` (R89): `tag` loses nothing. -/
theorem rangeValues_eq_some_of_tagged {α : Type} {tag : α → Value} (htag : tag.Injective) {b : Bank α} {start : Nat} {vs : List α}
    (h : ∀ j < vs.length, (bankAt b (start + j)).map tag = vs[j]?.map tag) : rangeValues b start vs.length = some vs :=
  (rangeValues_eq_some_iff _ _ _ _).2 ⟨rfl, fun j hj => Option.map_injective htag (h j hj)⟩

/-- A bit read of 1 to 2000 registers answers their number of packed bytes and those bytes, and changes nothing (R121, R122). -/
theorem readBits_of_shown (fc : Byte) {k : BitKind} {a q : Word} (trailing : List Byte) {bits : List Bool} {s : State}
    (hq : q.toNat = bits.length) (hpos : 1 ≤ bits.length) (hmax : bits.length ≤ 2000)
    (hshown : ∀ j < bits.length, s.area.reg (.bit k) (a.toNat + j) = bits[j]?.map .bit) :
    readBits fc k (.fields a q trailing) s =
      .next (s.answer (.pdu (fc :: byteOfNat (bytesNeeded bits.length) :: packBits bits))) := by
  have hvalues := rangeValues_eq_some_of_tagged (fun _ _ => Value.bit.inj) hshown
  have hget := getRange_eq_ok (m := rangeMax (.bit k)) hpos hmax hvalues
  have hquantity : ¬ (bits.length < 1 ∨ Config.qmaxReadBits < bits.length) := by simp only [Config.qmaxReadBits]; omega
  simp only [readBits, hq, if_neg hquantity, hget, numbered_map_snd, respond_eq, State.answer]

/-- A word read of 1 to 125 registers answers twice their number and their big-endian bytes, and changes nothing (R123, R124). -/
theorem readWords_of_shown (fc : Byte) {k : WordKind} {a q : Word} (trailing : List Byte) {ws : List Word} {s : State}
    (hq : q.toNat = ws.length) (hpos : 1 ≤ ws.length) (hmax : ws.length ≤ 125)
    (hshown : ∀ j < ws.length, s.area.reg (.word k) (a.toNat + j) = ws[j]?.map .word) :
    readWords fc k (.fields a q trailing) s =
      .next (s.answer (.pdu (fc :: byteOfNat (2 * ws.length) :: wordsToBytes ws))) := by
  have hvalues := rangeValues_eq_some_of_tagged (fun _ _ => Value.word.inj) hshown
  have hget := getRange_eq_ok (m := rangeMax (.word k)) hpos hmax hvalues
  have hquantity : ¬ (ws.length < 1 ∨ Config.qmaxReadRegs < ws.length) := by simp only [Config.qmaxReadRegs]; omega
  simp only [readWords, hq, if_neg hquantity, hget, numbered_map_snd, respond_eq, State.answer]

/-- READ_COILS of one coil answers its value at bit 0 of one byte (R121). -/
theorem exec_readCoils_one {a : Word} {b : Bool} {s : State} (hshown : s.area.reg (.bit .coil) a.toNat = some (.bit b)) :
    exec (.readCoils (.fields a 1 [])) s = .next (s.answer (.pdu [0x01, 0x01, if b then 0b00000001 else 0b00000000])) := by
  have hread := readBits_of_shown 0x01 (q := 1) (bits := [b]) [] rfl (by simp) (by simp) (by simpa using hshown)
  cases b <;> exact hread

/-- READ_HOLDING_REGISTERS of one register answers its value's two bytes, the high one first (R123). -/
theorem exec_readHoldingRegisters_one {a v : Word} {s : State}
    (hshown : s.area.reg (.word .holdingRegister) a.toNat = some (.word v)) :
    exec (.readHoldingRegisters (.fields a 1 [])) s = .next (s.answer (.pdu ([0x03, 0x02] ++ u16ToBe v))) :=
  readWords_of_shown 0x03 (q := 1) (ws := [v]) [] rfl (by simp) (by simp) (by simpa using hshown)

/-! ## Writing registers that exist -/

/-- WRITE_SINGLE_COIL stores a legal value in a coil that exists (R113, R127). -/
theorem exec_writeSingleCoil_of_present {a v : Word} {b : Bool} {s : State} (trailing : List Byte) (hv : coilValue v = some b)
    (hpresent : (s.area.reg (.bit .coil) a.toNat).isSome) :
    exec (.writeSingleCoil (.fields a v trailing)) s =
      .next ((s.setBitBank .coil (writeKey s.area.coils a.toNat b)).answer (echoPdu 0x05 a v)) := by
  have hwrite : writeOne s.area.coils a b = .ok (writeKey s.area.coils a.toNat b) :=
    writeOne_bitBank s.area .coil a b hpresent
  simp only [exec, execWriteSingleCoil, hv, hwrite]
  rfl

/-- WRITE_SINGLE_REGISTER stores any value in a holding register that exists (R128). -/
theorem exec_writeSingleRegister_of_present {a v : Word} {s : State} (trailing : List Byte)
    (hpresent : (s.area.reg (.word .holdingRegister) a.toNat).isSome) :
    exec (.writeSingleRegister (.fields a v trailing)) s =
      .next ((s.setWordBank .holdingRegister (writeKey s.area.holdingRegisters a.toNat v)).answer (echoPdu 0x06 a v)) := by
  have hwrite : writeOne s.area.holdingRegisters a v = .ok (writeKey s.area.holdingRegisters a.toNat v) :=
    writeOne_wordBank s.area .holdingRegister a v hpresent
  simp only [exec, execWriteSingleRegister, hwrite]
  rfl

/-- WRITE_MULTIPLE_COILS stores the unpacked data bits in 1 to 1968 coils that exist (R114, R129). -/
theorem exec_writeMultipleCoils_of_present {a q : Word} {count : Byte} {data : List Byte} {s : State} (hpos : 1 ≤ q.toNat)
    (hmax : q.toNat ≤ 1968) (hcount : count.toNat = bytesNeeded q.toNat) (hdata : count.toNat ≤ data.length)
    (hpresent : fullyPresent s.area (.bit .coil) a.toNat q.toNat) :
    exec (.writeMultipleCoils (.fields a q count data)) s =
      .next ((s.setBitBank .coil (writeRange s.area.coils a.toNat (unpackBits (data.take count.toNat) q.toNat))).answer
        (echoPdu 0x0F a q)) := by
  obtain ⟨vs, hvalues⟩ := Option.isSome_iff_exists.1 ((fullyPresent_bit_iff ..).1 hpresent)
  have hrange : q.toNat ≤ rangeMax (.bit .coil) := hmax.trans (by decide)
  have hget := getRange_eq_ok hpos hrange hvalues
  have hquantity : ¬ (q.toNat < 1 ∨ Config.qmaxWriteCoils < q.toNat) := by simp only [Config.qmaxWriteCoils]; omega
  have hlength : ¬ (count.toNat ≠ bytesNeeded q.toNat ∨ data.length < count.toNat) := by omega
  rw [DataArea.bitBank_coil] at hget
  simp only [exec, execWriteMultipleCoils, if_neg hquantity, if_neg hlength, hget]
  rfl

/-- After a range of registers that exist is written, each shows the value written to it (R129). -/
theorem reg_setBitBank_writeRange {d : DataArea} {k : BitKind} {start : Nat} {vs : List Bool}
    (hpresent : fullyPresent d (.bit k) start vs.length) {j : Nat} (hj : j < vs.length) :
    (d.setBitBank k (writeRange (d.bitBank k) start vs)).reg (.bit k) (start + j) = vs[j]?.map .bit := by
  have hbank : (bankAt (d.bitBank k) (start + j)).isSome := by simpa [DataArea.reg_bit] using hpresent j hj
  rw [reg_setBitBank, if_pos rfl, bankAt_writeRange, if_pos ⟨by omega, by omega, hbank⟩, Nat.add_sub_cancel_left]

/-- Unpacking takes from packed booleans the sequence that was packed (R102). -/
theorem unpackBits_packBits (bits : List Bool) : unpackBits (packBits bits) bits.length = bits := by
  refine List.ext_getElem (unpackBits_length _ _) fun j _ hj => ?_
  simp only [unpackBits, List.getElem_map, List.getElem_range, packBits_getLsbD, List.getD_eq_getElem _ _ hj]

/-- The coils that WRITE_MULTIPLE_COILS of a packed sequence leaves are that sequence (R129). -/
theorem exec_writeMultipleCoils_packBits {a : Word} {bits : List Bool} {s : State} (hpos : 1 ≤ bits.length)
    (hmax : bits.length ≤ 1968) (hpresent : fullyPresent s.area (.bit .coil) a.toNat bits.length) :
    ∃ t, exec (.writeMultipleCoils
        (.fields a (BitVec.ofNat 16 bits.length) (byteOfNat (bytesNeeded bits.length)) (packBits bits))) s = .next t ∧
      ∀ j < bits.length, t.area.reg (.bit .coil) (a.toNat + j) = bits[j]?.map .bit := by
  have hq : (BitVec.ofNat 16 bits.length).toNat = bits.length := Nat.mod_eq_of_lt (by omega)
  have hcount : (byteOfNat (bytesNeeded bits.length)).toNat = bytesNeeded bits.length :=
    Nat.mod_eq_of_lt (by simp only [bytesNeeded]; omega)
  have hexec := exec_writeMultipleCoils_of_present (a := a) (q := BitVec.ofNat 16 bits.length)
    (count := byteOfNat (bytesNeeded bits.length)) (data := packBits bits) (s := s)
    (by rwa [hq]) (by rwa [hq]) (by rw [hq, hcount]) (by rw [hcount, packBits_length]) (by rwa [hq])
  rw [hq, hcount, List.take_of_length_le (packBits_length bits).le, unpackBits_packBits] at hexec
  exact ⟨_, hexec, fun j hj => reg_setBitBank_writeRange hpresent hj⟩

/-! ## The laws -/

/-- A coil written 0xFF00 or 0x0000 reads back 1 or 0 (R132). -/
theorem writtenCoil_readsBack {a v : Word} {b : Bool} {s : State} (hv : coilValue v = some b)
    (hpresent : (s.area.reg (.bit .coil) a.toNat).isSome) :
    ∃ t, exec (.writeSingleCoil (.fields a v [])) s = .next t ∧
      ∀ u : State, u.area.reg (.bit .coil) a.toNat = t.area.reg (.bit .coil) a.toNat →
        exec (.readCoils (.fields a 1 [])) u =
          .next (u.answer (.pdu [0x01, 0x01, if b then 0b00000001 else 0b00000000])) := by
  have hafter := reg_setBitBank_writeKey s.area .coil a.toNat b hpresent (.bit .coil) a.toNat
  rw [if_pos ⟨rfl, rfl⟩] at hafter
  exact ⟨_, exec_writeSingleCoil_of_present [] hv hpresent, fun u hsame => exec_readCoils_one (hsame.trans hafter)⟩

/-- A holding register reads back the two bytes of the value written to it (R132). -/
theorem writtenRegister_readsBack {a : Word} (v : Word) {s : State}
    (hpresent : (s.area.reg (.word .holdingRegister) a.toNat).isSome) :
    ∃ t, exec (.writeSingleRegister (.fields a v [])) s = .next t ∧
      ∀ u : State, u.area.reg (.word .holdingRegister) a.toNat = t.area.reg (.word .holdingRegister) a.toNat →
        exec (.readHoldingRegisters (.fields a 1 [])) u = .next (u.answer (.pdu ([0x03, 0x02] ++ u16ToBe v))) := by
  have hafter := reg_setWordBank_writeKey s.area .holdingRegister a.toNat v hpresent (.word .holdingRegister) a.toNat
  rw [if_pos ⟨rfl, rfl⟩] at hafter
  exact ⟨_, exec_writeSingleRegister_of_present [] hpresent,
    fun u hsame => exec_readHoldingRegisters_one (hsame.trans hafter)⟩

/-- Coils written together read back as the same packed sequence (R132). -/
theorem writtenCoils_readBack {a : Word} {bits : List Bool} {s : State} (hpos : 1 ≤ bits.length) (hmax : bits.length ≤ 1968)
    (hpresent : fullyPresent s.area (.bit .coil) a.toNat bits.length) :
    ∃ t, exec (.writeMultipleCoils
        (.fields a (BitVec.ofNat 16 bits.length) (byteOfNat (bytesNeeded bits.length)) (packBits bits))) s = .next t ∧
      ∀ u : State, (∀ j < bits.length, u.area.reg (.bit .coil) (a.toNat + j) = t.area.reg (.bit .coil) (a.toNat + j)) →
        exec (.readCoils (.fields a (BitVec.ofNat 16 bits.length) [])) u =
          .next (u.answer (.pdu (0x01 :: byteOfNat (bytesNeeded bits.length) :: packBits bits))) := by
  obtain ⟨t, hexec, hafter⟩ := exec_writeMultipleCoils_packBits hpos hmax hpresent
  have hq : (BitVec.ofNat 16 bits.length).toNat = bits.length := Nat.mod_eq_of_lt (by omega)
  exact ⟨t, hexec, fun u hsame =>
    readBits_of_shown 0x01 [] hq hpos (hmax.trans (by decide)) fun j hj => (hsame j hj).trans (hafter j hj)⟩

/-- Settles O31: one law for each write; 0xFF00 and 0x0000 are the values of a coil that is on and of one that is off. -/
theorem writtenValuesReadBack : Obligations.WrittenValuesReadBack := by
  refine ⟨fun s a v hv hpresent => ?coil, fun _ _ v hpresent => writtenRegister_readsBack v hpresent,
    fun _ _ _ hpos hmax hpresent => writtenCoils_readBack hpos hmax hpresent⟩
  case coil =>
    obtain rfl | rfl := hv
    · exact writtenCoil_readsBack (b := true) rfl hpresent
    · exact writtenCoil_readsBack (b := false) rfl hpresent

end Sys2Proof.Machine
end

section
/-! The MBAP header codec (spec/47_mbap_codec.md R138): parsing and serializing undo each other, first as functions on bytes, then as
the answers of the two commands. -/

namespace Sys2Proof.Machine

/-! ## The codec on bytes -/

@[simp] theorem mbapSerialize_length (m : MbapHeader) : (mbapSerialize m).length = 7 := rfl

/-- R138, first law: each field's two bytes, high one first, are read back as that field. -/
@[simp] theorem mbapParse_mbapSerialize (m : MbapHeader) : mbapParse (mbapSerialize m) = some m := by
  simp only [mbapSerialize, u16ToBe, List.cons_append, List.nil_append, mbapParse, u16FromBe_bytes]

/-- R138, second law: seven bytes are enough for a header (R135), and that header holds exactly the first seven. -/
theorem mbapParse_eq_some_of_length {b : List Byte} (hlength : 7 ≤ b.length) :
    ∃ m, mbapParse b = some m ∧ mbapSerialize m = b.take 7 := by
  match b, hlength with
  | t1 :: t0 :: p1 :: p0 :: l1 :: l0 :: u :: rest, _ =>
    refine ⟨_, rfl, ?_⟩
    simp only [mbapSerialize, u16ToBe, highByte_u16FromBe, lowByte_u16FromBe]
    rfl

/-! ## The two commands -/

/-- MBAP_SERIALIZE answers the header's bytes and changes nothing else (R136). -/
theorem exec_lMbapSerialize (m : MbapHeader) (s : State) :
    exec (.lMbapSerialize m) s = .next (s.answer (.ok (.bytes (mbapSerialize m)))) := rfl

/-- MBAP_PARSE answers the header that the bytes hold and changes nothing else (R135). -/
theorem exec_lMbapParse_of_eq_some {b : List Byte} {m : MbapHeader} (hparse : mbapParse b = some m) (s : State) :
    exec (.lMbapParse b) s = .next (s.answer (.ok (.header m))) := by
  simp only [exec, execLMbapParse, hparse]
  rfl

/-- Settles O47: each law of the codec, carried over to the answers of the two commands. -/
theorem mbapParseAndSerializeAreInverse : Obligations.MbapParseAndSerializeAreInverse := by
  refine fun s => ⟨fun m => ?parseSerialized, fun b hlength => ?serializeParsed⟩
  case parseSerialized =>
    exact ⟨mbapSerialize m, mbapSerialize_length m, exec_lMbapSerialize m s,
      exec_lMbapParse_of_eq_some (mbapParse_mbapSerialize m) s⟩
  case serializeParsed =>
    obtain ⟨m, hparse, hbytes⟩ := mbapParse_eq_some_of_length hlength
    exact ⟨m, exec_lMbapParse_of_eq_some hparse s, hbytes ▸ exec_lMbapSerialize m s⟩

end Sys2Proof.Machine
end

section
/-! The encoding (spec/30_encoding.md): decoder and encoder undo each other on both ports, row by row of the dispatch table and of the
table of the operations of port L, and the function code alone selects a request's row. -/

namespace Sys2Proof

open Machine

/-! ## Requests -/

/-- A request that is decoded has 1 to 253 bytes, and its row of the dispatch table is the one decoded (R65, R110). -/
theorem decodeRequest_eq_ok {req : List Byte} {i : Instr} (h : decodeRequest req = .ok i) :
    ∃ fc p, req = fc :: p ∧ p.length ≤ 252 ∧ i = dispatchRequest fc p := by
  match req, h with
  | fc :: p, h =>
    simp only [decodeRequest] at h
    split at h
    · cases h
    · rename_i hlength
      cases h
      exact ⟨fc, p, rfl, by simp only [Config.pduMax] at hlength; omega, rfl⟩

/-- A body with a 5-byte header that is well-formed is decoded by its row of the dispatch table. -/
theorem decode_fixedBytes {fc : Byte} {f : FixedBody → Instr} (hrow : ∀ p, dispatchRequest fc p = f (fixedBody p))
    {b : FixedBody} (hb : b.wf = true) : decode (.request (fc :: fixedBytes b)) = .ok (f b) := by
  have hlength := fixedBytes_length_of_wf b hb
  rw [decode_request (by omega), hrow, fixedBody_fixedBytes b hb]

/-- A body with a 6-byte header that is well-formed is decoded by its row of the dispatch table. -/
theorem decode_multiBytes {fc : Byte} {f : MultiBody → Instr} (hrow : ∀ p, dispatchRequest fc p = f (multiBody p))
    {b : MultiBody} (hb : b.wf = true) : decode (.request (fc :: multiBytes b)) = .ok (f b) := by
  have hlength := multiBytes_length_of_wf b hb
  rw [decode_request (by omega), hrow, multiBody_multiBytes b hb]

/-- The row of every request is encoded as that request (R57 to R60, R67). -/
theorem encode_dispatchRequest (fc : Byte) (p : List Byte) : encode (dispatchRequest fc p) = .request (fc :: p) := by
  unfold dispatchRequest
  split_ifs <;> simp only [encode, fixedBytes_fixedBody, multiBytes_multiBody] <;> subst_vars <;> rfl

/-- The row of every request of at most 253 bytes is well-formed (R57, R110). -/
theorem dispatchRequest_wf (fc : Byte) {p : List Byte} (hp : p.length ≤ 252) : (dispatchRequest fc p).wf = true := by
  have hfixed : (fixedBody p).wf = true := fixedBody_wf p hp
  have hmulti : (multiBody p).wf = true := multiBody_wf p hp
  unfold dispatchRequest
  split_ifs with h1 h2 h3 h4 h5 h6 hF h10
  case neg =>
    have hlength : p.length + 1 ≤ Config.pduMax := by simp only [Config.pduMax]; omega
    simp [Instr.wf, supportedCodes, h1, h2, h3, h4, h5, h6, hF, h10, hlength]
  all_goals assumption

/-! ## Local commands -/

/-- A word whose fields match the row of an operation is decoded by that row (R71, R72). -/
theorem decode_command_wordOf {f : LocalFields} {o : LocalOp} (hop : localOpOf f.op = some o) (hunread : unreadZero o f = true)
    (x : Operand) : decode (.command (wordOf f) x) = decodeOperation o f x := by
  simp only [decode, decodeCommand, fieldsOf_wordOf, hop, hunread, if_true]

@[simp] theorem withKind_kindCode (k : Kind) (f : Kind → Except DecodeError Instr) : withKind (kindCode k) f = f k := by
  simp only [withKind, kindOf_kindCode]

@[simp] theorem withoutOperand_absent (r : Except DecodeError Instr) : withoutOperand .absent r = r := rfl

/-- A word that matches no row is decoded as L.RESERVED (R76). -/
theorem decode_command_of_isReservedWord {w : CommandWord} (hw : isReservedWord w = true) (x : Operand) :
    decode (.command w x) = .ok (.lReserved w x) := by
  simp only [isReservedWord] at hw
  simp only [decode, decodeCommand]
  cases hop : localOpOf (fieldsOf w).op with
  | none => rfl
  | some o =>
    simp only [hop, Bool.not_eq_true'] at hw
    simp [hw]

/-- Settles O1: each row's own word is matched by that row and by no other, and its fields are read back one by one. -/
theorem decodeUndoesEncode : Obligations.DecodeUndoesEncode := by
  intro i hwf
  cases i with
  | readCoils b => exact decode_fixedBytes (fun _ => rfl) hwf
  | readDiscreteInputs b => exact decode_fixedBytes (fun _ => rfl) hwf
  | readHoldingRegisters b => exact decode_fixedBytes (fun _ => rfl) hwf
  | readInputRegisters b => exact decode_fixedBytes (fun _ => rfl) hwf
  | writeSingleCoil b => exact decode_fixedBytes (fun _ => rfl) hwf
  | writeSingleRegister b => exact decode_fixedBytes (fun _ => rfl) hwf
  | writeMultipleCoils b => exact decode_multiBytes (fun _ => rfl) hwf
  | writeMultipleRegisters b => exact decode_multiBytes (fun _ => rfl) hwf
  | illegal fc p =>
    simp only [Instr.wf, Bool.and_eq_true, Bool.not_eq_true', List.contains_eq_mem, decide_eq_false_iff_not] at hwf
    obtain ⟨hfc, hlength⟩ := hwf
    have hfits : p.length + 1 ≤ 253 := of_decide_eq_true hlength
    rw [encode, decode_request (by omega), dispatchRequest_of_not_supported hfc]
  | lInsert a v => rw [encode, decode_command_wordOf (o := .insert) rfl rfl]; simp [decodeOperation]
  | lGenerate k p a n => rw [encode, decode_command_wordOf (o := .generate) rfl rfl]; simp [decodeOperation]
  | lGetRange k a n => rw [encode, decode_command_wordOf (o := .getRange) rfl rfl]; simp [decodeOperation]
  | lGetOne k a => rw [encode, decode_command_wordOf (o := .getOne) rfl rfl]; simp [decodeOperation]
  | lWriteOne a v => rw [encode, decode_command_wordOf (o := .writeOne) rfl rfl]; simp [decodeOperation]
  | lPackBits b => exact decode_command_wordOf (o := .packBits) rfl rfl _
  | lUnpackBits n d => exact decode_command_wordOf (o := .unpackBits) rfl rfl _
  | lBytesNeeded n => exact decode_command_wordOf (o := .bytesNeeded) rfl rfl _
  | lU16FromBe hi lo => exact decode_command_wordOf (o := .u16FromBe) rfl rfl _
  | lU16ToBe v => exact decode_command_wordOf (o := .u16ToBe) rfl rfl _
  | lExceptionPdu fc c => rw [encode, decode_command_wordOf (o := .exceptionPdu) rfl rfl]; simp [decodeOperation]
  | lFormatAddress k a => rw [encode, decode_command_wordOf (o := .formatAddress) rfl rfl]; simp [decodeOperation]
  | lMbapParse b => exact decode_command_wordOf (o := .mbapParse) rfl rfl _
  | lMbapSerialize m => exact decode_command_wordOf (o := .mbapSerialize) rfl rfl _
  | lMbapFrame m r => exact decode_command_wordOf (o := .mbapFrame) rfl rfl _
  | lReserved w x => exact decode_command_of_isReservedWord hwf x

/-- The row an operation's word was decoded by encodes the instruction as that word and operand: the fields read are in the
instruction, and the others are 0 (R72 to R74, R76). -/
theorem encode_decodeOperation {o : LocalOp} {f : LocalFields} {x : Operand} {i : Instr} (hop : f.op = opCode o)
    (hunread : unreadZero o f = true) (h : decodeOperation o f x = .ok i) :
    encode i = .command (wordOf f) x ∧ i.wf = true := by
  obtain ⟨op, kind, pattern, zero, addr, count, value⟩ := f
  subst hop
  cases o <;> simp only [unreadZero, Bool.and_eq_true, decide_eq_true_eq] at hunread <;> simp only [decodeOperation] at h
  case insert | writeOne =>
    obtain ⟨rfl, rfl, rfl⟩ := hunread
    obtain ⟨rfl, hkind⟩ := withoutOperand_eq_ok h
    obtain ⟨k, rfl, hrow⟩ := withKind_eq_ok hkind
    cases hv : valueOf k value with
    | none => simp [hv] at hrow
    | some v =>
      simp only [hv, Except.ok.injEq] at hrow
      obtain ⟨rfl, rfl⟩ := valueCode_of_valueOf hv
      subst hrow; exact ⟨rfl, rfl⟩
  case generate =>
    obtain ⟨rfl, rfl⟩ := hunread
    obtain ⟨rfl, hkind⟩ := withoutOperand_eq_ok h
    obtain ⟨k, rfl, hrow⟩ := withKind_eq_ok hkind
    cases hp : patternOf pattern with
    | none => simp [hp] at hrow
    | some p =>
      simp only [hp, Except.ok.injEq] at hrow
      obtain rfl := patternCode_of_patternOf hp
      subst hrow; exact ⟨rfl, rfl⟩
  case getRange =>
    obtain ⟨rfl, rfl, rfl⟩ := hunread
    obtain ⟨rfl, hkind⟩ := withoutOperand_eq_ok h
    obtain ⟨k, rfl, hrow⟩ := withKind_eq_ok hkind
    cases hrow; exact ⟨rfl, rfl⟩
  case getOne | formatAddress =>
    obtain ⟨rfl, ⟨rfl, rfl⟩, rfl⟩ := hunread
    obtain ⟨rfl, hkind⟩ := withoutOperand_eq_ok h
    obtain ⟨k, rfl, hrow⟩ := withKind_eq_ok hkind
    cases hrow; exact ⟨rfl, rfl⟩
  case bytesNeeded | u16ToBe =>
    obtain ⟨rfl, ⟨⟨rfl, rfl⟩, rfl⟩, rfl⟩ := hunread
    obtain ⟨rfl, hrow⟩ := withoutOperand_eq_ok h
    cases hrow; exact ⟨rfl, rfl⟩
  case exceptionPdu =>
    obtain ⟨rfl, ⟨⟨rfl, rfl⟩, rfl⟩, rfl⟩ := hunread
    obtain ⟨rfl, hrow⟩ := withoutOperand_eq_ok h
    cases hrow; exact ⟨by simp [encode, opFields, opCode], rfl⟩
  case unpackBits =>
    obtain ⟨rfl, ⟨⟨rfl, rfl⟩, rfl⟩, rfl⟩ := hunread
    split at h <;> cases h
    exact ⟨rfl, rfl⟩
  case packBits | u16FromBe | mbapParse | mbapSerialize | mbapFrame =>
    obtain ⟨rfl, ⟨⟨⟨rfl, rfl⟩, rfl⟩, rfl⟩, rfl⟩ := hunread
    split at h <;> cases h
    exact ⟨rfl, rfl⟩

/-- Whatever a command is decoded to is encoded as that command (R71, R76). -/
theorem encode_decodeCommand {w : CommandWord} {x : Operand} {i : Instr} (h : decodeCommand w x = .ok i) :
    encode i = .command w x ∧ i.wf = true := by
  cases hreserved : isReservedWord w with
  | true =>
    have hi : .lReserved w x = i := Except.ok.inj ((decode_command_of_isReservedWord hreserved x).symm.trans h)
    subst hi; exact ⟨rfl, hreserved⟩
  | false =>
    simp only [isReservedWord] at hreserved
    simp only [decodeCommand] at h
    cases hop : localOpOf (fieldsOf w).op with
    | none => simp [hop] at hreserved
    | some o =>
      simp only [hop, Bool.not_eq_false'] at hreserved
      simp only [hop, hreserved, if_true] at h
      simpa only [wordOf_fieldsOf] using encode_decodeOperation (eq_opCode_of_localOpOf hop) hreserved h

/-- Settles O2: a request by the dispatch table, a command by the row that its word matches. -/
theorem encodeUndoesDecode : Obligations.EncodeUndoesDecode := by
  intro t i h
  cases t with
  | request req =>
    obtain ⟨fc, p, rfl, hlength, rfl⟩ := decodeRequest_eq_ok h
    exact ⟨encode_dispatchRequest fc p, dispatchRequest_wf fc hlength⟩
  | command w x => exact encode_decodeCommand h

/-! ## Single rows -/

/-- Settles O3: each word is read row by row as the tables say. -/
theorem writtenOutWordsDecode : Obligations.WrittenOutWordsDecode := by
  refine ⟨?readCoils, ?writeSingleCoil, ?writeMultipleRegisters, ?illegal, ?insert, ?generate, ?getRange⟩ <;> decide

/-- Settles O4: the rows of the dispatch table differ in the function code alone. -/
theorem functionCodeAloneSelects : Obligations.FunctionCodeAloneSelects := by
  intro fc p hlength
  refine ⟨dispatchRequest fc p, decode_request hlength, ?_⟩
  simp only [dispatchRequest, apply_ite mnemonic]
  rfl

end Sys2Proof
end

section
/-! What every step and every host action keeps (spec/10_state.md R17 to R19, R34; spec/70_reset_and_hazards.md R162, R164), and the
states after reset and restart. -/

namespace Sys2Proof.Machine

/-! ## One step, field by field -/

/-- All that a step can do when it answers a next state, field by field: nothing, for want of a transaction, or one outstanding
transaction is taken out and its answer `x` placed; the Data Area changes as one instruction may change it. -/
theorem step_fields {s s' : State} (h : step s = .next s') :
    (s.pending = [] ∧ s' = s) ∨
    ∃ r t i u x, (r, t) ∈ s.pending ∧ decode t = .ok i ∧ exec i (s.take r) = .next u ∧ u.response = some x ∧
      AreaChange s.area i s'.area ∧ s'.area = u.area ∧ s'.response = none ∧
      s'.pending = removeKey s.pending r ∧ s'.delivered = placeKey s.delivered r x := by
  obtain hidle | ⟨r, t, i, u, -, hmem, hdecode, hexec, rfl⟩ := step_cases h
  · exact .inl hidle
  · obtain ⟨d, k, x, rfl, harea⟩ := exec_change hexec
    exact .inr ⟨r, t, i, _, x, hmem, hdecode, hexec, rfl, harea, rfl, rfl, rfl, State.deliver_delivered _ r x rfl⟩

/-- Settles O8: with nothing to choose from the block does nothing. -/
theorem idleBlockStays : Obligations.IdleBlockStays := by
  intro s hidle
  simp only [step, (choose_eq_none_iff s.turns s.pending).2 hidle]

/-- Settles O7: the fields of a step that is not idle. -/
theorem stepPerformsOneWholeTransaction : Obligations.StepPerformsOneWholeTransaction := by
  intro s s' _ hpending hstep
  obtain ⟨hidle, -⟩ | ⟨r, t, i, u, x, hmem, hdecode, hexec, hanswer, -, harea, hresponse, hp, hd⟩ := step_fields hstep
  · exact absurd hidle hpending
  · refine ⟨r, t, i, u, x, hmem, hdecode, hexec, hanswer, harea, hresponse, fun q => ?_, fun q => ?_⟩
    · rw [hp, lookupKey_removeKey]
    · rw [hd, lookupKey_placeKey]

/-! ## The invariant -/

/-- Taking a transaction out and placing its requester's answer keeps the invariant of the ports (R31, R34, R35). -/
theorem Inv.of_served {s s' : State} {r : Nat} {t : Transaction} {x : Response} (hinv : Inv s) (hmem : (r, t) ∈ s.pending)
    (harea : Memory.wf s'.area) (hresponse : s'.response = none) (hp : s'.pending = removeKey s.pending r)
    (hd : s'.delivered = placeKey s.delivered r x) : Inv s' where
  area_wf := harea
  pending_ascending := hp ▸ removeKey_ascending r hinv.pending_ascending
  pending_requesters e he := by
    rw [hp] at he
    exact hinv.pending_requesters e (mem_removeKey.1 he).1
  response_empty := hresponse
  delivered_ascending := hd ▸ placeKey_ascending r x hinv.delivered_ascending
  delivered_requesters e he := by
    rw [hd] at he
    obtain rfl | he := mem_placeKey he
    · exact hinv.pending_requesters _ hmem
    · exact hinv.delivered_requesters e he
  one_outstanding e he := by
    rw [hp] at he
    obtain ⟨hout, hne⟩ := mem_removeKey.1 he
    rw [hd, lookupKey_placeKey, if_neg hne]
    exact hinv.one_outstanding e hout

/-- Settles O10: an idle step changes nothing; another one changes the Data Area as one instruction may, which keeps its canonical form,
and serves one requester. -/
theorem stepKeepsInvariant : Obligations.StepKeepsInvariant := by
  intro s s' hinv hstep
  obtain ⟨-, rfl⟩ | ⟨r, t, i, u, x, hmem, -, -, -, harea, -, hresponse, hp, hd⟩ := step_fields hstep
  · exact hinv
  · exact hinv.of_served hmem (harea.wf hinv.area_wf) hresponse hp hd

/-! ## Host actions -/

/-- All that presenting a transaction can do when it is not refused (R32, R33, R170). -/
theorem present_eq_next {s s' : State} {r : Nat} {t : Transaction} (h : s.present r t = .next s') :
    r < Config.nReq ∧ lookupKey s.pending r = none ∧ lookupKey s.delivered r = none ∧
      s' = { s with pending := placeKey s.pending r t } := by
  unfold State.present at h
  split at h
  · cases h
  · rename_i hr
    split at h
    · cases h
    · rename_i hfree
      simp only [not_or, Option.not_isSome_iff_eq_none] at hfree
      obtain ⟨hp, hd⟩ := hfree
      cases h
      exact ⟨Nat.lt_of_not_le hr, hp, hd, rfl⟩

/-- Presenting a transaction keeps the invariant: its requester had neither one outstanding nor an unread answer. -/
theorem Inv.present {s s' : State} {r : Nat} {t : Transaction} (hinv : Inv s) (h : s.present r t = .next s') : Inv s' := by
  obtain ⟨hr, -, hd, rfl⟩ := present_eq_next h
  exact {
    area_wf := hinv.area_wf
    pending_ascending := placeKey_ascending r t hinv.pending_ascending
    pending_requesters := fun e he => by
      obtain rfl | he := mem_placeKey he
      · exact hr
      · exact hinv.pending_requesters e he
    response_empty := hinv.response_empty
    delivered_ascending := hinv.delivered_ascending
    delivered_requesters := hinv.delivered_requesters
    one_outstanding := fun e he => by
      obtain rfl | he := mem_placeKey he
      · exact hd
      · exact hinv.one_outstanding e he }

/-- Reading an answer keeps the invariant (R28, R35). -/
theorem Inv.takeResponse {s : State} (hinv : Inv s) (r : Nat) : Inv (s.takeResponse r).2 where
  area_wf := hinv.area_wf
  pending_ascending := hinv.pending_ascending
  pending_requesters := hinv.pending_requesters
  response_empty := hinv.response_empty
  delivered_ascending := removeKey_ascending r hinv.delivered_ascending
  delivered_requesters e he := hinv.delivered_requesters e (mem_removeKey.1 he).1
  one_outstanding e he := by
    rw [State.takeResponse_state_delivered, lookupKey_removeKey, hinv.one_outstanding e he, ite_self]

/-- The invariant holds of a state with empty banks and empty ports, whatever the model's counters are. -/
theorem Inv.of_empty {s : State} (harea : s.area = DataArea.empty) (hp : s.pending = []) (hresponse : s.response = none)
    (hd : s.delivered = []) : Inv s where
  area_wf := harea ▸ empty_wf
  pending_ascending := by rw [hp]; exact List.Pairwise.nil
  pending_requesters := by simp [hp]
  response_empty := hresponse
  delivered_ascending := by rw [hd]; exact List.Pairwise.nil
  delivered_requesters := by simp [hd]
  one_outstanding := by simp [hp]

/-- Settles O11: one lemma for each action of a host. -/
theorem hostActionsKeepInvariant : Obligations.HostActionsKeepInvariant := fun s hinv =>
  ⟨fun _ _ _ h => hinv.present h, fun r => hinv.takeResponse r,
    .of_empty s.restart_area s.restart_pending s.restart_response s.restart_delivered⟩

/-- Settles O12: a state with empty banks and empty ports. -/
theorem resetHasInvariant : Obligations.ResetHasInvariant := .of_empty rfl rfl rfl rfl

/-! ## Presenting, reset and restart -/

/-- Settles O18: the two checks of presenting in their order, and what is placed when both pass. -/
theorem oneOutstandingTransactionPerRequester : Obligations.OneOutstandingTransactionPerRequester := by
  intro s r t
  refine ⟨fun hr => ?noSuchRequester, fun hr hbusy => ?outstanding, fun hr hp hd => ?presented⟩
  case noSuchRequester => rw [State.present, if_pos hr]
  case outstanding => rw [State.present, if_neg (Nat.not_le_of_lt hr), if_pos hbusy]
  case presented =>
    refine ⟨placeKey s.pending r t, ?_, fun q => lookupKey_placeKey s.pending r q t⟩
    rw [State.present, if_neg (Nat.not_le_of_lt hr), if_neg (by simp [hp, hd])]

theorem size_empty (K : Kind) : DataArea.empty.size K = 0 := by
  rcases K with (_ | _) | (_ | _) <;> rfl

/-- Settles O13: the Data Area after reset is the empty one. -/
theorem resetIsEmpty : Obligations.ResetIsEmpty := ⟨reg_empty, size_empty, rfl, rfl, rfl⟩

/-- Settles O51: the Data Area after a restart is the empty one, and the counters go on. -/
theorem restartIsAReset : Obligations.RestartIsAReset := fun _ =>
  ⟨reg_empty, size_empty, rfl, rfl, rfl, rfl, rfl⟩

end Sys2Proof.Machine
end

section
/-! Completion (spec/10_state.md R35, R36; spec/60_exceptions.md R161): every instruction that the block performs ends with an answer,
every other one is refused, and so every admitted transaction that is outstanding is served. -/

namespace Sys2Proof.Machine

/-! ## Performed and refused instructions -/

/-- A read of bits answers a next state on every path. -/
theorem readBits_answers (fc : Byte) (k : BitKind) (body : FixedBody) (s : State) : ∃ t, readBits fc k body s = .next t := by
  obtain h | h | ⟨_, _, _, _, -, -, -, -, h⟩ := readBits_cases fc k body s <;> exact ⟨_, h⟩

/-- A read of words answers a next state on every path. -/
theorem readWords_answers (fc : Byte) (k : WordKind) (body : FixedBody) (s : State) : ∃ t, readWords fc k body s = .next t := by
  obtain h | h | ⟨_, _, _, _, -, -, -, -, h⟩ := readWords_cases fc k body s <;> exact ⟨_, h⟩

/-- An instruction that the block performs answers a next state, from every state (R36). -/
theorem exec_eq_next_of_performed {i : Instr} (h : performed i = true) (s : State) : ∃ t, exec i s = .next t := by
  cases i with
  | readCoils b => exact readBits_answers _ _ b s
  | readDiscreteInputs b => exact readBits_answers _ _ b s
  | readHoldingRegisters b => exact readWords_answers _ _ b s
  | readInputRegisters b => exact readWords_answers _ _ b s
  | writeSingleCoil b =>
    obtain h | h | ⟨_, _, _, _, -, -, -, h⟩ := execWriteSingleCoil_cases b s <;> exact ⟨_, h⟩
  | writeSingleRegister b =>
    obtain h | h | ⟨_, _, _, -, -, h⟩ := execWriteSingleRegister_cases b s <;> exact ⟨_, h⟩
  | writeMultipleCoils b =>
    obtain h | h | ⟨_, _, _, _, -, -, -, -, -, -, h⟩ := execWriteMultipleCoils_cases b s <;> exact ⟨_, h⟩
  | writeMultipleRegisters b =>
    obtain h | h | ⟨_, _, _, _, -, -, -, -, -, -, h⟩ := execWriteMultipleRegisters_cases b s <;> exact ⟨_, h⟩
  | lInsert a v =>
    obtain ⟨_, h⟩ | ⟨_, _, _, -, -, h⟩ | ⟨_, _, _, -, -, h⟩ := execLInsert_cases a v s <;> exact ⟨_, h⟩
  | lGenerate K p a n =>
    obtain ⟨_, h⟩ | ⟨_, _, _, -, -, -, h⟩ | ⟨_, _, -, -, h⟩ := execLGenerate_cases K p a n s <;> exact ⟨_, h⟩
  | lWriteOne a v =>
    obtain ⟨_, h⟩ | ⟨_, _, -, -, h⟩ | ⟨_, _, -, -, h⟩ := execLWriteOne_cases a v s <;> exact ⟨_, h⟩
  | lGetRange K a n => obtain ⟨_, h⟩ := execLGetRange_answers K a n s; exact ⟨_, h⟩
  | lGetOne K a => obtain ⟨_, h⟩ := execLGetOne_answers K a s; exact ⟨_, h⟩
  | lMbapParse b => obtain ⟨_, h⟩ := execLMbapParse_answers b s; exact ⟨_, h⟩
  | lUnpackBits n d =>
    obtain ⟨-, h⟩ | ⟨hshort, -⟩ := execLUnpackBits_cases n d s
    · exact ⟨_, h⟩
    · rw [(performed_lUnpackBits_eq_false_iff n d).2 hshort] at h; cases h
  | lMbapFrame m r =>
    obtain ⟨-, h⟩ | ⟨hlength, -⟩ := execLMbapFrame_cases m r s
    · exact ⟨_, h⟩
    · rw [(performed_lMbapFrame_eq_false_iff m r).2 hlength] at h; cases h
  | lReserved w x => cases h
  | illegal | lPackBits | lBytesNeeded | lU16FromBe | lU16ToBe | lExceptionPdu | lFormatAddress | lMbapSerialize =>
    exact ⟨_, rfl⟩

/-- Every other instruction is refused, in every state: L.RESERVED, and the operands that R98 and R137 exclude. -/
theorem exec_eq_refused_of_not_performed {i : Instr} (h : performed i = false) (s : State) : ∃ e, exec i s = .refused e := by
  cases i with
  | lUnpackBits n d =>
    obtain ⟨hlength, -⟩ | ⟨-, h⟩ := execLUnpackBits_cases n d s
    · exact absurd ((performed_lUnpackBits_eq_false_iff n d).1 h) (Nat.not_lt.2 hlength)
    · exact ⟨_, h⟩
  | lMbapFrame m r =>
    obtain ⟨⟨hpos, hmax⟩, -⟩ | ⟨-, h⟩ := execLMbapFrame_cases m r s
    · have hbad := (performed_lMbapFrame_eq_false_iff m r).1 h
      simp only [Config.pduMax] at hmax
      omega
    · exact ⟨_, h⟩
  | lReserved w x => exact execLReserved_refuses w x s
  | _ => cases h

/-- Settles O16: a next state has an answer, and leaves the ports and the turn counter alone, whatever instruction answered it. -/
theorem everyPerformedInstructionAnswers : Obligations.EveryPerformedInstructionAnswers := by
  intro i s hperformed
  obtain ⟨t, hexec⟩ := exec_eq_next_of_performed hperformed s
  obtain ⟨d, k, x, rfl, -⟩ := exec_change hexec
  exact ⟨_, x, hexec, rfl, rfl, rfl, rfl⟩

/-! ## One transaction -/

/-- An admitted transaction is performed: its requester is served and the others are as before. -/
theorem perform_eq_next_of_admitted {t : Transaction} (h : admitted t = true) (r : Nat) (s : State) :
    ∃ s', perform r t s = .next s' := by
  simp only [admitted] at h
  simp only [perform]
  cases hdecode : decode t with
  | error e => simp [hdecode] at h
  | ok i =>
    simp only [hdecode] at h
    obtain ⟨u, hexec⟩ := exec_eq_next_of_performed h (s.take r)
    simp only [hexec]
    exact ⟨_, rfl⟩

/-- Every other transaction is refused (R10, R36). -/
theorem perform_eq_refused_of_not_admitted {t : Transaction} (h : admitted t = false) (r : Nat) (s : State) :
    ∃ e, perform r t s = .refused e := by
  simp only [admitted] at h
  simp only [perform]
  cases hdecode : decode t with
  | error e => exact ⟨_, rfl⟩
  | ok i =>
    simp only [hdecode] at h
    obtain ⟨e, hexec⟩ := exec_eq_refused_of_not_performed h (s.take r)
    simp only [hexec]
    exact ⟨_, rfl⟩

/-- Taking the only outstanding transaction leaves none. -/
theorem State.take_of_pending_singleton {s : State} {r : Nat} {t : Transaction} (h : s.pending = [(r, t)]) :
    s.take r = { s with pending := [], response := none, turns := s.turns + 1 } := by
  simp [State.take, h, removeKey]

/-- Settles O6: the only outstanding transaction is the one that is performed, and taking it leaves nothing outstanding. -/
theorem stepRunsTheDecodedInstruction : Obligations.StepRunsTheDecodedInstruction := by
  intro s r t i hpending hdecode
  rw [step_of_pending_singleton hpending, ← State.take_of_pending_singleton hpending]
  cases hexec : exec i (s.take r) <;> simp only [perform, hdecode, hexec]

/-! ## All outstanding transactions -/

/-- With admitted transactions outstanding a step serves one of them. -/
theorem step_serves {s : State} (hpending : s.pending ≠ []) (hadmitted : ∀ e ∈ s.pending, admitted e.2 = true) :
    ∃ s' r t x, step s = .next s' ∧ (r, t) ∈ s.pending ∧ s'.pending = removeKey s.pending r ∧
      s'.delivered = placeKey s.delivered r x := by
  cases hchoose : choose s.turns s.pending with
  | none => exact absurd ((choose_eq_none_iff _ _).1 hchoose) hpending
  | some e =>
    obtain ⟨s', hperform⟩ := perform_eq_next_of_admitted (hadmitted e (choose_mem hchoose)) e.1 s
    have hstep : step s = .next s' := by simp only [step, hchoose, hperform]
    obtain ⟨hidle, -⟩ | ⟨r, t, i, u, x, hmem, -, -, -, -, -, -, hp, hd⟩ := step_fields hstep
    · exact absurd hidle hpending
    · exact ⟨s', r, t, x, hstep, hmem, hp, hd⟩

/-- n steps serve n admitted transactions: each requester that had one outstanding, or an answer already, has an answer after them. -/
theorem run_serves (n : Nat) {s : State} (hlength : s.pending.length = n) (hascending : ascending s.pending)
    (hadmitted : ∀ e ∈ s.pending, admitted e.2 = true) :
    ∃ t, Host.Core.run Sys2Proof.core n s = .next t ∧ t.pending = [] ∧
      ∀ q, (lookupKey s.pending q).isSome ∨ (lookupKey s.delivered q).isSome → (lookupKey t.delivered q).isSome := by
  induction n generalizing s with
  | zero =>
    have hnone : s.pending = [] := List.length_eq_zero_iff.1 hlength
    exact ⟨s, rfl, hnone, fun q hq => by simpa [hnone] using hq⟩
  | succ n ih =>
    have hpending : s.pending ≠ [] := List.ne_nil_of_length_eq_add_one hlength
    obtain ⟨s', r, t, x, hstep, hmem, hp, hd⟩ := step_serves hpending hadmitted
    have hout : (lookupKey s.pending r).isSome := (lookupKey_isSome_iff _ _).2 ⟨_, hmem, rfl⟩
    have hlength' : s'.pending.length = n := by
      have := removeKey_length hascending hout
      rw [hp]; omega
    have hascending' : ascending s'.pending := hp ▸ removeKey_ascending r hascending
    have hadmitted' : ∀ e ∈ s'.pending, admitted e.2 = true := fun e he => by
      rw [hp] at he
      exact hadmitted e (mem_removeKey.1 he).1
    obtain ⟨u, hrun, hnone, hanswered⟩ := ih hlength' hascending' hadmitted'
    refine ⟨u, (run_succ Sys2Proof.core n hstep).trans hrun, hnone, fun q hq => hanswered q ?_⟩
    rw [hp, hd, lookupKey_removeKey, lookupKey_placeKey]
    by_cases hqr : q = r
    · simp [hqr]
    · simpa [hqr] using hq

/-- Settles O17: by induction on the number of outstanding transactions (`run_serves`). -/
theorem outstandingTransactionsAreServed : Obligations.OutstandingTransactionsAreServed := by
  intro s hinv hadmitted
  obtain ⟨t, hrun, hnone, hanswered⟩ := run_serves _ rfl hinv.pending_ascending hadmitted
  exact ⟨t, hrun, hnone, fun e he =>
    Option.isSome_iff_exists.1 (hanswered e.1 (.inl ((lookupKey_isSome_iff _ _).2 ⟨e, he, rfl⟩)))⟩

end Sys2Proof.Machine
end

section
/-! What is refused (spec/30_encoding.md R76; spec/42_pdu_dispatch.md R110): which transactions are not admitted, read from the
length of a request, and from the fields and the data operand of a command. -/

namespace Sys2Proof.Machine

/-! ## Requests -/

/-- A request is admitted when its length is 1 to 253, whatever its bytes (R36, R110). -/
theorem admitted_request_eq_false_iff (req : List Byte) :
    admitted (.request req) = false ↔ req.length = 0 ∨ 253 < req.length := by
  cases req with
  | nil => exact iff_of_true rfl (.inl rfl)
  | cons fc p =>
    by_cases hlength : p.length ≤ 252
    · refine iff_of_false ?_ (by simp only [List.length_cons]; omega)
      simp [admitted, decode_request hlength, performed_dispatchRequest]
    · have hoversize : Config.pduMax < p.length + 1 := by simp only [Config.pduMax]; omega
      refine iff_of_true ?_ (.inr hoversize)
      simp [admitted, decode, decodeRequest, hoversize]

/-! ## The parts of the decoder of port L -/

/-- Whether what the decoder answers is an instruction that the block performs. -/
def admittedBy (r : Except DecodeError Instr) : Bool :=
  match r with
  | .error _ => false
  | .ok i => performed i

theorem admitted_eq (t : Transaction) : admitted t = admittedBy (decode t) := rfl

@[simp] theorem admittedBy_error (e : DecodeError) : admittedBy (.error e) = false := rfl

@[simp] theorem admittedBy_ok (i : Instr) : admittedBy (.ok i) = performed i := rfl

theorem admittedBy_withoutOperand (x : Operand) (r : Except DecodeError Instr) :
    admittedBy (withoutOperand x r) = false ↔ x ≠ .absent ∨ admittedBy r = false := by
  cases x <;> simp [withoutOperand]

theorem admittedBy_withKind (c : BitVec 3) (f : Kind → Except DecodeError Instr) :
    admittedBy (withKind c f) = false ↔ ∀ k, kindOf c = some k → admittedBy (f k) = false := by
  cases hk : kindOf c <;> simp [withKind, hk]

/-- A kind field that an operation reads is reserved when no kind has it. -/
theorem kindOf_ne_some_iff (c : BitVec 3) : (∀ k, kindOf c ≠ some k) ↔ c ∈ [2#3, 5#3, 6#3, 7#3] := by
  rw [← kindOf_eq_none_iff, Option.eq_none_iff_forall_ne_some]

/-- A value that an operation reads beside a kind is reserved for the boolean kinds only (R73). -/
theorem valueOf_eq_none_iff (k : Kind) (v : Word) :
    valueOf k v = none ↔ kindCode k ∈ [0#3, 1#3] ∧ v ≠ 0x0000 ∧ v ≠ 0x0001 := by
  rcases k with (_ | _) | (_ | _) <;> simp [valueOf, kindCode] <;> split_ifs <;> simp_all

/-- Kind and value of an operation that reads both are reserved (R73, R76). -/
theorem kindOf_valueOf_reserved_iff (c : BitVec 3) (v : Word) :
    (∀ k, kindOf c = some k → valueOf k v = none) ↔
      c ∈ [2#3, 5#3, 6#3, 7#3] ∨ (c ∈ [0#3, 1#3] ∧ v ≠ 0x0000 ∧ v ≠ 0x0001) := by
  cases hk : kindOf c with
  | none => exact iff_of_true (fun _ h => nomatch h) (.inl ((kindOf_eq_none_iff c).1 hk))
  | some k =>
    have hlegal : c ∉ [2#3, 5#3, 6#3, 7#3] := fun hmem => by rw [(kindOf_eq_none_iff c).2 hmem] at hk; cases hk
    rw [← kindCode_of_kindOf hk] at hlegal ⊢
    simp only [Option.some.injEq, forall_eq', valueOf_eq_none_iff, hlegal, false_or]

/-! ## The rows of port L -/

/-- A field that the operation reads has a reserved value (R73, R74). -/
def reservedValues (o : LocalOp) (f : LocalFields) : Prop :=
  match o with
  | .insert | .writeOne => f.kind ∈ [2#3, 5#3, 6#3, 7#3] ∨ (f.kind ∈ [0#3, 1#3] ∧ f.value ≠ 0x0000 ∧ f.value ≠ 0x0001)
  | .generate => f.kind ∈ [2#3, 5#3, 6#3, 7#3] ∨ f.pattern ∈ [6#3, 7#3]
  | .getRange | .getOne | .formatAddress => f.kind ∈ [2#3, 5#3, 6#3, 7#3]
  | _ => False

/-- The fields of R76 that are refused, by operation: one it does not read that is not 0, or a reserved value of one it reads. -/
theorem refusedFields_iff {o : LocalOp} {f : LocalFields} (hop : f.op = opCode o) :
    refusedFields f ↔ unreadZero o f = false ∨ reservedValues o f := by
  cases o <;>
    simp only [refusedFields, unreadZero, reservedValues, hop, opCode, Bool.and_eq_false_iff, decide_eq_false_iff_not]
  all_goals simp
  all_goals grind

/-- A row of port L admits a command exactly when no field it reads is reserved and the operand has the shape of the row. -/
theorem admittedBy_decodeOperation_eq_false_iff {o : LocalOp} {f : LocalFields} (hop : f.op = opCode o) (x : Operand) :
    admittedBy (decodeOperation o f x) = false ↔ reservedValues o f ∨ refusedOperand f x := by
  cases o <;> simp only [decodeOperation, admittedBy_withoutOperand, admittedBy_withKind, refusedOperand, hop, opCode, reservedValues]
  case insert | writeOne =>
    rw [← kindOf_valueOf_reserved_iff, or_comm]
    refine or_congr (forall_congr' fun k => imp_congr_right fun _ => ?_) (by simp)
    cases valueOf k f.value <;> simp [performed]
  case generate =>
    rw [or_comm, ← patternOf_eq_none_iff, ← kindOf_ne_some_iff]
    refine or_congr ?_ (by simp)
    cases patternOf f.pattern <;> simp [performed]
  case getRange | getOne | formatAddress =>
    rw [or_comm, ← kindOf_ne_some_iff]
    simp [performed]
  case bytesNeeded | u16ToBe | exceptionPdu => simp [performed]
  case packBits | mbapParse | mbapSerialize => cases x <;> simp [performed]
  case unpackBits => cases x <;> simp [performed_lUnpackBits_eq_false_iff]
  case mbapFrame => cases x <;> simp [performed_lMbapFrame_eq_false_iff]
  case u16FromBe =>
    split
    · simp [performed]
    · rename_i hshape
      simpa using hshape

/-- The command of a word that matches no row is not admitted (R76). -/
theorem admitted_command_of_isReservedWord {w : CommandWord} (hw : isReservedWord w = true) (x : Operand) :
    admitted (.command w x) = false := by
  rw [admitted_eq, decode_command_of_isReservedWord hw x]
  rfl

/-- A command is not admitted exactly when R76 refuses a field of its word, or its data operand. -/
theorem admitted_command_eq_false_iff (w : CommandWord) (x : Operand) :
    admitted (.command w x) = false ↔ refusedFields (fieldsOf w) ∨ refusedOperand (fieldsOf w) x := by
  cases hop : localOpOf (fieldsOf w).op with
  | none =>
    have hword : isReservedWord w = true := by simp [isReservedWord, hop]
    exact iff_of_true (admitted_command_of_isReservedWord hword x) (.inl (.inl ((localOpOf_eq_none_iff _).1 hop)))
  | some o =>
    rw [refusedFields_iff (eq_opCode_of_localOpOf hop)]
    cases hunread : unreadZero o (fieldsOf w) with
    | false =>
      have hword : isReservedWord w = true := by simp [isReservedWord, hop, hunread]
      exact iff_of_true (admitted_command_of_isReservedWord hword x) (.inl (.inl rfl))
    | true =>
      have hdecode : decode (.command w x) = decodeOperation o (fieldsOf w) x := by
        simp only [decode, decodeCommand, hop, hunread, if_true]
      rw [admitted_eq, hdecode, admittedBy_decodeOperation_eq_false_iff (eq_opCode_of_localOpOf hop)]
      simp

/-! ## The statement -/

/-- The only outstanding transaction is refused exactly when it is not admitted. -/
theorem step_refuses_iff {s : State} {r : Nat} {t : Transaction} (hpending : s.pending = [(r, t)]) :
    (∃ e, step s = .refused e) ↔ admitted t = false := by
  rw [step_of_pending_singleton hpending]
  cases hadmitted : admitted t with
  | true =>
    obtain ⟨s', hperform⟩ := perform_eq_next_of_admitted hadmitted r s
    simp [hperform]
  | false => exact iff_of_true (perform_eq_refused_of_not_admitted hadmitted r s) rfl

/-- Settles O5: what is refused is what is not admitted. -/
theorem inadmissibleTransactionsAreRefused : Obligations.InadmissibleTransactionsAreRefused := by
  intro s r t hpending
  refine ⟨fun req ht => ?_, fun w x ht => ?_⟩ <;> subst ht <;> rw [step_refuses_iff hpending]
  · exact admitted_request_eq_false_iff req
  · exact admitted_command_eq_false_iff w x

end Sys2Proof.Machine
end

section
/-! The read and write functions of port P (spec/43_read_functions.md, spec/44_write_functions.md): for each the answer at every outcome
of its checks (spec/42_pdu_dispatch.md R112), and which registers a write leaves. -/

namespace Sys2Proof.Machine

/-! ## The body of a request -/

/-- A request whose function code selects a row with a 5-byte header, and that has the header, is decoded to its fields (R58, R63). -/
theorem decode_fixed_fields {fc : Byte} {f : FixedBody → Instr} (hrow : ∀ p, dispatchRequest fc p = f (fixedBody p))
    (s1 s0 q1 q0 : Byte) {trailing : List Byte} (hlength : trailing.length ≤ 248) :
    decode (.request (fc :: s1 :: s0 :: q1 :: q0 :: trailing)) =
      .ok (f (.fields (u16FromBe s1 s0) (u16FromBe q1 q0) trailing)) := by
  rw [decode_request (by simp only [List.length_cons]; omega), hrow, fixedBody]

/-- A request that is shorter than its row's 5-byte header is decoded to the bytes it has (R116). -/
theorem decode_fixed_short {fc : Byte} {f : FixedBody → Instr} (hrow : ∀ p, dispatchRequest fc p = f (fixedBody p))
    {bytes : List Byte} (hlength : bytes.length < 4) : decode (.request (fc :: bytes)) = .ok (f (.short bytes)) := by
  rw [decode_request (by omega), hrow, fixedBody_eq_short hlength]

/-! ## Reading -/

/-- An interval of boolean registers that is fully present shows a list of booleans (R13, R121). -/
theorem fullyPresent.bits {d : DataArea} {k : BitKind} {start n : Nat} (h : fullyPresent d (.bit k) start n) :
    ∃ bits : List Bool, bits.length = n ∧ ∀ j < n, d.reg (.bit k) (start + j) = bits[j]?.map .bit := by
  obtain ⟨bits, hbits⟩ := Option.isSome_iff_exists.1 ((fullyPresent_bit_iff ..).1 h)
  obtain ⟨hlength, hvalues⟩ := (rangeValues_eq_some_iff _ _ _ _).1 hbits
  exact ⟨bits, hlength, fun j hj => by rw [DataArea.reg_bit, hvalues j hj]⟩

/-- An interval of word registers that is fully present shows a list of words (R13, R123). -/
theorem fullyPresent.words {d : DataArea} {k : WordKind} {start n : Nat} (h : fullyPresent d (.word k) start n) :
    ∃ ws : List Word, ws.length = n ∧ ∀ j < n, d.reg (.word k) (start + j) = ws[j]?.map .word := by
  obtain ⟨ws, hws⟩ := Option.isSome_iff_exists.1 ((fullyPresent_word_iff ..).1 h)
  obtain ⟨hlength, hvalues⟩ := (rangeValues_eq_some_iff _ _ _ _).1 hws
  exact ⟨ws, hlength, fun j hj => by rw [DataArea.reg_word, hvalues j hj]⟩

section Reads

variable (fc : Byte) {start qty : Word} (trailing : List Byte) {s : State}

/-- Step 3 of a bit read: the quantity is not 1 to 2000 (R112, R121). -/
theorem readBits_of_quantity (k : BitKind) (hq : ¬ (1 ≤ qty.toNat ∧ qty.toNat ≤ 2000)) :
    readBits fc k (.fields start qty trailing) s = raise fc .illegalDataValue s :=
  if_pos (by simp only [Config.qmaxReadBits]; omega)

/-- Step 6 of a bit read: a register of the interval is absent (R112, R121). -/
theorem readBits_of_absent {k : BitKind} (hq : 1 ≤ qty.toNat ∧ qty.toNat ≤ 2000)
    (habsent : ¬ fullyPresent s.area (.bit k) start.toNat qty.toNat) :
    readBits fc k (.fields start qty trailing) s = raise fc .illegalDataAddress s := by
  rw [fullyPresent_bit_iff] at habsent
  obtain ⟨e, hget⟩ := getRange_eq_error (m := rangeMax (.bit k)) habsent
  have hquantity : ¬ (qty.toNat < 1 ∨ Config.qmaxReadBits < qty.toNat) := by simp only [Config.qmaxReadBits]; omega
  simp only [readBits, if_neg hquantity, hget]

/-- Step 3 of a word read: the quantity is not 1 to 125 (R112, R123). -/
theorem readWords_of_quantity (k : WordKind) (hq : ¬ (1 ≤ qty.toNat ∧ qty.toNat ≤ 125)) :
    readWords fc k (.fields start qty trailing) s = raise fc .illegalDataValue s :=
  if_pos (by simp only [Config.qmaxReadRegs]; omega)

/-- Step 6 of a word read: a register of the interval is absent (R112, R123). -/
theorem readWords_of_absent {k : WordKind} (hq : 1 ≤ qty.toNat ∧ qty.toNat ≤ 125)
    (habsent : ¬ fullyPresent s.area (.word k) start.toNat qty.toNat) :
    readWords fc k (.fields start qty trailing) s = raise fc .illegalDataAddress s := by
  rw [fullyPresent_word_iff] at habsent
  obtain ⟨e, hget⟩ := getRange_eq_error (m := rangeMax (.word k)) habsent
  have hquantity : ¬ (qty.toNat < 1 ∨ Config.qmaxReadRegs < qty.toNat) := by simp only [Config.qmaxReadRegs]; omega
  simp only [readWords, if_neg hquantity, hget]

/-- Step 7 of a bit read: the packed values of the registers (R121, R122). -/
theorem readBits_of_present {k : BitKind} (hq : 1 ≤ qty.toNat ∧ qty.toNat ≤ 2000)
    (hpresent : fullyPresent s.area (.bit k) start.toNat qty.toNat) :
    ∃ bits : List Bool, bits.length = qty.toNat ∧
      (∀ j < qty.toNat, s.area.reg (.bit k) (start.toNat + j) = bits[j]?.map .bit) ∧
      readBits fc k (.fields start qty trailing) s =
        .next (s.answer (.pdu (fc :: byteOfNat (bytesNeeded qty.toNat) :: packBits bits))) := by
  obtain ⟨bits, hlength, hshown⟩ := hpresent.bits
  rw [← hlength] at hq hshown ⊢
  exact ⟨bits, rfl, hshown, readBits_of_shown fc trailing hlength.symm hq.1 hq.2 hshown⟩

/-- Step 7 of a word read: the values of the registers, high byte first (R123, R124). -/
theorem readWords_of_present {k : WordKind} (hq : 1 ≤ qty.toNat ∧ qty.toNat ≤ 125)
    (hpresent : fullyPresent s.area (.word k) start.toNat qty.toNat) :
    ∃ ws : List Word, ws.length = qty.toNat ∧
      (∀ j < qty.toNat, s.area.reg (.word k) (start.toNat + j) = ws[j]?.map .word) ∧
      readWords fc k (.fields start qty trailing) s =
        .next (s.answer (.pdu (fc :: byteOfNat (2 * qty.toNat) :: wordsToBytes ws))) := by
  obtain ⟨ws, hlength, hshown⟩ := hpresent.words
  rw [← hlength] at hq hshown ⊢
  exact ⟨ws, rfl, hshown, readWords_of_shown fc trailing hlength.symm hq.1 hq.2 hshown⟩

end Reads

/-- Settles O21: the row of the dispatch table, and then the outcomes of a bit read in their order. -/
theorem bitReadsAnswerPackedRegisters : Obligations.BitReadsAnswerPackedRegisters := by
  rintro ⟨fc, k, f⟩ hf
  obtain ⟨hrow, hexec⟩ : (∀ p, dispatchRequest fc p = f (fixedBody p)) ∧ ∀ body s, exec (f body) s = readBits fc k body s := by
    simp only [List.mem_cons, Prod.mk.injEq, List.not_mem_nil, or_false] at hf
    obtain ⟨rfl, rfl, rfl⟩ | ⟨rfl, rfl, rfl⟩ := hf <;> exact ⟨fun _ => rfl, fun _ _ => rfl⟩
  simp only [hexec]
  exact ⟨fun s1 s0 q1 q0 _ => decode_fixed_fields hrow s1 s0 q1 q0, fun _ => decode_fixed_short hrow,
    fun s => ⟨fun _ => raise_eq_answer fc .illegalDataValue s, fun start qty trailing =>
      ⟨readBits_of_quantity fc trailing k, readBits_of_absent fc trailing, readBits_of_present fc trailing⟩⟩⟩

/-- Byte `2j` and byte `2j + 1` of big-endian words are the high and the low byte of word `j`, as numbers (R39). -/
theorem wordsToBytes_getElem? {ws : List Word} {j : Nat} {v : Word} (h : ws[j]? = some v) :
    (wordsToBytes ws)[2 * j]? = some (BitVec.ofNat 8 (v.toNat / 256)) ∧
    (wordsToBytes ws)[2 * j + 1]? = some (BitVec.ofNat 8 (v.toNat % 256)) := by
  obtain ⟨hj, rfl⟩ := List.getElem?_eq_some_iff.1 h
  have hbytes := wordsToBytes_getD ws j hj
  rw [List.getD_eq_getElem _ _ hj, List.getD_eq_getElem _ _ (by simp; omega), List.getD_eq_getElem _ _ (by simp; omega)] at hbytes
  rw [List.getElem?_eq_getElem (by simp; omega), List.getElem?_eq_getElem (by simp; omega), hbytes.1, hbytes.2,
    ← highByte_toNat, ← lowByte_toNat, BitVec.ofNat_toNat, BitVec.ofNat_toNat]
  exact ⟨rfl, rfl⟩

/-- Settles O22: as O21, the words of the registers given byte by byte. -/
theorem wordReadsAnswerBigEndianRegisters : Obligations.WordReadsAnswerBigEndianRegisters := by
  rintro ⟨fc, k, f⟩ hf
  obtain ⟨hrow, hexec⟩ : (∀ p, dispatchRequest fc p = f (fixedBody p)) ∧ ∀ body s, exec (f body) s = readWords fc k body s := by
    simp only [List.mem_cons, Prod.mk.injEq, List.not_mem_nil, or_false] at hf
    obtain ⟨rfl, rfl, rfl⟩ | ⟨rfl, rfl, rfl⟩ := hf <;> exact ⟨fun _ => rfl, fun _ _ => rfl⟩
  simp only [hexec]
  refine ⟨fun s1 s0 q1 q0 _ => decode_fixed_fields hrow s1 s0 q1 q0, fun _ => decode_fixed_short hrow,
    fun s => ⟨fun _ => raise_eq_answer fc .illegalDataValue s, fun start qty trailing =>
      ⟨readWords_of_quantity fc trailing k, readWords_of_absent fc trailing, ?_⟩⟩⟩
  intro hq hpresent
  obtain ⟨ws, hlength, hshown, hread⟩ := readWords_of_present fc trailing hq hpresent
  refine ⟨wordsToBytes ws, by rw [wordsToBytes_length, hlength], fun j hj => ?_, hread⟩
  have hword : ws[j]? = some ws[j] := List.getElem?_eq_getElem (hlength ▸ hj)
  exact ⟨ws[j], by rw [hshown j hj, hword]; rfl, wordsToBytes_getElem? hword⟩

/-! ## Writing one register -/

section WriteSingle

variable {a v : Word} (trailing : List Byte) {s : State}

/-- Step 5 of WRITE_SINGLE_COIL: the value is neither 0x0000 nor 0xFF00, whether or not the coil exists (R113, R127). -/
theorem exec_writeSingleCoil_of_value (hv : v ≠ 0x0000 ∧ v ≠ 0xFF00) :
    exec (.writeSingleCoil (.fields a v trailing)) s = raise 0x05 .illegalDataValue s := by
  have hnone : coilValue v = none := (if_neg hv.2).trans (if_neg hv.1)
  simp only [exec, execWriteSingleCoil, hnone]
  rfl

/-- Step 6 of WRITE_SINGLE_COIL: the coil does not exist (R127). -/
theorem exec_writeSingleCoil_of_absent {b : Bool} (hv : coilValue v = some b) (habsent : s.area.reg (.bit .coil) a.toNat = none) :
    exec (.writeSingleCoil (.fields a v trailing)) s = raise 0x05 .illegalDataAddress s := by
  have hwrite : writeOne s.area.coils a b = .error .notFound := writeOne_bitBank_absent s.area .coil a b habsent
  simp only [exec, execWriteSingleCoil, hv, hwrite]
  rfl

/-- Step 6 of WRITE_SINGLE_REGISTER: the holding register does not exist (R128). -/
theorem exec_writeSingleRegister_of_absent (habsent : s.area.reg (.word .holdingRegister) a.toNat = none) :
    exec (.writeSingleRegister (.fields a v trailing)) s = raise 0x06 .illegalDataAddress s := by
  have hwrite : writeOne s.area.holdingRegisters a v = .error .notFound :=
    writeOne_wordBank_absent s.area .holdingRegister a v habsent
  simp only [exec, execWriteSingleRegister, hwrite]
  rfl

end WriteSingle

/-- The two legal values of a coil (R64, R113). -/
theorem coilValue_of_legal {v : Word} (hv : v = 0x0000 ∨ v = 0xFF00) : coilValue v = some (decide (v = 0xFF00)) := by
  obtain rfl | rfl := hv <;> rfl

/-- Settles O23: the checks of WRITE_SINGLE_COIL in their order, then the one coil it writes. -/
theorem writeSingleCoilWritesOneCoil : Obligations.WriteSingleCoilWritesOneCoil := by
  refine fun s => ⟨fun _ => raise_eq_answer 0x05 .illegalDataValue s, fun a v trailing =>
    ⟨exec_writeSingleCoil_of_value trailing, fun hv => exec_writeSingleCoil_of_absent trailing (coilValue_of_legal hv),
      fun hv hpresent => ⟨_, exec_writeSingleCoil_of_present trailing (coilValue_of_legal hv) hpresent, ?registers, ?sizes⟩⟩⟩
  case registers => exact reg_setBitBank_writeKey s.area .coil a.toNat _ hpresent
  case sizes => exact size_setBitBank_writeKey s.area .coil a.toNat _

/-- Settles O24: the checks of WRITE_SINGLE_REGISTER in their order, then the one register it writes. -/
theorem writeSingleRegisterWritesOneRegister : Obligations.WriteSingleRegisterWritesOneRegister := by
  refine fun s => ⟨fun _ => raise_eq_answer 0x06 .illegalDataValue s, fun a v trailing =>
    ⟨exec_writeSingleRegister_of_absent trailing,
      fun hpresent => ⟨_, exec_writeSingleRegister_of_present trailing hpresent, ?registers, ?sizes⟩⟩⟩
  case registers => exact reg_setWordBank_writeKey s.area .holdingRegister a.toNat v hpresent
  case sizes => exact size_setWordBank_writeKey s.area .holdingRegister a.toNat v

/-! ## Writing a range -/

section WriteMultiple

variable {a q : Word} {bc : Byte} {data : List Byte} {s : State}

/-- Steps 3 and 4 of WRITE_MULTIPLE_COILS: the quantity, the byte count or the data is not legal (R112, R114, R129). -/
theorem exec_writeMultipleCoils_of_value
    (h : ¬ (1 ≤ q.toNat ∧ q.toNat ≤ 1968 ∧ bc.toNat = bytesNeeded q.toNat ∧ bc.toNat ≤ data.length)) :
    exec (.writeMultipleCoils (.fields a q bc data)) s = raise 0x0F .illegalDataValue s := by
  simp only [exec, execWriteMultipleCoils]
  split
  · rfl
  · rename_i hq
    simp only [Config.qmaxWriteCoils] at hq
    exact if_pos (by omega)

/-- Step 6 of WRITE_MULTIPLE_COILS: a coil of the interval is absent (R129). -/
theorem exec_writeMultipleCoils_of_absent
    (h : 1 ≤ q.toNat ∧ q.toNat ≤ 1968 ∧ bc.toNat = bytesNeeded q.toNat ∧ bc.toNat ≤ data.length)
    (habsent : ¬ fullyPresent s.area (.bit .coil) a.toNat q.toNat) :
    exec (.writeMultipleCoils (.fields a q bc data)) s = raise 0x0F .illegalDataAddress s := by
  rw [fullyPresent_bit_iff] at habsent
  obtain ⟨e, hget⟩ := getRange_eq_error (m := rangeMax (.bit .coil)) habsent
  rw [DataArea.bitBank_coil] at hget
  have hquantity : ¬ (q.toNat < 1 ∨ Config.qmaxWriteCoils < q.toNat) := by simp only [Config.qmaxWriteCoils]; omega
  have hcount : ¬ (bc.toNat ≠ bytesNeeded q.toNat ∨ data.length < bc.toNat) := by omega
  simp only [exec, execWriteMultipleCoils, if_neg hquantity, if_neg hcount, hget]
  rfl

/-- Steps 3 and 4 of WRITE_MULTIPLE_REGISTERS: the quantity, the byte count or the data is not legal (R112, R114, R130). -/
theorem exec_writeMultipleRegisters_of_value
    (h : ¬ (1 ≤ q.toNat ∧ q.toNat ≤ 123 ∧ bc.toNat = 2 * q.toNat ∧ bc.toNat ≤ data.length)) :
    exec (.writeMultipleRegisters (.fields a q bc data)) s = raise 0x10 .illegalDataValue s := by
  simp only [exec, execWriteMultipleRegisters]
  split
  · rfl
  · rename_i hq
    simp only [Config.qmaxWriteRegs] at hq
    exact if_pos (by omega)

/-- Step 6 of WRITE_MULTIPLE_REGISTERS: a holding register of the interval is absent (R130). -/
theorem exec_writeMultipleRegisters_of_absent
    (h : 1 ≤ q.toNat ∧ q.toNat ≤ 123 ∧ bc.toNat = 2 * q.toNat ∧ bc.toNat ≤ data.length)
    (habsent : ¬ fullyPresent s.area (.word .holdingRegister) a.toNat q.toNat) :
    exec (.writeMultipleRegisters (.fields a q bc data)) s = raise 0x10 .illegalDataAddress s := by
  rw [fullyPresent_word_iff] at habsent
  obtain ⟨e, hget⟩ := getRange_eq_error (m := rangeMax (.word .holdingRegister)) habsent
  rw [DataArea.wordBank_holdingRegister] at hget
  have hquantity : ¬ (q.toNat < 1 ∨ Config.qmaxWriteRegs < q.toNat) := by simp only [Config.qmaxWriteRegs]; omega
  have hcount : ¬ (bc.toNat ≠ 2 * q.toNat ∨ data.length < bc.toNat) := by omega
  simp only [exec, execWriteMultipleRegisters, if_neg hquantity, if_neg hcount, hget]
  rfl

/-- Step 7 of WRITE_MULTIPLE_REGISTERS: the data words are stored in 1 to 123 holding registers that exist (R130). -/
theorem exec_writeMultipleRegisters_of_present
    (h : 1 ≤ q.toNat ∧ q.toNat ≤ 123 ∧ bc.toNat = 2 * q.toNat ∧ bc.toNat ≤ data.length)
    (hpresent : fullyPresent s.area (.word .holdingRegister) a.toNat q.toNat) :
    exec (.writeMultipleRegisters (.fields a q bc data)) s =
      .next ((s.setWordBank .holdingRegister (writeRange s.area.holdingRegisters a.toNat
        (dataWords (data.take bc.toNat) q.toNat))).answer (echoPdu 0x10 a q)) := by
  obtain ⟨hpos, hmax, hbc, hdata⟩ := h
  obtain ⟨vs, hvalues⟩ := Option.isSome_iff_exists.1 ((fullyPresent_word_iff ..).1 hpresent)
  have hget := getRange_eq_ok (m := rangeMax (.word .holdingRegister)) hpos (hmax.trans (by decide)) hvalues
  rw [DataArea.wordBank_holdingRegister] at hget
  have hquantity : ¬ (q.toNat < 1 ∨ Config.qmaxWriteRegs < q.toNat) := by simp only [Config.qmaxWriteRegs]; omega
  have hcount : ¬ (bc.toNat ≠ 2 * q.toNat ∨ data.length < bc.toNat) := by omega
  simp only [exec, execWriteMultipleRegisters, if_neg hquantity, if_neg hcount, hget]
  rfl

end WriteMultiple

/-- Writing a range of boolean registers leaves every register outside it (R129). -/
theorem reg_setBitBank_writeRange_of_outside {d : DataArea} {k : BitKind} {start : Nat} {vs : List Bool} {K : Kind} {n : Nat}
    (hout : ¬ (K = .bit k ∧ start ≤ n ∧ n < start + vs.length)) :
    (d.setBitBank k (writeRange (d.bitBank k) start vs)).reg K n = d.reg K n := by
  rw [reg_setBitBank]
  split
  · rename_i hK
    subst hK
    rw [bankAt_writeRange, if_neg (fun h => hout ⟨rfl, h.1, h.2.1⟩), DataArea.reg_bit]
  · rfl

/-- Writing a range of word registers leaves every register outside it (R130). -/
theorem reg_setWordBank_writeRange_of_outside {d : DataArea} {k : WordKind} {start : Nat} {vs : List Word} {K : Kind} {n : Nat}
    (hout : ¬ (K = .word k ∧ start ≤ n ∧ n < start + vs.length)) :
    (d.setWordBank k (writeRange (d.wordBank k) start vs)).reg K n = d.reg K n := by
  rw [reg_setWordBank]
  split
  · rename_i hK
    subst hK
    rw [bankAt_writeRange, if_neg (fun h => hout ⟨rfl, h.1, h.2.1⟩), DataArea.reg_word]
  · rfl

/-- After a range of word registers that exist is written, each shows the value written to it (R130). -/
theorem reg_setWordBank_writeRange {d : DataArea} {k : WordKind} {start : Nat} {vs : List Word}
    (hpresent : fullyPresent d (.word k) start vs.length) {j : Nat} (hj : j < vs.length) :
    (d.setWordBank k (writeRange (d.wordBank k) start vs)).reg (.word k) (start + j) = vs[j]?.map .word := by
  have hbank : (bankAt (d.wordBank k) (start + j)).isSome := by simpa [DataArea.reg_word] using hpresent j hj
  rw [reg_setWordBank, if_pos rfl, bankAt_writeRange, if_pos ⟨by omega, by omega, hbank⟩, Nat.add_sub_cancel_left]

/-- Writing a range of boolean registers leaves every bank's size (R20). -/
theorem size_setBitBank_writeRange (d : DataArea) (k : BitKind) (start : Nat) (vs : List Bool) (K : Kind) :
    (d.setBitBank k (writeRange (d.bitBank k) start vs)).size K = d.size K := by
  rw [size_setBitBank, writeRange_length]
  split
  · subst_vars; rfl
  · rfl

/-- Writing a range of word registers leaves every bank's size (R20). -/
theorem size_setWordBank_writeRange (d : DataArea) (k : WordKind) (start : Nat) (vs : List Word) (K : Kind) :
    (d.setWordBank k (writeRange (d.wordBank k) start vs)).size K = d.size K := by
  rw [size_setWordBank, writeRange_length]
  split
  · subst_vars; rfl
  · rfl

/-- Bytes past the byte count are not looked at (D8). -/
theorem getD_take_of_lt {bytes : List Byte} {n i : Nat} (h : i < n) : (bytes.take n).getD i 0#8 = bytes.getD i 0#8 := by
  simp [List.getD_eq_getElem?_getD, h]

/-- Settles O25: the checks of WRITE_MULTIPLE_COILS in their order, then the interval it writes. -/
theorem writeMultipleCoilsWritesTheRange : Obligations.WriteMultipleCoilsWritesTheRange := by
  refine fun s => ⟨fun _ => raise_eq_answer 0x0F .illegalDataValue s, fun a q bc data =>
    ⟨exec_writeMultipleCoils_of_value, exec_writeMultipleCoils_of_absent, fun hvalue hpresent => ?_⟩⟩
  obtain ⟨hpos, hmax, hbc, hdata⟩ := hvalue
  have hexec := exec_writeMultipleCoils_of_present hpos hmax hbc hdata hpresent
  have hlength : (unpackBits (data.take bc.toNat) q.toNat).length = q.toNat := unpackBits_length _ _
  refine ⟨_, hexec, fun j hj => ?written, fun K n hout => ?others, ?sizes⟩
  case written =>
    have hshown := reg_setBitBank_writeRange (k := .coil) (hlength.symm ▸ hpresent) (hlength.symm ▸ hj)
    rw [unpackBits_getElem? _ _ _ hj, getD_take_of_lt (by omega)] at hshown
    exact hshown
  case others => exact reg_setBitBank_writeRange_of_outside (by rwa [hlength])
  case sizes => exact size_setBitBank_writeRange s.area .coil _ _

/-- Settles O26: the checks of WRITE_MULTIPLE_REGISTERS in their order, then the interval it writes. -/
theorem writeMultipleRegistersWritesTheRange : Obligations.WriteMultipleRegistersWritesTheRange := by
  refine fun s => ⟨fun _ => raise_eq_answer 0x10 .illegalDataValue s, fun a q bc data =>
    ⟨exec_writeMultipleRegisters_of_value, exec_writeMultipleRegisters_of_absent, fun hvalue hpresent => ?_⟩⟩
  have hexec := exec_writeMultipleRegisters_of_present hvalue hpresent
  obtain ⟨-, -, hbc, -⟩ := hvalue
  have hlength : (dataWords (data.take bc.toNat) q.toNat).length = q.toNat := dataWords_length _ _
  refine ⟨_, hexec, fun j hj => ?written, fun K n hout => ?others, ?sizes⟩
  case written =>
    have hshown := reg_setWordBank_writeRange (k := .holdingRegister) (hlength.symm ▸ hpresent) (hlength.symm ▸ hj)
    rw [dataWords_getElem? _ _ _ hj, getD_take_of_lt (by omega), getD_take_of_lt (by omega)] at hshown
    rw [← u16FromBe_toNat, BitVec.ofNat_toNat]
    exact hshown
  case others => exact reg_setWordBank_writeRange_of_outside (by rwa [hlength])
  case sizes => exact size_setWordBank_writeRange s.area .holdingRegister _ _

/-! ## Trailing bytes -/

/-- Settles O33: the fixed fields are read without the bytes beyond them, and of the data `byte_count` bytes are taken. -/
theorem trailingBytesAreIgnored : Obligations.TrailingBytesAreIgnored := by
  refine ⟨fun f hf s a q trailing => ?fixed, fun f hf s a q bc data trailing hlength => ?multi⟩
  case fixed =>
    simp only [List.mem_cons, List.not_mem_nil, or_false] at hf
    obtain rfl | rfl | rfl | rfl | rfl | rfl := hf <;> rfl
  case multi =>
    have henough : ¬ (data ++ trailing).length < bc.toNat := by simp [hlength]
    have htaken : (data ++ trailing).take bc.toNat = data.take bc.toNat := by simp [← hlength]
    have henough' : ¬ data.length < bc.toNat := by omega
    simp only [List.mem_cons, List.not_mem_nil, or_false] at hf
    obtain rfl | rfl := hf
    · simp only [exec, execWriteMultipleCoils, htaken, henough, henough']
    · simp only [exec, execWriteMultipleRegisters, htaken, henough, henough']

end Sys2Proof.Machine
end

section
/-! All that a request of port P can end in (spec/42_pdu_dispatch.md R119; spec/30_encoding.md R62; spec/44_write_functions.md R133),
said once, and what follows for the length of a response, for exceptions and for the banks. -/

namespace Sys2Proof.Machine

/-! ## The ends of a request -/

/-- The ends of a request from state `s`: an exception that changes nothing, the data of a read that changes nothing, or the echo of a
write after consecutive coils or consecutive holding registers were written. -/
inductive RequestEnd (s : State) : Result → Prop where
  | exception (fc : Byte) (c : ExceptionCode) : c ≠ .serverDeviceFailure → RequestEnd s (raise fc c s)
  | readData (fc : Byte) (n : Nat) (data : List Byte) : 1 ≤ n → n ≤ 250 → data.length = n →
      RequestEnd s (respond (.pdu (fc :: byteOfNat n :: data)) s)
  | coilsWritten (fc : Byte) (a b : Word) (start : Nat) (vs : List Bool) :
      RequestEnd s (respond (echoPdu fc a b) (s.setBitBank .coil (writeRange s.area.coils start vs)))
  | registersWritten (fc : Byte) (a b : Word) (start : Nat) (vs : List Word) :
      RequestEnd s (respond (echoPdu fc a b) (s.setWordBank .holdingRegister (writeRange s.area.holdingRegisters start vs)))

theorem readBits_requestEnd (fc : Byte) (k : BitKind) (body : FixedBody) (s : State) : RequestEnd s (readBits fc k body s) := by
  obtain h | h | ⟨_, qty, _, bits, -, hpos, hmax, hvalues, h⟩ := readBits_cases fc k body s <;> rw [h]
  · exact .exception fc _ nofun
  · exact .exception fc _ nofun
  · obtain ⟨hlength, -⟩ := (rangeValues_eq_some_iff _ _ _ _).1 hvalues
    exact .readData fc _ _ (by simp only [bytesNeeded]; omega) (by simp only [bytesNeeded]; omega) (by rw [packBits_length, hlength])

theorem readWords_requestEnd (fc : Byte) (k : WordKind) (body : FixedBody) (s : State) : RequestEnd s (readWords fc k body s) := by
  obtain h | h | ⟨_, qty, _, ws, -, hpos, hmax, hvalues, h⟩ := readWords_cases fc k body s <;> rw [h]
  · exact .exception fc _ nofun
  · exact .exception fc _ nofun
  · obtain ⟨hlength, -⟩ := (rangeValues_eq_some_iff _ _ _ _).1 hvalues
    exact .readData fc _ _ (by omega) (by omega) (by rw [wordsToBytes_length, hlength])

/-- Every request instruction ends in one of these, whatever its body and the state: one case per row of the dispatch table. -/
theorem exec_requestEnd {i : Instr} (hi : i.isRequest = true) (s : State) : RequestEnd s (exec i s) := by
  cases i with
  | readCoils b => exact readBits_requestEnd _ _ b s
  | readDiscreteInputs b => exact readBits_requestEnd _ _ b s
  | readHoldingRegisters b => exact readWords_requestEnd _ _ b s
  | readInputRegisters b => exact readWords_requestEnd _ _ b s
  | writeSingleCoil b =>
    rw [exec]
    obtain h | h | ⟨a, v, _, x, -, -, -, h⟩ := execWriteSingleCoil_cases b s <;> rw [h]
    · exact .exception _ _ nofun
    · exact .exception _ _ nofun
    · exact .coilsWritten _ a v a.toNat [x]
  | writeSingleRegister b =>
    rw [exec]
    obtain h | h | ⟨a, v, _, -, -, h⟩ := execWriteSingleRegister_cases b s <;> rw [h]
    · exact .exception _ _ nofun
    · exact .exception _ _ nofun
    · exact .registersWritten _ a v a.toNat [v]
  | writeMultipleCoils b =>
    rw [exec]
    obtain h | h | ⟨a, q, _, _, -, -, -, -, -, -, h⟩ := execWriteMultipleCoils_cases b s <;> rw [h]
    · exact .exception _ _ nofun
    · exact .exception _ _ nofun
    · exact .coilsWritten _ a q _ _
  | writeMultipleRegisters b =>
    rw [exec]
    obtain h | h | ⟨a, q, _, _, -, -, -, -, -, -, h⟩ := execWriteMultipleRegisters_cases b s <;> rw [h]
    · exact .exception _ _ nofun
    · exact .exception _ _ nofun
    · exact .registersWritten _ a q _ _
  | illegal fc p => exact .exception fc .illegalFunction nofun
  | _ => cases hi

/-- Every row of the dispatch table is an instruction of port P (R66, R111). -/
theorem dispatchRequest_isRequest (fc : Byte) (p : List Byte) : (dispatchRequest fc p).isRequest = true := by
  unfold dispatchRequest
  split_ifs <;> rfl

/-- A request is never decoded to an operation of port L (R32, R33). -/
theorem isRequest_of_decode {req : List Byte} {i : Instr} (h : decode (.request req) = .ok i) : i.isRequest = true := by
  obtain ⟨fc, p, -, -, rfl⟩ := decodeRequest_eq_ok h
  exact dispatchRequest_isRequest fc p

/-! ## What follows -/

/-- Settles O28: an exception has two bytes, an echo five, and the data of a read 1 to 250 bytes after two. -/
theorem responsesFitOnePdu : Obligations.ResponsesFitOnePdu := by
  intro req i s t hdecode hexec
  have hend := exec_requestEnd (isRequest_of_decode hdecode) s
  rw [hexec] at hend
  cases hend with
  | exception fc c => exact ⟨_, rfl, by simp [exceptionPdu], by simp [exceptionPdu]⟩
  | readData fc n data hpos hmax hlength =>
    exact ⟨_, rfl, by simp, by simp only [List.length_cons, hlength]; omega⟩
  | coilsWritten => exact ⟨_, rfl, by simp, by simp⟩
  | registersWritten => exact ⟨_, rfl, by simp, by simp⟩

/-- The codes of the exceptions that are ever raised (R140, D15). -/
theorem exceptionByte_mem {c : ExceptionCode} (h : c ≠ .serverDeviceFailure) : exceptionByte c ∈ [0x01#8, 0x02#8, 0x03#8] := by
  cases c with
  | serverDeviceFailure => exact absurd rfl h
  | _ => decide

/-- Settles O29: of the ends of a request only an exception has two bytes, and it changes nothing but the answer. -/
theorem exceptionsArePrecise : Obligations.ExceptionsArePrecise := by
  intro i s t b c hi hexec hanswer
  have hend := exec_requestEnd hi s
  rw [hexec] at hend
  cases hend with
  | exception fc e he =>
    cases hanswer
    exact ⟨rfl, exceptionByte_mem he⟩
  | readData fc n data hpos _ hlength =>
    cases hanswer
    simp at hlength; omega
  | coilsWritten => cases hanswer
  | registersWritten => cases hanswer

/-- No instruction of port P populates (R133). -/
theorem populates_of_isRequest {i : Instr} (h : i.isRequest = true) : populates i = false := by
  cases i with
  | lInsert | lGenerate => cases h
  | _ => rfl

/-- Settles O30: the ends of a request write coils and holding registers that exist, and nothing else. -/
theorem protocolWritesOnlyExistingCoilsAndHoldingRegisters : Obligations.ProtocolWritesOnlyExistingCoilsAndHoldingRegisters := by
  refine ⟨fun req i hdecode => isRequest_of_decode hdecode, fun i s t hi hexec => ?_⟩
  have hkeys := fun K n => (exec_areaChange hexec).isSome_eq (populates_of_isRequest hi) K n
  have hend := exec_requestEnd hi s
  rw [hexec] at hend
  cases hend with
  | exception | readData => exact ⟨rfl, rfl, hkeys, fun _ => rfl, rfl⟩
  | coilsWritten fc a b start vs =>
    exact ⟨rfl, rfl, hkeys, size_setBitBank_writeRange s.area .coil start vs, rfl⟩
  | registersWritten fc a b start vs =>
    exact ⟨rfl, rfl, hkeys, size_setWordBank_writeRange s.area .holdingRegister start vs, rfl⟩

end Sys2Proof.Machine
end

section
/-! The validation order of the PDU engine (spec/42_pdu_dispatch.md R112, R118), read from the raw bytes of a request: one verdict for
every request, and the answer that each verdict gets. -/

namespace Sys2Proof.Machine

/-! ## One verdict -/

/-- No request has two verdicts: each check of the order is reached only when those before it pass (R118, R148). -/
theorem Verdict.unique {d : DataArea} {req : List Byte} {v v' : Option ExceptionCode} (h : Verdict d req v)
    (h' : Verdict d req v') : v' = v := by
  cases h <;> cases h' <;> trivial

/-! ## The fields of a request, raw and decoded -/

/-- A request with a 5-byte header is too short, or its two fields are those at offsets 1 and 3 (R58, R63, R116). -/
theorem fixedBody_cases (fc : Byte) (p : List Byte) :
    (p.length + 1 < 5 ∧ fixedBody p = .short p) ∨
    ∃ a b trailing, fixedBody p = .fields a b trailing ∧ 5 ≤ p.length + 1 ∧
      reqField (fc :: p) 1 = a.toNat ∧ reqField (fc :: p) 3 = b.toNat := by
  match p with
  | [] | [_] | [_, _] | [_, _, _] => exact .inl ⟨by simp, rfl⟩
  | a1 :: a0 :: b1 :: b0 :: trailing =>
    exact .inr ⟨_, _, trailing, rfl, by simp, (u16FromBe_toNat a1 a0).symm, (u16FromBe_toNat b1 b0).symm⟩

/-- A request with a 6-byte header is too short, or its fields are those at offsets 1, 3 and 5 and the data follow (R60, R63, R116). -/
theorem multiBody_cases (fc : Byte) (p : List Byte) :
    (p.length + 1 < 6 ∧ multiBody p = .short p) ∨
    ∃ a q bc data, multiBody p = .fields a q bc data ∧ p.length = 5 + data.length ∧
      reqField (fc :: p) 1 = a.toNat ∧ reqField (fc :: p) 3 = q.toNat ∧ reqByte (fc :: p) 5 = bc.toNat := by
  match p with
  | [] | [_] | [_, _] | [_, _, _] | [_, _, _, _] => exact .inl ⟨by simp, rfl⟩
  | a1 :: a0 :: q1 :: q0 :: bc :: data =>
    exact .inr ⟨_, _, bc, data, rfl, by simp; omega, (u16FromBe_toNat a1 a0).symm, (u16FromBe_toNat q1 q0).symm, rfl⟩

/-! ## The checks of the engine -/

/-- `r` is the answer to a request with function code `fc` by the checks in their order: 0x03 when a value is bad (steps 2 to 5), else
0x02 when a register is absent (step 6), else a normal response. -/
structure ChecksInOrder (fc : Byte) (s : State) (r : Result) (bad present : Prop) : Prop where
  value : bad → r = raise fc .illegalDataValue s
  address : ¬ bad → ¬ present → r = raise fc .illegalDataAddress s
  normal : ¬ bad → present → ∃ t rest, r = .next t ∧ t.response = some (.pdu (fc :: rest)) ∧ 2 ≤ rest.length

/-- A request that is shorter than its header fails step 2. -/
theorem ChecksInOrder.of_bad {fc : Byte} {s : State} {r : Result} {bad present : Prop} (hbad : bad)
    (hr : r = raise fc .illegalDataValue s) : ChecksInOrder fc s r bad present :=
  ⟨fun _ => hr, fun h => absurd hbad h, fun h => absurd hbad h⟩

theorem readBits_checks (fc : Byte) (k : BitKind) (p : List Byte) (s : State) :
    ChecksInOrder fc s (readBits fc k (fixedBody p) s)
      (p.length + 1 < 5 ∨ ¬ (1 ≤ reqField (fc :: p) 3 ∧ reqField (fc :: p) 3 ≤ 2000))
      (fullyPresent s.area (.bit k) (reqField (fc :: p) 1) (reqField (fc :: p) 3)) := by
  obtain ⟨hshort, hbody⟩ | ⟨a, q, trailing, hbody, hlong, ha, hq⟩ := fixedBody_cases fc p <;> rw [hbody]
  · exact .of_bad (.inl hshort) rfl
  · rw [ha, hq, or_iff_right (Nat.not_lt.2 hlong)]
    refine ⟨readBits_of_quantity fc trailing k, fun h => readBits_of_absent fc trailing (not_not.1 h), fun h hpresent => ?_⟩
    obtain ⟨bits, hlength, -, hread⟩ := readBits_of_present fc trailing (not_not.1 h) hpresent
    refine ⟨_, _, hread, rfl, ?_⟩
    simp only [List.length_cons, packBits_length, hlength, bytesNeeded]; omega

theorem readWords_checks (fc : Byte) (k : WordKind) (p : List Byte) (s : State) :
    ChecksInOrder fc s (readWords fc k (fixedBody p) s)
      (p.length + 1 < 5 ∨ ¬ (1 ≤ reqField (fc :: p) 3 ∧ reqField (fc :: p) 3 ≤ 125))
      (fullyPresent s.area (.word k) (reqField (fc :: p) 1) (reqField (fc :: p) 3)) := by
  obtain ⟨hshort, hbody⟩ | ⟨a, q, trailing, hbody, hlong, ha, hq⟩ := fixedBody_cases fc p <;> rw [hbody]
  · exact .of_bad (.inl hshort) rfl
  · rw [ha, hq, or_iff_right (Nat.not_lt.2 hlong)]
    refine ⟨readWords_of_quantity fc trailing k, fun h => readWords_of_absent fc trailing (not_not.1 h), fun h hpresent => ?_⟩
    obtain ⟨ws, hlength, -, hread⟩ := readWords_of_present fc trailing (not_not.1 h) hpresent
    refine ⟨_, _, hread, rfl, ?_⟩
    simp only [List.length_cons, wordsToBytes_length, hlength]; omega

/-- Step 6 of a single write looks for one register (R112). -/
theorem fullyPresent_one_iff (d : DataArea) (K : Kind) (n : Nat) : fullyPresent d K n 1 ↔ (d.reg K n).isSome := by
  simp [fullyPresent]

theorem execWriteSingleCoil_checks (p : List Byte) (s : State) :
    ChecksInOrder 0x05 s (exec (.writeSingleCoil (fixedBody p)) s)
      (p.length + 1 < 5 ∨ (reqField (0x05 :: p) 3 ≠ 0x0000 ∧ reqField (0x05 :: p) 3 ≠ 0xFF00))
      (fullyPresent s.area (.bit .coil) (reqField (0x05 :: p) 1) 1) := by
  obtain ⟨hshort, hbody⟩ | ⟨a, v, trailing, hbody, hlong, ha, hv⟩ := fixedBody_cases 0x05 p <;> rw [hbody]
  · exact .of_bad (.inl hshort) rfl
  · have hvalue : (v.toNat ≠ 0x0000 ∧ v.toNat ≠ 0xFF00) ↔ v ≠ 0x0000 ∧ v ≠ 0xFF00 := by
      rw [← BitVec.toNat_ne_iff_ne (y := 0x0000), ← BitVec.toNat_ne_iff_ne (y := 0xFF00)]
      rfl
    rw [ha, hv, or_iff_right (Nat.not_lt.2 hlong), hvalue, fullyPresent_one_iff]
    have hlegal (h : ¬ (v ≠ 0x0000 ∧ v ≠ 0xFF00)) : coilValue v = some (decide (v = 0xFF00)) :=
      coilValue_of_legal (by tauto)
    refine ⟨exec_writeSingleCoil_of_value trailing, fun h habsent => ?_, fun h hpresent => ?_⟩
    · exact exec_writeSingleCoil_of_absent trailing (hlegal h) (Option.not_isSome_iff_eq_none.1 habsent)
    · exact ⟨_, _, exec_writeSingleCoil_of_present trailing (hlegal h) hpresent, rfl, by simp⟩

theorem execWriteSingleRegister_checks (p : List Byte) (s : State) :
    ChecksInOrder 0x06 s (exec (.writeSingleRegister (fixedBody p)) s) (p.length + 1 < 5)
      (fullyPresent s.area (.word .holdingRegister) (reqField (0x06 :: p) 1) 1) := by
  obtain ⟨hshort, hbody⟩ | ⟨a, v, trailing, hbody, hlong, ha, -⟩ := fixedBody_cases 0x06 p <;> rw [hbody]
  · exact .of_bad hshort rfl
  · rw [ha, fullyPresent_one_iff]
    refine ⟨fun h => absurd h (Nat.not_lt.2 hlong), fun _ habsent => ?_, fun _ hpresent => ?_⟩
    · exact exec_writeSingleRegister_of_absent trailing (Option.not_isSome_iff_eq_none.1 habsent)
    · exact ⟨_, _, exec_writeSingleRegister_of_present trailing hpresent, rfl, by simp⟩

theorem execWriteMultipleCoils_checks (p : List Byte) (s : State) :
    ChecksInOrder 0x0F s (exec (.writeMultipleCoils (multiBody p)) s)
      (p.length + 1 < 6 ∨ ¬ (1 ≤ reqField (0x0F :: p) 3 ∧ reqField (0x0F :: p) 3 ≤ 1968) ∨
        reqByte (0x0F :: p) 5 ≠ (reqField (0x0F :: p) 3 + 7) / 8 ∨ p.length - 5 < reqByte (0x0F :: p) 5)
      (fullyPresent s.area (.bit .coil) (reqField (0x0F :: p) 1) (reqField (0x0F :: p) 3)) := by
  obtain ⟨hshort, hbody⟩ | ⟨a, q, bc, data, hbody, hlong, ha, hq, hbc⟩ := multiBody_cases 0x0F p <;> rw [hbody]
  · exact .of_bad (.inl hshort) rfl
  · rw [ha, hq, hbc, hlong]
    refine ⟨fun h => ?_, fun h habsent => ?_, fun h hpresent => ?_⟩
    · exact exec_writeMultipleCoils_of_value (by simp only [bytesNeeded]; omega)
    · exact exec_writeMultipleCoils_of_absent (by simp only [bytesNeeded]; omega) habsent
    · exact ⟨_, _, exec_writeMultipleCoils_of_present (by omega) (by omega) (by simp only [bytesNeeded]; omega) (by omega) hpresent,
        rfl, by simp⟩

theorem execWriteMultipleRegisters_checks (p : List Byte) (s : State) :
    ChecksInOrder 0x10 s (exec (.writeMultipleRegisters (multiBody p)) s)
      (p.length + 1 < 6 ∨ ¬ (1 ≤ reqField (0x10 :: p) 3 ∧ reqField (0x10 :: p) 3 ≤ 123) ∨
        reqByte (0x10 :: p) 5 ≠ 2 * reqField (0x10 :: p) 3 ∨ p.length - 5 < reqByte (0x10 :: p) 5)
      (fullyPresent s.area (.word .holdingRegister) (reqField (0x10 :: p) 1) (reqField (0x10 :: p) 3)) := by
  obtain ⟨hshort, hbody⟩ | ⟨a, q, bc, data, hbody, hlong, ha, hq, hbc⟩ := multiBody_cases 0x10 p <;> rw [hbody]
  · exact .of_bad (.inl hshort) rfl
  · rw [ha, hq, hbc, hlong]
    refine ⟨fun h => ?_, fun h habsent => ?_, fun h hpresent => ?_⟩
    · exact exec_writeMultipleRegisters_of_value (by omega)
    · exact exec_writeMultipleRegisters_of_absent (by omega) habsent
    · exact ⟨_, _, exec_writeMultipleRegisters_of_present (by omega) hpresent, rfl, by simp⟩

/-- The checks, with the condition of steps 2 to 5 said in other words. -/
theorem ChecksInOrder.congr {fc : Byte} {s : State} {r : Result} {bad bad' present : Prop}
    (h : ChecksInOrder fc s r bad present) (hbad : bad' ↔ bad) : ChecksInOrder fc s r bad' present := by
  rwa [propext hbad]

/-- Byte 0 of a request is its function code (R57). -/
theorem reqByte_zero (fc : Byte) (p : List Byte) : reqByte (fc :: p) 0 = fc.toNat := rfl

/-- Every supported row of the dispatch table checks a request in the order of R112, read from its raw bytes. -/
theorem exec_dispatchRequest_checks {fc : Byte} (hfc : fc ∈ supportedCodes) (p : List Byte) (s : State) :
    ChecksInOrder fc s (exec (dispatchRequest fc p) s) (valueRejected (fc :: p))
      (fullyPresent s.area (kindOfCode fc.toNat) (reqField (fc :: p) 1) (registersNamed (fc :: p))) := by
  simp only [supportedCodes, List.mem_cons, List.not_mem_nil, or_false] at hfc
  obtain rfl | rfl | rfl | rfl | rfl | rfl | rfl | rfl := hfc
  · exact (readBits_checks 0x01 .coil p s).congr (by simp [valueRejected, quantityBound, reqByte_zero])
  · exact (readBits_checks 0x02 .discreteInput p s).congr (by simp [valueRejected, quantityBound, reqByte_zero])
  · exact (readWords_checks 0x03 .holdingRegister p s).congr (by simp [valueRejected, quantityBound, reqByte_zero])
  · exact (readWords_checks 0x04 .inputRegister p s).congr (by simp [valueRejected, quantityBound, reqByte_zero])
  · exact (execWriteSingleCoil_checks p s).congr (by simp [valueRejected, quantityBound, reqByte_zero])
  · exact (execWriteSingleRegister_checks p s).congr (by simp [valueRejected, quantityBound, reqByte_zero])
  · exact (execWriteMultipleCoils_checks p s).congr (by simp [valueRejected, quantityBound, reqByte_zero])
  · exact (execWriteMultipleRegisters_checks p s).congr (by simp [valueRejected, quantityBound, reqByte_zero])

/-- Settles O19: step 1 separates ILLEGAL from the eight rows, whose checks then follow in their order. -/
theorem engineFollowsValidationOrder : Obligations.EngineFollowsValidationOrder := by
  intro s req hpos hmax
  obtain ⟨fc, p, rfl⟩ := List.exists_cons_of_length_pos hpos
  have hlength : p.length ≤ 252 := by simp only [List.length_cons] at hmax; omega
  refine ⟨dispatchRequest fc p, decode_request hlength, ?_⟩
  by_cases hfc : fc ∈ supportedCodes
  case neg =>
    have hverdict : Verdict s.area (fc :: p) (some .illegalFunction) := .function hfc
    refine ⟨_, hverdict, fun _ => hverdict.unique, ?_⟩
    rw [dispatchRequest_of_not_supported hfc]
    exact exec_illegal fc p s
  case pos =>
    have hchecks := exec_dispatchRequest_checks hfc p s
    by_cases hbad : valueRejected (fc :: p)
    · have hverdict : Verdict s.area (fc :: p) (some .illegalDataValue) := .value hfc hbad
      exact ⟨_, hverdict, fun _ => hverdict.unique, hchecks.value hbad⟩
    · by_cases hpresent : fullyPresent s.area (kindOfCode fc.toNat) (reqField (fc :: p) 1) (registersNamed (fc :: p))
      · have hverdict : Verdict s.area (fc :: p) none := .normal hfc hbad hpresent
        exact ⟨_, hverdict, fun _ => hverdict.unique, hchecks.normal hbad hpresent⟩
      · have hverdict : Verdict s.area (fc :: p) (some .illegalDataAddress) := .address hfc hbad hpresent
        exact ⟨_, hverdict, fun _ => hverdict.unique, hchecks.address hbad hpresent⟩

end Sys2Proof.Machine
end

section
/-! Statements about two runs or two transactions: kinds do not meet (spec/10_state.md R15), writing twice is writing once
(spec/20_memory.md R45), and a read beside a write sees all of it or nothing (R44, R49, R51). -/

namespace Sys2Proof.Machine

/-! ## Kinds do not meet -/

/-- The ends of two runs of one instruction, from `s` and from `s` with the Data Area `d`: the same answer with nothing else changed, the
same bank stored of the instruction's kind `K`, or the same refusal. -/
inductive AgreeOn (K : Option Kind) (s : State) (d : DataArea) : Result → Result → Prop where
  | answers (x : Response) : AgreeOn K s d (respond x s) (respond x { s with area := d })
  | storesBits (k : BitKind) (b : Bank Bool) (n : Nat) (x : Response) : K = some (.bit k) →
      AgreeOn K s d (respond x (({ s with draws := n } : State).setBitBank k b))
        (respond x (({ s with area := d, draws := n } : State).setBitBank k b))
  | storesWords (k : WordKind) (b : Bank Word) (n : Nat) (x : Response) : K = some (.word k) →
      AgreeOn K s d (respond x (({ s with draws := n } : State).setWordBank k b))
        (respond x (({ s with area := d, draws := n } : State).setWordBank k b))
  | refuses (e : Refusal) : AgreeOn K s d (.refused e) (.refused e)

section Agree

variable {K : Option Kind} {s : State} {d : DataArea}

theorem storeBits_agree {k : BitKind} (hK : K = some (.bit k)) (r : Except LocalError (Bank Bool)) :
    AgreeOn K s d (storeBits k r s) (storeBits k r { s with area := d }) := by
  cases r with
  | error e => exact .answers _
  | ok b => exact .storesBits k b s.draws _ hK

theorem storeWords_agree {k : WordKind} (hK : K = some (.word k)) (r : Except LocalError (Bank Word)) :
    AgreeOn K s d (storeWords k r s) (storeWords k r { s with area := d }) := by
  cases r with
  | error e => exact .answers _
  | ok b => exact .storesWords k b s.draws _ hK

theorem readBits_agree {k : BitKind} (hbank : s.area.bitBank k = d.bitBank k) (fc : Byte) (body : FixedBody) :
    AgreeOn K s d (readBits fc k body s) (readBits fc k body { s with area := d }) := by
  simp only [readBits, ← hbank]
  split
  · exact .answers _
  · split
    · exact .answers _
    · split <;> exact .answers _

theorem readWords_agree {k : WordKind} (hbank : s.area.wordBank k = d.wordBank k) (fc : Byte) (body : FixedBody) :
    AgreeOn K s d (readWords fc k body s) (readWords fc k body { s with area := d }) := by
  simp only [readWords, ← hbank]
  split
  · exact .answers _
  · split
    · exact .answers _
    · split <;> exact .answers _

theorem execWriteSingleCoil_agree (hK : K = some (.bit .coil)) (hbank : s.area.coils = d.coils) (body : FixedBody) :
    AgreeOn K s d (execWriteSingleCoil body s) (execWriteSingleCoil body { s with area := d }) := by
  simp only [execWriteSingleCoil, ← hbank]
  split
  · exact .answers _
  · split
    · exact .answers _
    · split
      · exact .answers _
      · exact .storesBits .coil _ s.draws _ hK

theorem execWriteSingleRegister_agree (hK : K = some (.word .holdingRegister))
    (hbank : s.area.holdingRegisters = d.holdingRegisters) (body : FixedBody) :
    AgreeOn K s d (execWriteSingleRegister body s) (execWriteSingleRegister body { s with area := d }) := by
  simp only [execWriteSingleRegister, ← hbank]
  split
  · exact .answers _
  · split
    · exact .answers _
    · exact .storesWords .holdingRegister _ s.draws _ hK

theorem execWriteMultipleCoils_agree (hK : K = some (.bit .coil)) (hbank : s.area.coils = d.coils) (body : MultiBody) :
    AgreeOn K s d (execWriteMultipleCoils body s) (execWriteMultipleCoils body { s with area := d }) := by
  simp only [execWriteMultipleCoils, ← hbank]
  split
  · exact .answers _
  · split
    · exact .answers _
    · split
      · exact .answers _
      · split
        · exact .answers _
        · exact .storesBits .coil _ s.draws _ hK

theorem execWriteMultipleRegisters_agree (hK : K = some (.word .holdingRegister))
    (hbank : s.area.holdingRegisters = d.holdingRegisters) (body : MultiBody) :
    AgreeOn K s d (execWriteMultipleRegisters body s) (execWriteMultipleRegisters body { s with area := d }) := by
  simp only [execWriteMultipleRegisters, ← hbank]
  split
  · exact .answers _
  · split
    · exact .answers _
    · split
      · exact .answers _
      · split
        · exact .answers _
        · exact .storesWords .holdingRegister _ s.draws _ hK

theorem execLInsert_agree {v : KindValue} (hK : K = some v.kind) (hbank : sameBank s.area d v.kind) (a : Addr) :
    AgreeOn K s d (execLInsert a v s) (execLInsert a v { s with area := d }) := by
  cases v with
  | bit k b =>
    have hbank : s.area.bitBank k = d.bitBank k := hbank
    simp only [execLInsert, ← hbank]
    exact storeBits_agree hK _
  | word k w =>
    have hbank : s.area.wordBank k = d.wordBank k := hbank
    simp only [execLInsert, ← hbank]
    exact storeWords_agree hK _

theorem execLWriteOne_agree {v : KindValue} (hK : K = some v.kind) (hbank : sameBank s.area d v.kind) (a : Addr) :
    AgreeOn K s d (execLWriteOne a v s) (execLWriteOne a v { s with area := d }) := by
  cases v with
  | bit k b =>
    have hbank : s.area.bitBank k = d.bitBank k := hbank
    simp only [execLWriteOne, ← hbank]
    exact storeBits_agree hK _
  | word k w =>
    have hbank : s.area.wordBank k = d.wordBank k := hbank
    simp only [execLWriteOne, ← hbank]
    exact storeWords_agree hK _

theorem execLGenerate_agree {k : Kind} (hK : K = some k) (hbank : sameBank s.area d k) (p : Pattern) (a : Addr) (n : Word) :
    AgreeOn K s d (execLGenerate k p a n s) (execLGenerate k p a n { s with area := d }) := by
  cases k with
  | bit k =>
    have hbank : s.area.bitBank k = d.bitBank k := hbank
    simp only [execLGenerate, ← hbank]
    split
    · exact .answers _
    · split
      · exact .answers _
      · exact .storesBits k _ _ _ hK
  | word k =>
    have hbank : s.area.wordBank k = d.wordBank k := hbank
    simp only [execLGenerate, ← hbank]
    split
    · exact .answers _
    · exact .storesWords k _ _ _ hK

theorem execLGetRange_agree {k : Kind} (hbank : sameBank s.area d k) (a : Addr) (n : Word) :
    AgreeOn K s d (execLGetRange k a n s) (execLGetRange k a n { s with area := d }) := by
  cases k with
  | bit k =>
    have hbank : s.area.bitBank k = d.bitBank k := hbank
    simp only [execLGetRange, ← hbank]
    split <;> exact .answers _
  | word k =>
    have hbank : s.area.wordBank k = d.wordBank k := hbank
    simp only [execLGetRange, ← hbank]
    split <;> exact .answers _

theorem execLGetOne_agree {k : Kind} (hbank : sameBank s.area d k) (a : Addr) :
    AgreeOn K s d (execLGetOne k a s) (execLGetOne k a { s with area := d }) := by
  cases k with
  | bit k =>
    have hbank : s.area.bitBank k = d.bitBank k := hbank
    simp only [execLGetOne, ← hbank]
    split <;> exact .answers _
  | word k =>
    have hbank : s.area.wordBank k = d.wordBank k := hbank
    simp only [execLGetOne, ← hbank]
    split <;> exact .answers _

end Agree

/-- No instruction looks at a bank of another kind: the two runs end alike. -/
theorem exec_agree (i : Instr) {s : State} {d : DataArea} (hbank : ∀ K, actsOn i = some K → sameBank s.area d K) :
    AgreeOn (actsOn i) s d (exec i s) (exec i { s with area := d }) := by
  cases i with
  | readCoils b | readDiscreteInputs b => exact readBits_agree (hbank _ rfl) _ b
  | readHoldingRegisters b | readInputRegisters b => exact readWords_agree (hbank _ rfl) _ b
  | writeSingleCoil b => exact execWriteSingleCoil_agree rfl (hbank _ rfl) b
  | writeSingleRegister b => exact execWriteSingleRegister_agree rfl (hbank _ rfl) b
  | writeMultipleCoils b => exact execWriteMultipleCoils_agree rfl (hbank _ rfl) b
  | writeMultipleRegisters b => exact execWriteMultipleRegisters_agree rfl (hbank _ rfl) b
  | lInsert a v => exact execLInsert_agree rfl (hbank _ rfl) a
  | lGenerate k p a n => exact execLGenerate_agree rfl (hbank _ rfl) p a n
  | lGetRange k a n => exact execLGetRange_agree (hbank _ rfl) a n
  | lGetOne k a => exact execLGetOne_agree (hbank _ rfl) a
  | lWriteOne a v => exact execLWriteOne_agree rfl (hbank _ rfl) a
  | lUnpackBits n b =>
    simp only [exec, execLUnpackBits]
    split
    · exact .refuses _
    · exact .answers _
  | lMbapParse b =>
    simp only [exec, execLMbapParse]
    split <;> exact .answers _
  | lMbapFrame m r =>
    simp only [exec, execLMbapFrame]
    split
    · exact .refuses _
    · exact .answers _
  | lReserved w x =>
    obtain ⟨e, h⟩ := execLReserved_refuses w x s
    have h' : execLReserved w x { s with area := d } = .refused e := h
    rw [exec, h, exec, h']
    exact .refuses e
  | illegal | lPackBits | lBytesNeeded | lU16FromBe | lU16ToBe | lExceptionPdu | lFormatAddress | lMbapSerialize =>
    exact .answers _

theorem sameBank_refl (d : DataArea) (K : Kind) : sameBank d d K := by cases K <;> exact rfl

/-- Storing a bank leaves the banks of the other kinds (R15). -/
theorem sameBank_setBitBank_of_ne {K : Kind} {k : BitKind} (h : some (Kind.bit k) ≠ some K) (d : DataArea) (b : Bank Bool) :
    sameBank (d.setBitBank k b) d K := by
  cases K with
  | bit k' => exact (DataArea.bitBank_setBitBank ..).trans (if_neg fun (e : k' = k) => h (by rw [e]))
  | word k' => exact DataArea.wordBank_setBitBank ..

/-- Storing a bank leaves the banks of the other kinds (R15). -/
theorem sameBank_setWordBank_of_ne {K : Kind} {k : WordKind} (h : some (Kind.word k) ≠ some K) (d : DataArea) (b : Bank Word) :
    sameBank (d.setWordBank k b) d K := by
  cases K with
  | bit k' => exact DataArea.bitBank_setWordBank ..
  | word k' => exact (DataArea.wordBank_setWordBank ..).trans (if_neg fun (e : k' = k) => h (by rw [e]))

/-- Settles O15: the two runs end alike (`exec_agree`), and each of those ends leaves the banks of the other kinds. -/
theorem kindsAreDisjoint : Obligations.KindsAreDisjoint := by
  intro i s d hbank
  have hagree := exec_agree i hbank
  generalize exec i s = r, exec i { s with area := d } = r', actsOn i = K at hagree hbank ⊢
  cases hagree with
  | answers x => exact ⟨rfl, hbank, fun K _ => ⟨sameBank_refl _ K, sameBank_refl _ K⟩⟩
  | storesBits k b n x hK =>
    subst hK
    refine ⟨rfl, fun K hK => ?_, fun K hK => ⟨sameBank_setBitBank_of_ne hK _ b, sameBank_setBitBank_of_ne hK _ b⟩⟩
    cases hK
    simp [sameBank]
  | storesWords k b n x hK =>
    subst hK
    refine ⟨rfl, fun K hK => ?_, fun K hK => ⟨sameBank_setWordBank_of_ne hK _ b, sameBank_setWordBank_of_ne hK _ b⟩⟩
    cases hK
    simp [sameBank]
  | refuses e => rfl

/-! ## Writing twice -/

/-- Instruction `i` on the state that it leaves from `s` gives the same Data Area and the same answer again. -/
def Repeats (i : Instr) (s : State) : Prop :=
  ∀ t, exec i s = .next t → ∃ t', exec i t = .next t' ∧ t'.area = t.area ∧ t'.response = t.response

theorem Repeats.intro {i : Instr} {s u u' : State} (hfirst : exec i s = .next u) (hagain : exec i u = .next u')
    (harea : u'.area = u.area) (hresponse : u'.response = u.response) : Repeats i s := by
  intro t h
  rw [hfirst] at h
  cases h
  exact ⟨u', hagain, harea, hresponse⟩

/-- Storing a bank over a bank of the same kind. -/
theorem DataArea.setBitBank_setBitBank (d : DataArea) (k : BitKind) (b b' : Bank Bool) :
    (d.setBitBank k b).setBitBank k b' = d.setBitBank k b' := by cases k <;> rfl

theorem DataArea.setWordBank_setWordBank (d : DataArea) (k : WordKind) (b b' : Bank Word) :
    (d.setWordBank k b).setWordBank k b' = d.setWordBank k b' := by cases k <;> rfl

/-- After a write the same registers exist (R20), so a range is fully present as before. -/
theorem fullyPresent_after_write {i : Instr} {s t : State} (hi : writes i = true) (h : exec i s = .next t) {K : Kind} {start n : Nat}
    (hpresent : fullyPresent s.area K start n) : fullyPresent t.area K start n := fun j hj => by
  rw [(exec_areaChange h).isSome_eq (populates_of_writes hi)]
  exact hpresent j hj

theorem writeSingleCoil_repeats (body : FixedBody) (s : State) : Repeats (.writeSingleCoil body) s := by
  cases body with
  | short b => exact .intro rfl rfl rfl rfl
  | fields a v trailing =>
    by_cases hv : v = 0x0000 ∨ v = 0xFF00
    · have hvalue := coilValue_of_legal hv
      cases hreg : s.area.reg (.bit .coil) a.toNat with
      | none =>
        exact .intro (exec_writeSingleCoil_of_absent trailing hvalue hreg)
          (exec_writeSingleCoil_of_absent trailing hvalue hreg) rfl rfl
      | some x =>
        have hpresent : (s.area.reg (.bit .coil) a.toNat).isSome := Option.isSome_of_eq_some hreg
        have hfirst := exec_writeSingleCoil_of_present trailing hvalue hpresent
        have hstill := (exec_areaChange hfirst).isSome_of_isSome hpresent
        refine .intro hfirst (exec_writeSingleCoil_of_present trailing hvalue hstill) ?_ rfl
        exact congrArg (s.area.setBitBank .coil) (writeKey_writeKey s.area.coils a.toNat _)
    · have hvalue : v ≠ 0x0000 ∧ v ≠ 0xFF00 := not_or.1 hv
      exact .intro (exec_writeSingleCoil_of_value trailing hvalue) (exec_writeSingleCoil_of_value trailing hvalue) rfl rfl

theorem writeSingleRegister_repeats (body : FixedBody) (s : State) : Repeats (.writeSingleRegister body) s := by
  cases body with
  | short b => exact .intro rfl rfl rfl rfl
  | fields a v trailing =>
    cases hreg : s.area.reg (.word .holdingRegister) a.toNat with
    | none =>
      exact .intro (exec_writeSingleRegister_of_absent trailing hreg) (exec_writeSingleRegister_of_absent trailing hreg) rfl rfl
    | some x =>
      have hpresent : (s.area.reg (.word .holdingRegister) a.toNat).isSome := Option.isSome_of_eq_some hreg
      have hfirst := exec_writeSingleRegister_of_present trailing (v := v) hpresent
      have hstill := (exec_areaChange hfirst).isSome_of_isSome hpresent
      refine .intro hfirst (exec_writeSingleRegister_of_present trailing hstill) ?_ rfl
      exact congrArg (s.area.setWordBank .holdingRegister) (writeKey_writeKey s.area.holdingRegisters a.toNat v)

theorem writeMultipleCoils_repeats (body : MultiBody) (s : State) : Repeats (.writeMultipleCoils body) s := by
  cases body with
  | short b => exact .intro rfl rfl rfl rfl
  | fields a q bc data =>
    by_cases hvalue : 1 ≤ q.toNat ∧ q.toNat ≤ 1968 ∧ bc.toNat = bytesNeeded q.toNat ∧ bc.toNat ≤ data.length
    · by_cases hpresent : fullyPresent s.area (.bit .coil) a.toNat q.toNat
      · obtain ⟨hpos, hmax, hbc, hdata⟩ := hvalue
        have hfirst := exec_writeMultipleCoils_of_present hpos hmax hbc hdata hpresent
        have hstill := fullyPresent_after_write rfl hfirst hpresent
        refine .intro hfirst (exec_writeMultipleCoils_of_present hpos hmax hbc hdata hstill) ?_ rfl
        exact congrArg (s.area.setBitBank .coil) (writeRange_writeRange s.area.coils a.toNat _)
      · exact .intro (exec_writeMultipleCoils_of_absent hvalue hpresent) (exec_writeMultipleCoils_of_absent hvalue hpresent) rfl rfl
    · exact .intro (exec_writeMultipleCoils_of_value hvalue) (exec_writeMultipleCoils_of_value hvalue) rfl rfl

theorem writeMultipleRegisters_repeats (body : MultiBody) (s : State) : Repeats (.writeMultipleRegisters body) s := by
  cases body with
  | short b => exact .intro rfl rfl rfl rfl
  | fields a q bc data =>
    by_cases hvalue : 1 ≤ q.toNat ∧ q.toNat ≤ 123 ∧ bc.toNat = 2 * q.toNat ∧ bc.toNat ≤ data.length
    · by_cases hpresent : fullyPresent s.area (.word .holdingRegister) a.toNat q.toNat
      · have hfirst := exec_writeMultipleRegisters_of_present hvalue hpresent
        have hstill := fullyPresent_after_write rfl hfirst hpresent
        refine .intro hfirst (exec_writeMultipleRegisters_of_present hvalue hstill) ?_ rfl
        exact congrArg (s.area.setWordBank .holdingRegister) (writeRange_writeRange s.area.holdingRegisters a.toNat _)
      · exact .intro (exec_writeMultipleRegisters_of_absent hvalue hpresent)
          (exec_writeMultipleRegisters_of_absent hvalue hpresent) rfl rfl
    · exact .intro (exec_writeMultipleRegisters_of_value hvalue) (exec_writeMultipleRegisters_of_value hvalue) rfl rfl

theorem lWriteOne_repeats (a : Addr) (v : KindValue) (s : State) : Repeats (.lWriteOne a v) s := by
  cases hreg : s.area.reg v.kind a.toNat with
  | none => exact .intro (exec_lWriteOne_of_absent hreg) (exec_lWriteOne_of_absent hreg) rfl rfl
  | some x =>
    have hpresent : (s.area.reg v.kind a.toNat).isSome := Option.isSome_of_eq_some hreg
    cases v with
    | bit k b =>
      have hfirst := exec_lWriteOne_bit_of_present b hpresent
      have hstill := (exec_areaChange hfirst).isSome_of_isSome hpresent
      refine .intro hfirst (exec_lWriteOne_bit_of_present b hstill) ?_ rfl
      simp [State.answer, DataArea.setBitBank_setBitBank, writeKey_writeKey]
    | word k w =>
      have hfirst := exec_lWriteOne_word_of_present w hpresent
      have hstill := (exec_areaChange hfirst).isSome_of_isSome hpresent
      refine .intro hfirst (exec_lWriteOne_word_of_present w hstill) ?_ rfl
      simp [State.answer, DataArea.setWordBank_setWordBank, writeKey_writeKey]

/-- Settles O32: a check that fails fails again, and what a write stored it stores again. -/
theorem writesAreIdempotent : Obligations.WritesAreIdempotent := by
  intro i s t hi hexec
  cases i with
  | writeSingleCoil b => exact writeSingleCoil_repeats b s t hexec
  | writeSingleRegister b => exact writeSingleRegister_repeats b s t hexec
  | writeMultipleCoils b => exact writeMultipleCoils_repeats b s t hexec
  | writeMultipleRegisters b => exact writeMultipleRegisters_repeats b s t hexec
  | lWriteOne a v => exact lWriteOne_repeats a v s t hexec
  | _ => cases hi

/-! ## A read beside a write -/

/-- Performing a transaction whose instruction answers `x`, field by field. -/
theorem perform_eq_next {t : Transaction} {i : Instr} {s : State} {r : Nat} {d : DataArea} {x : Response}
    (hdecode : decode t = .ok i) (hexec : exec i (s.take r) = .next ({ s.take r with area := d }.answer x)) :
    perform r t s = .next { s.take r with area := d, delivered := placeKey s.delivered r x } := by
  simp only [perform, hdecode, hexec]
  rfl

/-- Of two outstanding transactions the block chooses one or the other (R34, R51). -/
theorem choose_pair (n : Nat) (e e' : Nat × Transaction) : choose n [e, e'] = some e ∨ choose n [e, e'] = some e' := by
  obtain h | h := Nat.mod_two_eq_zero_or_one (Config.arbiter n)
  · exact .inl (by simp [choose, h])
  · exact .inr (by simp [choose, h])

/-- The request that writes holding registers 0 and 1 (vector CC2). -/
def writePair (new0 new1 : Word) : Transaction :=
  .request ([0x10, 0x00, 0x00, 0x00, 0x02, 0x04] ++ u16ToBe new0 ++ u16ToBe new1)

/-- The request that reads holding registers 0 and 1 (vector CC2). -/
def readPair : Transaction := .request [0x03, 0x00, 0x00, 0x00, 0x02]

/-- The two values of holding registers 0 and 1. -/
def HoldsPair (d : DataArea) (v0 v1 : Word) : Prop :=
  d.reg (.word .holdingRegister) 0 = some (.word v0) ∧ d.reg (.word .holdingRegister) 1 = some (.word v1)

theorem HoldsPair.fullyPresent {d : DataArea} {v0 v1 : Word} (h : HoldsPair d v0 v1) :
    fullyPresent d (.word .holdingRegister) 0 2 := by
  intro j hj
  obtain rfl | rfl : j = 0 ∨ j = 1 := by omega
  · exact Option.isSome_of_eq_some h.1
  · exact Option.isSome_of_eq_some h.2

/-- The write of both registers is performed whole: afterwards both hold the new values (R44, R130). -/
theorem perform_writePair {s : State} {old0 old1 : Word} (h : HoldsPair s.area old0 old1) (r : Nat) (new0 new1 : Word) :
    ∃ d x, perform r (writePair new0 new1) s = .next { s.take r with area := d, delivered := placeKey s.delivered r x } ∧
      HoldsPair d new0 new1 := by
  obtain ⟨-, hfields⟩ := writeMultipleRegistersWritesTheRange (s.take r)
  obtain ⟨-, -, hwrite⟩ := hfields 0x0000 0x0002 0x04 (u16ToBe new0 ++ u16ToBe new1)
  obtain ⟨d, hexec, hwritten, -, -⟩ := hwrite (by simp) h.fullyPresent
  have hvalue (v : Word) : BitVec.ofNat 16 ((highByte v).toNat * 256 + (lowByte v).toNat) = v := by
    rw [← u16FromBe_toNat, BitVec.ofNat_toNat, BitVec.setWidth_eq, u16FromBe_bytes]
  refine ⟨d, _, perform_eq_next rfl hexec, (hwritten 0 (by decide)).trans ?_, (hwritten 1 (by decide)).trans ?_⟩
  · exact congrArg (some ∘ Value.word) (hvalue new0)
  · exact congrArg (some ∘ Value.word) (hvalue new1)

/-- The read of both registers answers the values they hold and changes no bank (R44, R123). -/
theorem perform_readPair {s : State} {v0 v1 : Word} (h : HoldsPair s.area v0 v1) (r : Nat) :
    perform r readPair s = .next { s.take r with
      delivered := placeKey s.delivered r (.pdu ([0x03, 0x04] ++ u16ToBe v0 ++ u16ToBe v1)) } := by
  refine perform_eq_next (i := .readHoldingRegisters (.fields 0x0000 0x0002 [])) (d := s.area) rfl ?_
  refine readWords_of_shown 0x03 (a := 0x0000) (q := 0x0002) (ws := [v0, v1]) [] rfl (by simp) (by simp) fun j hj => ?_
  obtain rfl | rfl : j = 0 ∨ j = 1 := by simp at hj; omega
  · exact h.1
  · exact h.2

/-- Two steps from two outstanding transactions: the one that is chosen, then the other. -/
theorem run_two {s u t : State} {r r' : Nat} {p p' : Transaction} (hchoose : choose s.turns s.pending = some (r, p))
    (hfirst : perform r p s = .next u) (hleft : u.pending = [(r', p')]) (hsecond : perform r' p' u = .next t) :
    Host.Core.run Sys2Proof.core 2 s = .next t := by
  have hstep : step s = .next u := by simp only [step, hchoose, hfirst]
  have hstep' : step u = .next t := (step_of_pending_singleton hleft).trans hsecond
  exact (run_succ Sys2Proof.core 1 hstep).trans (run_succ Sys2Proof.core 0 hstep')

/-- Settles O9: the block chooses the write or the read, performs it whole, and then the other one. -/
theorem concurrentReadSeesNoPartialWrite : Obligations.ConcurrentReadSeesNoPartialWrite := by
  intro s old0 old1 new0 new1 h0 h1 hpending
  have hold : HoldsPair s.area old0 old1 := ⟨h0, h1⟩
  have hpair : s.pending = [(0, writePair new0 new1), (1, readPair)] := hpending
  obtain hchoose | hchoose := choose_pair s.turns (0, writePair new0 new1) (1, readPair) <;> rw [← hpair] at hchoose
  case inl =>
    obtain ⟨d, x, hwrite, hnew⟩ := perform_writePair hold 0 new0 new1
    refine ⟨_, run_two hchoose hwrite (by simp [hpair, removeKey]) (perform_readPair hnew 1), .inr ?_, hnew⟩
    simp
  case inr =>
    have hread := perform_readPair hold 1
    obtain ⟨d, x, hwrite, hnew⟩ := perform_writePair (s := { s.take 1 with
      delivered := placeKey s.delivered 1 (.pdu ([0x03, 0x04] ++ u16ToBe old0 ++ u16ToBe old1)) }) hold 0 new0 new1
    refine ⟨_, run_two hchoose hread (by simp [hpair, removeKey]) hwrite, .inl ?_, hnew⟩
    simp

end Sys2Proof.Machine
end

section
/-! INSERT and GENERATE (spec/40_register_file.md R81 to R88): each outcome of their checks, the registers they add, and generating as
repeated inserting. -/

namespace Sys2Proof.Machine

/-! ## One register more -/

/-- The Data Area with one register more. -/
def inserted (d : DataArea) (a : Nat) : KindValue → DataArea
  | .bit k v => d.setBitBank k (placeKey (d.bitBank k) a v)
  | .word k v => d.setWordBank k (placeKey (d.wordBank k) a v)

/-- The new register has its value, and every other register of every kind keeps its own (R81). -/
theorem reg_inserted (d : DataArea) {a : Nat} (ha : a ≤ Config.maxAddress) (v : KindValue) (K : Kind) (n : Nat) :
    (inserted d a v).reg K n = if K = v.kind ∧ n = a then some v.value else d.reg K n := by
  cases v with
  | bit k x =>
    simp only [inserted, reg_setBitBank, KindValue.kind, bankAt_placeKey _ _ _ ha]
    by_cases hK : K = .bit k
    · subst hK
      by_cases hn : n = a <;> simp [hn, DataArea.reg_bit, KindValue.value]
    · simp [hK]
  | word k x =>
    simp only [inserted, reg_setWordBank, KindValue.kind, bankAt_placeKey _ _ _ ha]
    by_cases hK : K = .word k
    · subst hK
      by_cases hn : n = a <;> simp [hn, DataArea.reg_word, KindValue.value]
    · simp [hK]

/-- A register that does not exist is added to the bank of its kind alone (R81). -/
theorem size_inserted {d : DataArea} {a : Nat} (ha : a ≤ Config.maxAddress) {v : KindValue} (hfree : d.reg v.kind a = none)
    (K : Kind) : (inserted d a v).size K = if K = v.kind then d.size K + 1 else d.size K := by
  cases v with
  | bit k x =>
    have hkey : lookupKey (d.bitBank k) a = none := by
      rw [← bankAt_of_le _ ha]; exact Option.map_eq_none_iff.1 hfree
    rw [inserted, size_setBitBank, placeKey_length _ hkey]
    split
    · subst_vars; rw [KindValue.kind, if_pos rfl]; rfl
    · rw [KindValue.kind, if_neg ‹_›]
  | word k x =>
    have hkey : lookupKey (d.wordBank k) a = none := by
      rw [← bankAt_of_le _ ha]; exact Option.map_eq_none_iff.1 hfree
    rw [inserted, size_setWordBank, placeKey_length _ hkey]
    split
    · subst_vars; rw [KindValue.kind, if_pos rfl]; rfl
    · rw [KindValue.kind, if_neg ‹_›]

/-- INSERT into a full bank, whatever the address (R81, D11). -/
theorem exec_lInsert_of_full {s : State} {v : KindValue} (a : Addr) (hfull : cap v.kind ≤ s.area.size v.kind) :
    exec (.lInsert a v) s = .next (s.answer (.error .capacityExceeded)) := by
  cases v with
  | bit k x =>
    have hinsert := (insertOne_eq_error_iff (cap (.bit k)) (s.area.bitBank k) a x _).2 (.inl ⟨hfull, rfl⟩)
    simp only [exec, execLInsert, hinsert, storeBits, fail_eq, State.answer]
  | word k x =>
    have hinsert := (insertOne_eq_error_iff (cap (.word k)) (s.area.wordBank k) a x _).2 (.inl ⟨hfull, rfl⟩)
    simp only [exec, execLInsert, hinsert, storeWords, fail_eq, State.answer]

/-- INSERT at a populated address (R81). -/
theorem exec_lInsert_of_present {s : State} {v : KindValue} {a : Addr} (hroom : s.area.size v.kind < cap v.kind)
    (hpresent : (s.area.reg v.kind a.toNat).isSome) :
    exec (.lInsert a v) s = .next (s.answer (.error .duplicateAddress)) := by
  cases v with
  | bit k x =>
    have hbank : (bankAt (s.area.bitBank k) a.toNat).isSome := Option.isSome_map.symm.trans hpresent
    have hinsert := (insertOne_eq_error_iff (cap (.bit k)) _ a x _).2 (.inr ⟨hroom, hbank, rfl⟩)
    simp only [exec, execLInsert, hinsert, storeBits, fail_eq, State.answer]
  | word k x =>
    have hbank : (bankAt (s.area.wordBank k) a.toNat).isSome := Option.isSome_map.symm.trans hpresent
    have hinsert := (insertOne_eq_error_iff (cap (.word k)) _ a x _).2 (.inr ⟨hroom, hbank, rfl⟩)
    simp only [exec, execLInsert, hinsert, storeWords, fail_eq, State.answer]

/-- INSERT at a free address of a bank with room (R81). -/
theorem exec_lInsert_of_free {s : State} {v : KindValue} {a : Addr} (hroom : s.area.size v.kind < cap v.kind)
    (hfree : s.area.reg v.kind a.toNat = none) :
    exec (.lInsert a v) s = .next ({ s with area := inserted s.area a.toNat v }.answer (.ok .none)) := by
  cases v with
  | bit k x =>
    have hbank : bankAt (s.area.bitBank k) a.toNat = none := Option.map_eq_none_iff.1 hfree
    have hinsert := (insertOne_eq_ok_iff (cap (.bit k)) _ _ a x).2 ⟨hroom, hbank, rfl⟩
    simp only [exec, execLInsert, hinsert, storeBits, succeed_eq]
    rfl
  | word k x =>
    have hbank : bankAt (s.area.wordBank k) a.toNat = none := Option.map_eq_none_iff.1 hfree
    have hinsert := (insertOne_eq_ok_iff (cap (.word k)) _ _ a x).2 ⟨hroom, hbank, rfl⟩
    simp only [exec, execLInsert, hinsert, storeWords, succeed_eq]
    rfl

/-- Settles O35: the two checks of INSERT in their order, then the one register it adds. -/
theorem insertAddsOneRegister : Obligations.InsertAddsOneRegister := fun s a v =>
  ⟨exec_lInsert_of_full a, exec_lInsert_of_present, fun hroom hfree =>
    ⟨_, exec_lInsert_of_free hroom hfree, reg_inserted s.area (addr_le a) v, size_inserted (addr_le a) hfree⟩⟩

/-! ## GENERATE -/

/-- After generating booleans the interval has the generated values, and every other register of every kind its own (R88). -/
theorem reg_setBitBank_populate {d : DataArea} {k : BitKind} {a : Addr} {n : Nat} {g : Nat → Bool}
    (hfits : ¬ (0 < n ∧ 0xFFFF < a.toNat + n - 1)) (K : Kind) (m : Nat) :
    (d.setBitBank k (populate (d.bitBank k) a.toNat n g)).reg K m =
      if K = .bit k ∧ a.toNat ≤ m ∧ m < a.toNat + n then some (.bit (g (m - a.toNat))) else d.reg K m := by
  rw [reg_setBitBank, bankAt_populate_fits hfits]
  by_cases hK : K = .bit k
  · subst hK
    by_cases hm : a.toNat ≤ m ∧ m < a.toNat + n <;> simp [hm, DataArea.reg_bit]
  · simp [hK]

/-- After generating words the interval has the generated values, and every other register of every kind its own (R88). -/
theorem reg_setWordBank_populate {d : DataArea} {k : WordKind} {a : Addr} {n : Nat} {g : Nat → Word}
    (hfits : ¬ (0 < n ∧ 0xFFFF < a.toNat + n - 1)) (K : Kind) (m : Nat) :
    (d.setWordBank k (populate (d.wordBank k) a.toNat n g)).reg K m =
      if K = .word k ∧ a.toNat ≤ m ∧ m < a.toNat + n then some (.word (g (m - a.toNat))) else d.reg K m := by
  rw [reg_setWordBank, bankAt_populate_fits hfits]
  by_cases hK : K = .word k
  · subst hK
    by_cases hm : a.toNat ≤ m ∧ m < a.toNat + n <;> simp [hm, DataArea.reg_word]
  · simp [hK]

section Generate

variable {s : State} {K : Kind} {p : Pattern} {a : Addr} {n : Word}

/-- A pattern that applies to a boolean kind has values (R86). -/
theorem exists_genBit {k : BitKind} (happ : applicable (.bit k) p = true) (draws : Nat) : ∃ g, genBit p draws = some g :=
  Option.isSome_iff_exists.1 ((genBit_isSome p draws k).trans happ)

/-- A pattern that does not apply, which only a boolean kind has (R86). -/
theorem exec_lGenerate_of_not_applicable (happ : applicable K p = false) :
    exec (.lGenerate K p a n) s = .next (s.answer (.error .invalidGenerationPattern)) := by
  cases K with
  | bit k =>
    have hnone : genBit p s.draws = none := Option.not_isSome_iff_eq_none.1 (by rw [genBit_isSome p s.draws k, happ]; decide)
    simp only [exec, execLGenerate, hnone, fail_eq, State.answer]
  | word k => cases happ

/-- A check of the bank that fails is the answer of GENERATE, whatever the values of the pattern (R84, R87). -/
theorem exec_lGenerate_of_error (happ : applicable K p = true) {e : LocalError}
    (hbits : ∀ k g, K = .bit k → generateBank (cap K) (s.area.bitBank k) a n.toNat g = .error e)
    (hwords : ∀ k g, K = .word k → generateBank (cap K) (s.area.wordBank k) a n.toNat g = .error e) :
    exec (.lGenerate K p a n) s = .next (s.answer (.error e)) := by
  cases K with
  | bit k =>
    obtain ⟨g, hg⟩ := exists_genBit happ s.draws
    simp only [exec, execLGenerate, hg, hbits k g rfl, fail_eq, State.answer]
  | word k => simp only [exec, execLGenerate, hwords k _ rfl, fail_eq, State.answer]

/-- Too little room (R84, R87). -/
theorem exec_lGenerate_of_full (happ : applicable K p = true) (hfull : cap K < n.toNat ∨ cap K - s.area.size K < n.toNat) :
    exec (.lGenerate K p a n) s = .next (s.answer (.error .capacityExceeded)) := by
  refine exec_lGenerate_of_error happ (fun k g hK => ?_) (fun k g hK => ?_) <;> subst hK <;> exact generateBank_full hfull

/-- An interval past 0xFFFF (R84, D12). -/
theorem exec_lGenerate_of_past (happ : applicable K p = true) (hroom : ¬ (cap K < n.toNat ∨ cap K - s.area.size K < n.toNat))
    (hpast : 0 < n.toNat ∧ 0xFFFF < a.toNat + n.toNat - 1) :
    exec (.lGenerate K p a n) s = .next (s.answer (.error .outOfRange)) := by
  refine exec_lGenerate_of_error happ (fun k g hK => ?_) (fun k g hK => ?_) <;> subst hK <;> exact generateBank_past hroom hpast

/-- A populated address in the interval (R84). -/
theorem exec_lGenerate_of_collides (happ : applicable K p = true)
    (hroom : ¬ (cap K < n.toNat ∨ cap K - s.area.size K < n.toNat)) (hfits : ¬ (0 < n.toNat ∧ 0xFFFF < a.toNat + n.toNat - 1))
    (hcollides : ∃ i < n.toNat, (s.area.reg K (a.toNat + i)).isSome) :
    exec (.lGenerate K p a n) s = .next (s.answer (.error .duplicateAddress)) := by
  obtain ⟨i, hi, hpresent⟩ := hcollides
  refine exec_lGenerate_of_error happ (fun k g hK => ?_) (fun k g hK => ?_) <;> subst hK <;>
    exact generateBank_collides hroom hfits ⟨i, hi, Option.isSome_map.symm.trans hpresent⟩

/-- The state that a successful GENERATE ends in: the Data Area `d`, and as many draws used as Random registers were added (D13). -/
theorem generatedState_eq (s : State) (p : Pattern) (n : Nat) (d : DataArea) :
    ({ s with draws := drawsAfter p n s.draws, area := d, response := some (.ok .none) } : State) =
      { s with area := d, draws := if p = Pattern.random then s.draws + n else s.draws }.answer (.ok .none) := by
  rw [drawsAfter_eq]; rfl

/-- Free room: exactly the registers of the interval are added, with the values of the table of R85 (R84, R88). -/
theorem exec_lGenerate_of_free (happ : applicable K p = true) (hroom : ¬ (cap K < n.toNat ∨ cap K - s.area.size K < n.toNat))
    (hfits : ¬ (0 < n.toNat ∧ 0xFFFF < a.toNat + n.toNat - 1)) (hfree : ¬ ∃ i < n.toNat, (s.area.reg K (a.toNat + i)).isSome) :
    ∃ d, exec (.lGenerate K p a n) s = .next ({ s with
        area := d
        draws := if p = Pattern.random then s.draws + n.toNat else s.draws }.answer (.ok .none)) ∧
      (∀ i < n.toNat, (d.reg K (a.toNat + i)).isSome ∧
        ∀ v, generatedValue K p i n.toNat = some v → d.reg K (a.toNat + i) = some v) ∧
      (∀ K' m, ¬ (K' = K ∧ a.toNat ≤ m ∧ m < a.toNat + n.toNat) → d.reg K' m = s.area.reg K' m) ∧
      ∀ K', d.size K' = if K' = K then s.area.size K + n.toNat else s.area.size K' := by
  cases K with
  | bit k =>
    obtain ⟨g, hg⟩ := exists_genBit happ s.draws
    have hbank : ¬ ∃ i < n.toNat, (bankAt (s.area.bitBank k) (a.toNat + i)).isSome := by simpa [DataArea.reg_bit] using hfree
    have hgen := generateBank_free (g := g) hroom hfits hbank
    have hreg := reg_setBitBank_populate (d := s.area) (k := k) (g := g) hfits
    refine ⟨s.area.setBitBank k (populate (s.area.bitBank k) a.toNat n.toNat g), ?exec, fun i hi => ?added,
      fun K' m hout => (hreg K' m).trans (if_neg hout), fun K' => ?sizes⟩
    case exec =>
      simp only [exec, execLGenerate, hg, hgen, succeed_eq, ← generatedState_eq]
      rfl
    case added =>
      rw [hreg, if_pos ⟨rfl, by omega, by omega⟩, Nat.add_sub_cancel_left]
      exact ⟨rfl, fun v hv => congrArg some (genBit_value hg hv).symm⟩
    case sizes => rw [size_setBitBank, populate_length_free hfits hbank]; rfl
  | word k =>
    have hbank : ¬ ∃ i < n.toNat, (bankAt (s.area.wordBank k) (a.toNat + i)).isSome := by simpa [DataArea.reg_word] using hfree
    have hgen := generateBank_free (g := genWord p n.toNat s.draws) hroom hfits hbank
    have hreg := reg_setWordBank_populate (d := s.area) (k := k) (g := genWord p n.toNat s.draws) hfits
    refine ⟨s.area.setWordBank k (populate (s.area.wordBank k) a.toNat n.toNat (genWord p n.toNat s.draws)), ?exec,
      fun i hi => ?added, fun K' m hout => (hreg K' m).trans (if_neg hout), fun K' => ?sizes⟩
    case exec =>
      simp only [exec, execLGenerate, hgen, succeed_eq, ← generatedState_eq]
      rfl
    case added =>
      rw [hreg, if_pos ⟨rfl, by omega, by omega⟩, Nat.add_sub_cancel_left]
      exact ⟨rfl, fun v hv => congrArg some (genWord_value hv).symm⟩
    case sizes => rw [size_setWordBank, populate_length_free hfits hbank]; rfl

end Generate

/-- Settles O36: the four checks of GENERATE in their order, then the registers it adds. -/
theorem generateAddsAllRegistersOrNone : Obligations.GenerateAddsAllRegistersOrNone := fun _ _ _ _ _ =>
  ⟨exec_lGenerate_of_not_applicable, exec_lGenerate_of_full, exec_lGenerate_of_past, exec_lGenerate_of_collides,
    exec_lGenerate_of_free⟩

/-! ## Generating as repeated inserting -/

/-- The state after `i` successful inserts of the values `gen` at consecutive addresses from `a`. -/
def afterInserts (s : State) (a : Nat) (gen : Nat → KindValue) : Nat → State
  | 0 => s
  | i + 1 =>
    { afterInserts s a gen i with area := inserted (afterInserts s a gen i).area (a + i) (gen i) }.answer (.ok .none)

section Inserts

variable {s : State} {K : Kind} {a n : Nat} {gen : Nat → KindValue}

/-- After `i` inserts the later addresses of the interval are as before, and the bank has `i` registers more. -/
theorem afterInserts_reg_size (hkind : ∀ i, (gen i).kind = K) (hfits : ∀ i < n, a + i ≤ Config.maxAddress)
    (hfree : ∀ i < n, s.area.reg K (a + i) = none) {i : Nat} (hi : i ≤ n) :
    (∀ j < n, i ≤ j → (afterInserts s a gen i).area.reg K (a + j) = none) ∧
      (afterInserts s a gen i).area.size K = s.area.size K + i := by
  induction i with
  | zero => exact ⟨fun j hj _ => hfree j hj, rfl⟩
  | succ i ih =>
    obtain ⟨hlater, hsize⟩ := ih (by omega)
    have ha := hfits i (by omega)
    have hnone := hlater i (by omega) le_rfl
    rw [← hkind i] at hnone
    refine ⟨fun j hj hij => ?_, ?_⟩
    · have hne : a + j ≠ a + i := by omega
      exact (reg_inserted _ ha (gen i) K _).trans ((if_neg fun h => hne h.2).trans (hlater j hj (by omega)))
    · exact (size_inserted ha hnone K).trans ((if_pos (hkind i).symm).trans (by rw [hsize]; rfl))

/-- Each insert of the sequence succeeds (R88). -/
theorem exec_lInsert_afterInserts {start : Addr} (hkind : ∀ i, (gen i).kind = K)
    (hfits : ∀ i < n, start.toNat + i ≤ Config.maxAddress) (hroom : n ≤ cap K - s.area.size K)
    (hfree : ∀ i < n, s.area.reg K (start.toNat + i) = none) {i : Nat} (hi : i < n) :
    exec (.lInsert (start + BitVec.ofNat 16 i) (gen i)) (afterInserts s start.toNat gen i) =
      .next (afterInserts s start.toNat gen (i + 1)) := by
  obtain ⟨hlater, hsize⟩ := afterInserts_reg_size hkind hfits hfree hi.le
  have haddr : (start + BitVec.ofNat 16 i).toNat = start.toNat + i := by
    have hmax := hfits i hi
    simp only [Config.maxAddress] at hmax
    simp only [BitVec.toNat_add, BitVec.toNat_ofNat]; omega
  have hinsert := exec_lInsert_of_free (s := afterInserts s start.toNat gen i) (v := gen i) (a := start + BitVec.ofNat 16 i)
    (by rw [hkind, hsize]; omega) (by rw [hkind, haddr]; exact hlater i hi le_rfl)
  rwa [haddr] at hinsert

end Inserts

/-- A Data Area with one of its own banks stored is itself. -/
theorem DataArea.setBitBank_self (d : DataArea) (k : BitKind) : d.setBitBank k (d.bitBank k) = d := by cases k <;> rfl

theorem DataArea.setWordBank_self (d : DataArea) (k : WordKind) : d.setWordBank k (d.wordBank k) = d := by cases k <;> rfl

/-- Inserting booleans one by one populates the bank (R88). -/
theorem afterInserts_area_bit (s : State) (a : Nat) (k : BitKind) (g : Nat → Bool) (h : ascending (s.area.bitBank k)) (i : Nat) :
    (afterInserts s a (fun i => .bit k (g i)) i).area = s.area.setBitBank k (populate (s.area.bitBank k) a i g) := by
  induction i with
  | zero => exact (s.area.setBitBank_self k).symm
  | succ i ih =>
    simp only [afterInserts, State.answer, inserted, ih, DataArea.setBitBank_setBitBank, DataArea.bitBank_setBitBank, if_true,
      populate_succ _ h]

/-- Inserting words one by one populates the bank (R88). -/
theorem afterInserts_area_word (s : State) (a : Nat) (k : WordKind) (g : Nat → Word) (h : ascending (s.area.wordBank k)) (i : Nat) :
    (afterInserts s a (fun i => .word k (g i)) i).area = s.area.setWordBank k (populate (s.area.wordBank k) a i g) := by
  induction i with
  | zero => exact (s.area.setWordBank_self k).symm
  | succ i ih =>
    simp only [afterInserts, State.answer, inserted, ih, DataArea.setWordBank_setWordBank, DataArea.wordBank_setWordBank, if_true,
      populate_succ _ h]

/-- A GENERATE that answers OK populated the bank of its kind with the values `gen`, and every insert of those values has room (R88). -/
theorem exists_gen_of_lGenerate_ok {s t : State} {K : Kind} {p : Pattern} {a : Addr} {n : Word} (hwf : Memory.wf s.area)
    (hexec : exec (.lGenerate K p a n) s = .next t) (hok : t.response = some (.ok .none)) :
    ∃ gen : Nat → KindValue, (∀ i, (gen i).kind = K) ∧ (∀ i < n.toNat, a.toNat + i ≤ Config.maxAddress) ∧
      n.toNat ≤ cap K - s.area.size K ∧ (∀ i < n.toNat, s.area.reg K (a.toNat + i) = none) ∧
      (afterInserts s a.toNat gen n.toNat).area = t.area := by
  obtain ⟨hbits, hwords⟩ := (DataArea.wf_iff s.area).1 hwf
  rw [exec] at hexec
  obtain ⟨e, h⟩ | ⟨k, g, bank, rfl, -, hgen, h⟩ | ⟨k, bank, rfl, hgen, h⟩ := execLGenerate_cases K p a n s <;>
    rw [h] at hexec <;> cases hexec
  · cases hok
  · obtain ⟨-, hroom, hfits, hfree, rfl⟩ := (generateBank_eq_ok_iff _ _ _ _ _ _).1 hgen
    exact ⟨fun i => .bit k (g i), fun _ => rfl, fun i hi => by omega, hroom, fun i hi => Option.map_eq_none_iff.2 (hfree i hi),
      afterInserts_area_bit s a.toNat k g (hbits k).1 n.toNat⟩
  · obtain ⟨-, hroom, hfits, hfree, rfl⟩ := (generateBank_eq_ok_iff _ _ _ _ _ _).1 hgen
    exact ⟨fun i => .word k (genWord p n.toNat s.draws i), fun _ => rfl, fun i hi => by omega, hroom,
      fun i hi => Option.map_eq_none_iff.2 (hfree i hi),
      afterInserts_area_word s a.toNat k _ (hwords k).1 n.toNat⟩

/-- Settles O37: the inserts of the generated values, one after the other. -/
theorem generateEqualsInserts : Obligations.GenerateEqualsInserts := by
  intro s t K p a n hwf hexec hok
  obtain ⟨gen, hkind, hfits, hroom, hfree, harea⟩ := exists_gen_of_lGenerate_ok hwf hexec hok
  refine ⟨(List.range n.toNat).map gen, by simp, ?kinds, (List.range (n.toNat + 1)).map (afterInserts s a.toNat gen), by simp,
    by simp [afterInserts], fun i hi => ?insert, ?area⟩
  case kinds =>
    intro v hv
    obtain ⟨i, -, rfl⟩ := List.mem_map.1 hv
    exact hkind i
  case insert =>
    refine ⟨gen i, _, _, by simp [hi], ?_, ?_, exec_lInsert_afterInserts hkind hfits hroom hfree hi, rfl⟩
    · rw [List.getElem?_map, List.getElem?_range (by omega)]; rfl
    · rw [List.getElem?_map, List.getElem?_range (by omega)]; rfl
  case area =>
    intro u hu
    rw [List.getElem?_map, List.getElem?_range (by omega)] at hu
    cases hu
    exact harea

end Sys2Proof.Machine
end

section
/-! The utilities of port L (spec/41_bit_utilities.md, spec/47_mbap_codec.md), the fixed parameters (spec/00_scope.md R5) and the reserved
command words (spec/30_encoding.md R76). -/

namespace Sys2Proof.Machine

/-! ## Bit packing -/

/-- Two byte sequences of one length that agree bit by bit are one sequence. -/
theorem bytes_ext {d d' : List Byte} (hlength : d.length = d'.length)
    (hbits : ∀ i < d.length, ∀ j < 8, (d.getD i 0#8).getLsbD j = (d'.getD i 0#8).getLsbD j) : d = d' := by
  refine List.ext_getElem hlength fun i hi hi' => BitVec.eq_of_getLsbD_eq fun j hj => ?_
  have hbit := hbits i hi j hj
  rwa [List.getD_eq_getElem _ _ hi, List.getD_eq_getElem _ _ hi'] at hbit

/-- Element `k` of unpacked bytes is bit `k mod 8` of byte `k div 8`, and there are `n` of them (R98). -/
theorem unpackBits_getD (d : List Byte) (n k : Nat) :
    (unpackBits d n).getD k false = if k < n then (d.getD (k / 8) 0#8).getLsbD (k % 8) else false := by
  split
  · rename_i hk
    rw [List.getD_eq_getElem?_getD, unpackBits_getElem? d n k hk]; rfl
  · rename_i hk
    exact List.getD_eq_default _ _ (by simpa using hk)

/-- Packing undoes unpacking when the bits past the `n`-th are 0 (R102): bit `j` of byte `i` is element `8i + j`. -/
theorem packBits_unpackBits {d : List Byte} {n : Nat} (hlength : d.length = bytesNeeded n)
    (hunused : ∀ i j, j < 8 → n ≤ 8 * i + j → (d.getD i 0#8).getLsbD j = false) : packBits (unpackBits d n) = d := by
  refine bytes_ext (by rw [packBits_length, unpackBits_length, hlength]) fun i _ j hj => ?_
  have hbyte : (8 * i + j) / 8 = i := by omega
  have hbit : (8 * i + j) % 8 = j := by omega
  rw [packBits_getLsbD_byte _ _ hj, unpackBits_getD, hbyte, hbit]
  split
  · rfl
  · exact (hunused i j hj (by omega)).symm

/-- Settles O43: each law bit by bit. -/
theorem packingAndUnpackingAreInverse : Obligations.PackingAndUnpackingAreInverse :=
  ⟨unpackBits_packBits, fun _ _ hlength hunused => packBits_unpackBits hlength hunused⟩

/-- Settles O42: with enough bytes the elements of `unpackBits`, with fewer the refusal. -/
theorem unpackBitsIsLsbFirst : Obligations.UnpackBitsIsLsbFirst := by
  refine fun s n d => ⟨fun henough => ⟨unpackBits d n.toNat, ?_, unpackBits_length d _, fun k => unpackBits_getElem? d _ k⟩,
    fun hshort => if_pos hshort⟩
  exact if_neg (Nat.not_lt.2 henough)

/-- Settles O44: element `k` is read from bit `k` alone. -/
theorem paddingBitsAreIgnored : Obligations.PaddingBitsAreIgnored := fun _ _ _ hagree =>
  List.map_congr_left fun k hk => hagree k (List.mem_range.1 hk)

/-! ## Numbers and texts -/

/-- A data operand of U16_FROM_BE that is not two bytes has not the shape of its row (R72, R76). -/
theorem decode_u16FromBe_of_length {b : List Byte} (hlength : b.length ≠ 2) :
    decode (.command 0x8000000000000000 (.bytes b)) = .error .operandShape := by
  match b, hlength with
  | [], _ => rfl
  | [_], _ => rfl
  | [_, _], h => exact absurd rfl h
  | _ :: _ :: _ :: _, _ => rfl

/-- Settles O45: each utility answers its function, whose value the byte-order laws give. -/
theorem numericUtilitiesAnswer : Obligations.NumericUtilitiesAnswer := by
  refine fun s => ⟨fun _ => rfl, fun hi lo => ⟨u16FromBe hi lo, u16FromBe_toNat hi lo, rfl⟩,
    fun _ => decode_u16FromBe_of_length,
    fun v => ⟨highByte v, lowByte v, highByte_toNat v, lowByte_toNat v, rfl⟩, fun fc _ => ⟨rfl, fun hbit => ?_⟩⟩
  rw [← BitVec.msb_eq_getLsbD_last, BitVec.msb_eq_decide, decide_eq_true_eq] at hbit
  exact or_0x80_eq_self hbit

/-- Settles O46: the digits are the last digits of the quotients by the powers of ten, and an address has at most five. -/
theorem formatAddressWritesFiveDigits : Obligations.FormatAddressWritesFiveDigits := by
  intro s K a
  have hmax := a.isLt
  refine ⟨a.toNat / 10000 % 10, a.toNat / 1000 % 10, a.toNat / 100 % 10, a.toNat / 10 % 10, a.toNat % 10,
    by omega, by omega, by omega, by omega, by omega, by omega, ?_⟩
  rcases K with (_ | _) | (_ | _) <;> rfl

/-! ## The MBAP codec -/

/-- Fewer than seven bytes hold no header (R135). -/
theorem mbapParse_eq_none_of_length {b : List Byte} (hlength : b.length < 7) : mbapParse b = none := by
  match b, hlength with
  | [], _ | [_], _ | [_, _], _ | [_, _, _], _ | [_, _, _, _], _ | [_, _, _, _, _], _ | [_, _, _, _, _, _], _ => rfl
  | _ :: _ :: _ :: _ :: _ :: _ :: _ :: _, h => simp at h; omega

/-- Settles O48: the header is read field by field from the first seven bytes. -/
theorem mbapParseReadsTheHeader : Obligations.MbapParseReadsTheHeader := by
  refine fun s b => ⟨fun hshort => ?malformed, fun hlong => ?header⟩
  case malformed =>
    simp only [exec, execLMbapParse, mbapParse_eq_none_of_length hshort, fail_eq, State.answer]
  case header =>
    match b, hlong with
    | t1 :: t0 :: p1 :: p0 :: l1 :: l0 :: u :: _, _ =>
      exact ⟨_, rfl, u16FromBe_toNat t1 t0, u16FromBe_toNat p1 p0, u16FromBe_toNat l1 l0, rfl⟩

/-- Settles O49: the frame is the serialized header, which is read back, and then the PDU. -/
theorem mbapFrameSetsTheLength : Obligations.MbapFrameSetsTheLength := by
  refine fun s m r => ⟨fun ⟨hpos, hmax⟩ => ?framed, fun hlength => if_pos hlength⟩
  have hlegal : ¬ (r.length = 0 ∨ Config.pduMax < r.length) := by simp only [Config.pduMax]; omega
  have hlen : (BitVec.ofNat 16 (1 + r.length)).toNat = 1 + r.length := Nat.mod_eq_of_lt (by omega)
  exact ⟨_, _, if_neg hlegal, mbapSerialize_length _, mbapParse_mbapSerialize _, hlen, rfl, rfl, rfl⟩

/-! ## Parameters and reserved words -/

/-- Settles O34: the constants of R5. -/
theorem fixedParametersAreTheSpecs : Obligations.FixedParametersAreTheSpecs :=
  ⟨rfl, rfl, rfl, rfl, rfl, rfl, rfl, rfl⟩

/-- Settles O50: every path of L.RESERVED is a refusal, and op 0xF alone selects no operation. -/
theorem reservedCommandsAreRefused : Obligations.ReservedCommandsAreRefused := by
  refine ⟨execLReserved_refuses, fun w x s _ => ?_⟩
  cases hop : localOpOf (fieldsOf w).op with
  | none =>
    have hF : (fieldsOf w).op = 0xF := (localOpOf_eq_none_iff _).1 hop
    simp only [exec, execLReserved, hop, if_pos hF]
  | some o =>
    have hF : (fieldsOf w).op ≠ 0xF := fun h => by rw [(localOpOf_eq_none_iff _).2 h] at hop; cases hop
    simp only [exec, execLReserved, hop, if_neg hF]
    exact (apply_ite Host.Outcome.refused _ _ _).symm

end Sys2Proof.Machine
end
